-- ==== Sys2Proof/Word.lean ====
section
/-! DEFINITION. The word type of the RNOS CORE and its plainest readings (00_scope.md R9 to R11). -/

namespace Sys2Proof

/-- A register, memory cell or ALU value: 32 bits, bit 0 least significant (00_scope.md R8, R9, R18). -/
abbrev Word := BitVec 32

/-- One byte of a memory's byte image (20_memory.md R105). -/
abbrev Byte := BitVec 8

/-- A register index as an instruction holds it: 5 bits (30_encoding.md R151). -/
abbrev RegIdx := BitVec 5

/-- `w32(n)`: the word whose unsigned value is n mod 2^32, the remainder non-negative (00_scope.md R11). -/
def w32 (n : Int) : Word := BitVec.ofInt 32 n

end Sys2Proof
end

