-- ==== Sys2Proof/Syntax.lean ====
section
/-! DEFINITION. The instructions: one constructor per row of spec/opcode_table.json. -/

namespace Sys2Proof

/-- The 31 recognized instructions of 30_encoding.md R170 and the unrecognized class of 49_unrecognized.md R650.
Register operands are 5-bit indices. An immediate is held as the bits its format carries: 12 bits for I and S, the 20
bits of imm20 for U, the 13-bit B and 21-bit J byte offsets with their implicit bit 0 (R153 to R157). -/
inductive Instr where
  /-- R501 -/
  | lui (rd : RegIdx) (imm20 : BitVec 20)
  /-- R502 -/
  | auipc (rd : RegIdx) (imm20 : BitVec 20)
  /-- R503 -/
  | addi (rd rs1 : RegIdx) (imm : BitVec 12)
  /-- R504 -/
  | slti (rd rs1 : RegIdx) (imm : BitVec 12)
  /-- R505 -/
  | sltiu (rd rs1 : RegIdx) (imm : BitVec 12)
  /-- R506 -/
  | xori (rd rs1 : RegIdx) (imm : BitVec 12)
  /-- R507 -/
  | ori (rd rs1 : RegIdx) (imm : BitVec 12)
  /-- R508 -/
  | andi (rd rs1 : RegIdx) (imm : BitVec 12)
  /-- R509: funct7 is imm[11:5], any value. -/
  | slli (rd rs1 : RegIdx) (funct7 : BitVec 7) (shamt : BitVec 5)
  /-- R510 -/
  | srli (rd rs1 : RegIdx) (shamt : BitVec 5)
  /-- R511 -/
  | srai (rd rs1 : RegIdx) (shamt : BitVec 5)
  /-- R512 -/
  | add (rd rs1 rs2 : RegIdx)
  /-- R513 -/
  | sub (rd rs1 rs2 : RegIdx)
  /-- R514 -/
  | sll (rd rs1 rs2 : RegIdx)
  /-- R515 -/
  | slt (rd rs1 rs2 : RegIdx)
  /-- R516 -/
  | sltu (rd rs1 rs2 : RegIdx)
  /-- R517 -/
  | xor (rd rs1 rs2 : RegIdx)
  /-- R518 -/
  | srl (rd rs1 rs2 : RegIdx)
  /-- R519 -/
  | sra (rd rs1 rs2 : RegIdx)
  /-- R520 -/
  | or (rd rs1 rs2 : RegIdx)
  /-- R521 -/
  | and (rd rs1 rs2 : RegIdx)
  /-- R551 -/
  | jal (rd : RegIdx) (offset : BitVec 21)
  /-- R552 -/
  | jalr (rd rs1 : RegIdx) (imm : BitVec 12)
  /-- R553 -/
  | beq (rs1 rs2 : RegIdx) (offset : BitVec 13)
  /-- R554 -/
  | bne (rs1 rs2 : RegIdx) (offset : BitVec 13)
  /-- R555 -/
  | blt (rs1 rs2 : RegIdx) (offset : BitVec 13)
  /-- R556 -/
  | bge (rs1 rs2 : RegIdx) (offset : BitVec 13)
  /-- R557 -/
  | bltu (rs1 rs2 : RegIdx) (offset : BitVec 13)
  /-- R558 -/
  | bgeu (rs1 rs2 : RegIdx) (offset : BitVec 13)
  /-- R600 -/
  | lw (rd rs1 : RegIdx) (imm : BitVec 12)
  /-- R601 -/
  | sw (rs2 rs1 : RegIdx) (imm : BitVec 12)
  /-- R650: the whole word, which matches no other row. -/
  | unrecognized (word : Word)
deriving DecidableEq, Repr

end Sys2Proof
end

