-- ==== Sys2Proof/Decode.lean ====
section
/-! DEFINITION. The decoder and the encoder (30_encoding.md): the field record of every word, the immediates' bits, the opcode
table, the instruction of every word, and the word of every instruction. -/

namespace Sys2Proof

/-! ## Fields (R150, R151) -/

/-- DecodedInstruction: all six fields of any word, whatever its format (R150). -/
structure DecodedInstruction where
  raw    : Word
  opcode : BitVec 7
  rd     : RegIdx
  rs1    : RegIdx
  rs2    : RegIdx
  funct3 : BitVec 3
  funct7 : BitVec 7
deriving DecidableEq, Repr

/-- The decoder's field extraction (R150, positions of R151). It has no failure mode. -/
def decodeFields (w : Word) : DecodedInstruction where
  raw    := w
  opcode := w.extractLsb' 0 7
  rd     := w.extractLsb' 7 5
  funct3 := w.extractLsb' 12 3
  rs1    := w.extractLsb' 15 5
  rs2    := w.extractLsb' 20 5
  funct7 := w.extractLsb' 25 7

/-! ## The immediate bits of a word (R153 to R157) -/

/-- w[31:20] (R153). -/
def immBitsI (w : Word) : BitVec 12 := w.extractLsb' 20 12

/-- {w[31:25], w[11:7]} (R154). -/
def immBitsS (w : Word) : BitVec 12 := w.extractLsb' 25 7 ++ w.extractLsb' 7 5

/-- {w[31], w[7], w[30:25], w[11:8], 0} (R155). -/
def immBitsB (w : Word) : BitVec 13 :=
  w.extractLsb' 31 1 ++ w.extractLsb' 7 1 ++ w.extractLsb' 25 6 ++ w.extractLsb' 8 4 ++ 0#1

/-- w[31:12], the imm20 of the assembler (R156). -/
def immBitsU (w : Word) : BitVec 20 := w.extractLsb' 12 20

/-- {w[31], w[19:12], w[20], w[30:21], 0} (R157). -/
def immBitsJ (w : Word) : BitVec 21 :=
  w.extractLsb' 31 1 ++ w.extractLsb' 12 8 ++ w.extractLsb' 20 1 ++ w.extractLsb' 21 10 ++ 0#1

/-! ## From a word to an instruction (R170 to R177) -/

/-- OP, keyed by funct3 and funct7 (R171). -/
def decodeOp (d : DecodedInstruction) : Instr :=
  if d.funct7 = 0b0000000#7 then
    if d.funct3 = 0b000#3 then .add d.rd d.rs1 d.rs2
    else if d.funct3 = 0b001#3 then .sll d.rd d.rs1 d.rs2
    else if d.funct3 = 0b010#3 then .slt d.rd d.rs1 d.rs2
    else if d.funct3 = 0b011#3 then .sltu d.rd d.rs1 d.rs2
    else if d.funct3 = 0b100#3 then .xor d.rd d.rs1 d.rs2
    else if d.funct3 = 0b101#3 then .srl d.rd d.rs1 d.rs2
    else if d.funct3 = 0b110#3 then .or d.rd d.rs1 d.rs2
    else .and d.rd d.rs1 d.rs2
  else if d.funct7 = 0b0100000#7 then
    if d.funct3 = 0b000#3 then .sub d.rd d.rs1 d.rs2
    else if d.funct3 = 0b101#3 then .sra d.rd d.rs1 d.rs2
    else .unrecognized d.raw
  else .unrecognized d.raw

/-- OP-IMM, keyed by funct3, and by funct7 for the shift-right variants only (R172). -/
def decodeOpImm (d : DecodedInstruction) : Instr :=
  if d.funct3 = 0b000#3 then .addi d.rd d.rs1 (immBitsI d.raw)
  else if d.funct3 = 0b001#3 then .slli d.rd d.rs1 d.funct7 d.rs2
  else if d.funct3 = 0b010#3 then .slti d.rd d.rs1 (immBitsI d.raw)
  else if d.funct3 = 0b011#3 then .sltiu d.rd d.rs1 (immBitsI d.raw)
  else if d.funct3 = 0b100#3 then .xori d.rd d.rs1 (immBitsI d.raw)
  else if d.funct3 = 0b101#3 then
    if d.funct7 = 0b0000000#7 then .srli d.rd d.rs1 d.rs2
    else if d.funct7 = 0b0100000#7 then .srai d.rd d.rs1 d.rs2
    else .unrecognized d.raw
  else if d.funct3 = 0b110#3 then .ori d.rd d.rs1 (immBitsI d.raw)
  else .andi d.rd d.rs1 (immBitsI d.raw)

/-- BRANCH, keyed by funct3 (R173). -/
def decodeBranch (d : DecodedInstruction) : Instr :=
  if d.funct3 = 0b000#3 then .beq d.rs1 d.rs2 (immBitsB d.raw)
  else if d.funct3 = 0b001#3 then .bne d.rs1 d.rs2 (immBitsB d.raw)
  else if d.funct3 = 0b100#3 then .blt d.rs1 d.rs2 (immBitsB d.raw)
  else if d.funct3 = 0b101#3 then .bge d.rs1 d.rs2 (immBitsB d.raw)
  else if d.funct3 = 0b110#3 then .bltu d.rs1 d.rs2 (immBitsB d.raw)
  else if d.funct3 = 0b111#3 then .bgeu d.rs1 d.rs2 (immBitsB d.raw)
  else .unrecognized d.raw

/-- The instruction of a word (R170 to R177): total, and a word that matches no row is `unrecognized`. LOAD, STORE
and JALR consult funct3 (R174, decision D8). -/
def decode (w : Word) : Instr :=
  let d := decodeFields w
  if d.opcode = 0b0110111#7 then .lui d.rd (immBitsU w)
  else if d.opcode = 0b0010111#7 then .auipc d.rd (immBitsU w)
  else if d.opcode = 0b1101111#7 then .jal d.rd (immBitsJ w)
  else if d.opcode = 0b1100111#7 then
    if d.funct3 = 0b000#3 then .jalr d.rd d.rs1 (immBitsI w) else .unrecognized w
  else if d.opcode = 0b1100011#7 then decodeBranch d
  else if d.opcode = 0b0000011#7 then
    if d.funct3 = 0b010#3 then .lw d.rd d.rs1 (immBitsI w) else .unrecognized w
  else if d.opcode = 0b0100011#7 then
    if d.funct3 = 0b010#3 then .sw d.rs2 d.rs1 (immBitsS w) else .unrecognized w
  else if d.opcode = 0b0010011#7 then decodeOpImm d
  else if d.opcode = 0b0110011#7 then decodeOp d
  else .unrecognized w

/-! ## From bytes -/

/-- The word whose byte image is b0 b1 b2 b3, b0 at the lowest address (20_memory.md R105: little-endian, entry 4). -/
def wordOfBytes (b0 b1 b2 b3 : Byte) : Word := b3 ++ b2 ++ b1 ++ b0

/-- The bytes of a word, in order of rising address (R105). -/
def bytesOfWord (w : Word) : List Byte :=
  [w.extractLsb' 0 8, w.extractLsb' 8 8, w.extractLsb' 16 8, w.extractLsb' 24 8]

/-- Why a byte list holds no instruction. Words never fail to decode (R150, R177); only a list of fewer than four
bytes holds no word (R149). -/
inductive DecodeReject where
  /-- Fewer than four bytes are left: there is no whole instruction word. -/
  | fewerThanFourBytes
deriving DecidableEq, Repr

/-- The instruction at the head of a byte list, with the rest of the list (R149: always four bytes). -/
def decodeBytes : List Byte → Except DecodeReject (Instr × List Byte)
  | b0 :: b1 :: b2 :: b3 :: rest => .ok (decode (wordOfBytes b0 b1 b2 b3), rest)
  | _ => .error .fewerThanFourBytes

/-- The instruction the decoder reads from a table word of `nbits` bits: the word laid out as the hardware stores
it, given to `decodeBytes`. -/
def decodeTableWord (nbits w : Nat) : Option Instr :=
  match decodeBytes (bytesOfWord (BitVec.ofNat 32 (w % 2 ^ nbits))) with
  | .ok (i, _) => some i
  | .error _ => none

/-! ## The encoder, from the formats of R152 -/

/-- R-format. -/
def encodeR (funct7 : BitVec 7) (rs2 rs1 : RegIdx) (funct3 : BitVec 3) (rd : RegIdx) (opcode : BitVec 7) : Word :=
  funct7 ++ rs2 ++ rs1 ++ funct3 ++ rd ++ opcode

/-- I-format. -/
def encodeI (imm : BitVec 12) (rs1 : RegIdx) (funct3 : BitVec 3) (rd : RegIdx) (opcode : BitVec 7) : Word :=
  imm ++ rs1 ++ funct3 ++ rd ++ opcode

/-- S-format. -/
def encodeS (imm : BitVec 12) (rs2 rs1 : RegIdx) (funct3 : BitVec 3) (opcode : BitVec 7) : Word :=
  imm.extractLsb' 5 7 ++ rs2 ++ rs1 ++ funct3 ++ imm.extractLsb' 0 5 ++ opcode

/-- B-format. -/
def encodeB (off : BitVec 13) (rs2 rs1 : RegIdx) (funct3 : BitVec 3) (opcode : BitVec 7) : Word :=
  off.extractLsb' 12 1 ++ off.extractLsb' 5 6 ++ rs2 ++ rs1 ++ funct3 ++ off.extractLsb' 1 4 ++
    off.extractLsb' 11 1 ++ opcode

/-- U-format. -/
def encodeU (imm20 : BitVec 20) (rd : RegIdx) (opcode : BitVec 7) : Word :=
  imm20 ++ rd ++ opcode

/-- J-format. -/
def encodeJ (off : BitVec 21) (rd : RegIdx) (opcode : BitVec 7) : Word :=
  off.extractLsb' 20 1 ++ off.extractLsb' 1 10 ++ off.extractLsb' 11 1 ++ off.extractLsb' 12 8 ++ rd ++ opcode

/-- The word of an instruction (R152, R170 to R175). Bit 0 of a B or J offset has no place in the word. -/
def encode : Instr → Word
  | .lui rd imm20 => encodeU imm20 rd 0b0110111#7
  | .auipc rd imm20 => encodeU imm20 rd 0b0010111#7
  | .addi rd rs1 imm => encodeI imm rs1 0b000#3 rd 0b0010011#7
  | .slti rd rs1 imm => encodeI imm rs1 0b010#3 rd 0b0010011#7
  | .sltiu rd rs1 imm => encodeI imm rs1 0b011#3 rd 0b0010011#7
  | .xori rd rs1 imm => encodeI imm rs1 0b100#3 rd 0b0010011#7
  | .ori rd rs1 imm => encodeI imm rs1 0b110#3 rd 0b0010011#7
  | .andi rd rs1 imm => encodeI imm rs1 0b111#3 rd 0b0010011#7
  | .slli rd rs1 funct7 shamt => encodeR funct7 shamt rs1 0b001#3 rd 0b0010011#7
  | .srli rd rs1 shamt => encodeR 0b0000000#7 shamt rs1 0b101#3 rd 0b0010011#7
  | .srai rd rs1 shamt => encodeR 0b0100000#7 shamt rs1 0b101#3 rd 0b0010011#7
  | .add rd rs1 rs2 => encodeR 0b0000000#7 rs2 rs1 0b000#3 rd 0b0110011#7
  | .sub rd rs1 rs2 => encodeR 0b0100000#7 rs2 rs1 0b000#3 rd 0b0110011#7
  | .sll rd rs1 rs2 => encodeR 0b0000000#7 rs2 rs1 0b001#3 rd 0b0110011#7
  | .slt rd rs1 rs2 => encodeR 0b0000000#7 rs2 rs1 0b010#3 rd 0b0110011#7
  | .sltu rd rs1 rs2 => encodeR 0b0000000#7 rs2 rs1 0b011#3 rd 0b0110011#7
  | .xor rd rs1 rs2 => encodeR 0b0000000#7 rs2 rs1 0b100#3 rd 0b0110011#7
  | .srl rd rs1 rs2 => encodeR 0b0000000#7 rs2 rs1 0b101#3 rd 0b0110011#7
  | .sra rd rs1 rs2 => encodeR 0b0100000#7 rs2 rs1 0b101#3 rd 0b0110011#7
  | .or rd rs1 rs2 => encodeR 0b0000000#7 rs2 rs1 0b110#3 rd 0b0110011#7
  | .and rd rs1 rs2 => encodeR 0b0000000#7 rs2 rs1 0b111#3 rd 0b0110011#7
  | .jal rd offset => encodeJ offset rd 0b1101111#7
  | .jalr rd rs1 imm => encodeI imm rs1 0b000#3 rd 0b1100111#7
  | .beq rs1 rs2 offset => encodeB offset rs2 rs1 0b000#3 0b1100011#7
  | .bne rs1 rs2 offset => encodeB offset rs2 rs1 0b001#3 0b1100011#7
  | .blt rs1 rs2 offset => encodeB offset rs2 rs1 0b100#3 0b1100011#7
  | .bge rs1 rs2 offset => encodeB offset rs2 rs1 0b101#3 0b1100011#7
  | .bltu rs1 rs2 offset => encodeB offset rs2 rs1 0b110#3 0b1100011#7
  | .bgeu rs1 rs2 offset => encodeB offset rs2 rs1 0b111#3 0b1100011#7
  | .lw rd rs1 imm => encodeI imm rs1 0b010#3 rd 0b0000011#7
  | .sw rs2 rs1 imm => encodeS imm rs2 rs1 0b010#3 0b0100011#7
  | .unrecognized word => word

/-! ## The opcode table (R176) -/

/-- The names of the rows of spec/opcode_table.json. -/
inductive Mnemonic where
  | LUI | AUIPC | ADDI | SLTI | SLTIU | XORI | ORI | ANDI | SLLI | SRLI | SRAI
  | ADD | SUB | SLL | SLT | SLTU | XOR | SRL | SRA | OR | AND
  | JAL | JALR | BEQ | BNE | BLT | BGE | BLTU | BGEU | LW | SW | UNRECOGNIZED
deriving DecidableEq, Repr

/-- The row of an instruction. -/
def Instr.mnemonic : Instr → Mnemonic
  | .lui _ _ => .LUI
  | .auipc _ _ => .AUIPC
  | .addi _ _ _ => .ADDI
  | .slti _ _ _ => .SLTI
  | .sltiu _ _ _ => .SLTIU
  | .xori _ _ _ => .XORI
  | .ori _ _ _ => .ORI
  | .andi _ _ _ => .ANDI
  | .slli _ _ _ _ => .SLLI
  | .srli _ _ _ => .SRLI
  | .srai _ _ _ => .SRAI
  | .add _ _ _ => .ADD
  | .sub _ _ _ => .SUB
  | .sll _ _ _ => .SLL
  | .slt _ _ _ => .SLT
  | .sltu _ _ _ => .SLTU
  | .xor _ _ _ => .XOR
  | .srl _ _ _ => .SRL
  | .sra _ _ _ => .SRA
  | .or _ _ _ => .OR
  | .and _ _ _ => .AND
  | .jal _ _ => .JAL
  | .jalr _ _ _ => .JALR
  | .beq _ _ _ => .BEQ
  | .bne _ _ _ => .BNE
  | .blt _ _ _ => .BLT
  | .bge _ _ _ => .BGE
  | .bltu _ _ _ => .BLTU
  | .bgeu _ _ _ => .BGEU
  | .lw _ _ _ => .LW
  | .sw _ _ _ => .SW
  | .unrecognized _ => .UNRECOGNIZED

/-- A row of the opcode table: a word is an instance of it when `(w & mask) == pattern` (R176). -/
structure OpcodeRow where
  mnemonic : Mnemonic
  mask     : Word
  pattern  : Word
deriving DecidableEq, Repr

/-- The rows keyed by opcode alone, and the control transfers and memory instructions (R170, R173 to R175). -/
def opcodeRowsTransferMemory : List OpcodeRow := [
  ⟨.LUI, 0x0000007F#32, 0x00000037#32⟩, ⟨.AUIPC, 0x0000007F#32, 0x00000017#32⟩,
  ⟨.JAL, 0x0000007F#32, 0x0000006F#32⟩, ⟨.JALR, 0x0000707F#32, 0x00000067#32⟩,
  ⟨.BEQ, 0x0000707F#32, 0x00000063#32⟩, ⟨.BNE, 0x0000707F#32, 0x00001063#32⟩,
  ⟨.BLT, 0x0000707F#32, 0x00004063#32⟩, ⟨.BGE, 0x0000707F#32, 0x00005063#32⟩,
  ⟨.BLTU, 0x0000707F#32, 0x00006063#32⟩, ⟨.BGEU, 0x0000707F#32, 0x00007063#32⟩,
  ⟨.LW, 0x0000707F#32, 0x00002003#32⟩, ⟨.SW, 0x0000707F#32, 0x00002023#32⟩]

/-- The rows of OP-IMM (R172). -/
def opcodeRowsOpImm : List OpcodeRow := [
  ⟨.ADDI, 0x0000707F#32, 0x00000013#32⟩, ⟨.SLTI, 0x0000707F#32, 0x00002013#32⟩,
  ⟨.SLTIU, 0x0000707F#32, 0x00003013#32⟩, ⟨.XORI, 0x0000707F#32, 0x00004013#32⟩,
  ⟨.ORI, 0x0000707F#32, 0x00006013#32⟩, ⟨.ANDI, 0x0000707F#32, 0x00007013#32⟩,
  ⟨.SLLI, 0x0000707F#32, 0x00001013#32⟩, ⟨.SRLI, 0xFE00707F#32, 0x00005013#32⟩,
  ⟨.SRAI, 0xFE00707F#32, 0x40005013#32⟩]

/-- The rows of OP (R171). -/
def opcodeRowsOp : List OpcodeRow := [
  ⟨.ADD, 0xFE00707F#32, 0x00000033#32⟩, ⟨.SUB, 0xFE00707F#32, 0x40000033#32⟩,
  ⟨.SLL, 0xFE00707F#32, 0x00001033#32⟩, ⟨.SLT, 0xFE00707F#32, 0x00002033#32⟩,
  ⟨.SLTU, 0xFE00707F#32, 0x00003033#32⟩, ⟨.XOR, 0xFE00707F#32, 0x00004033#32⟩,
  ⟨.SRL, 0xFE00707F#32, 0x00005033#32⟩, ⟨.SRA, 0xFE00707F#32, 0x40005033#32⟩,
  ⟨.OR, 0xFE00707F#32, 0x00006033#32⟩, ⟨.AND, 0xFE00707F#32, 0x00007033#32⟩]

/-- The 31 rows of recognized instructions, transcribed from spec/opcode_table.json; the UNRECOGNIZED row is every
word that none of them matches. The decoder above does not use this list. -/
def opcodeTable : List OpcodeRow := opcodeRowsTransferMemory ++ opcodeRowsOpImm ++ opcodeRowsOp

/-- `(w & mask) == pattern` (R176). -/
def OpcodeRow.covers (r : OpcodeRow) (w : Word) : Bool := w &&& r.mask == r.pattern

/-- Whether some row of the table covers the word (R176, R651). -/
def recognized (w : Word) : Bool := opcodeTable.any fun r => r.covers w

end Sys2Proof
end

