-- ==== Sys2Proof/Machine/Signals.lean ====
section
/-! DEFINITION. The closed enumerations and records of the control unit and of the ALU's flag outputs (40_control_unit.md R200,
41_alu.md R260). None of them is state: each is made and discarded within a step (10_state.md R65, R75). -/

namespace Sys2Proof.Machine

/-- The ALU operation selector (40_control_unit.md R200). -/
inductive AluOp where
  | add | sub | and | or | xor | slt | sltu | sll | srl | sra | copyB
deriving DecidableEq, Repr

/-- Operand A: `x[rs1]` or the program counter (R200). -/
inductive ASrc where
  | reg | pc
deriving DecidableEq, Repr

/-- Operand B: `x[rs2]`, the format immediate, or the upper immediate (R200). -/
inductive BSrc where
  | reg | imm | upperImm
deriving DecidableEq, Repr

/-- Writeback: the ALU result, the loaded word, or pc + 4 (R200). -/
inductive WbSrc where
  | alu | mem | link
deriving DecidableEq, Repr

/-- The branch condition (R200). -/
inductive BrCond where
  | none | eq | ne | lt | ge | ltu | geu
deriving DecidableEq, Repr

/-- ControlSignals (R200). -/
structure ControlSignals where
  aluOp    : AluOp
  aSrc     : ASrc
  bSrc     : BSrc
  regWrite : Bool
  memRead  : Bool
  memWrite : Bool
  wbSrc    : WbSrc
  branch   : BrCond
  jump     : Bool
  jalr     : Bool
deriving DecidableEq, Repr

/-- The N, Z, C and V outputs of the ALU (41_alu.md R260, R263 to R265). -/
structure Flags where
  n : Bool
  z : Bool
  c : Bool
  v : Bool
deriving DecidableEq, Repr, Inhabited

/-- What the ALU port answers (41_alu.md R260). -/
structure AluOut where
  result     : Word
  flags      : Flags
  flagsValid : Bool
deriving DecidableEq, Repr

end Sys2Proof.Machine
end

