-- ==== Sys2Proof/Config.lean ====
section
/-! DEFINITION. What an implementation fixes and the spec leaves open (00_scope.md R8, 93_implementation_defined.md part 1): the
parameter record, the open capacities, and the free values. A constant without a body has no value that Lean can compute or
a proof can use. -/

namespace Sys2Proof

/-- The parameters of the hardware that a model takes as an argument (00_scope.md R8, decisions D4, D5 and D25).
A State carries one such record, because a step takes a State and nothing else; no step changes it. -/
structure Config where
  /-- IMEM_WORDS: capacity of the instruction memory in words. -/
  imemWords : Nat
  /-- DMEM_WORDS: capacity of the data memory in words. -/
  dmemWords : Nat
  /-- UNIFIED_MEMORY: true when one memory of DMEM_WORDS words serves both roles (20_memory.md R103). -/
  unified   : Bool
  /-- CODEC_IN_WIDTH: width in bits of the integer that the codec's `encode` is given (44_codec.md R400). Entry 16. -/
  codecInWidth : Nat
deriving DecidableEq, Repr

/-- The ranges R8 gives: 1 .. 2^30 words for each capacity, at least 33 bits for the codec's input. -/
abbrev Config.legal (c : Config) : Prop :=
  1 ≤ c.imemWords ∧ c.imemWords ≤ 2 ^ 30 ∧ 1 ≤ c.dmemWords ∧ c.dmemWords ≤ 2 ^ 30 ∧ 33 ≤ c.codecInWidth

/-- The integers a codec of this input width can be given, read as two's complement (44_codec.md R400: "every input in that
width"; that the width is a signed one is deduced, entry 16). -/
abbrev Config.codecTakes (c : Config) (v : Int) : Prop :=
  -2 ^ (c.codecInWidth - 1) ≤ v ∧ v < 2 ^ (c.codecInWidth - 1)

/-- Open (D4, K5): the spec gives the instruction memory no capacity. Entry 1. -/
opaque Config.openImemWords : Nat

/-- Open (D4, K5): the spec gives the data memory no capacity. Entry 1. -/
opaque Config.openDmemWords : Nat

/-- Open (D25, K8): the spec gives the codec's input no width. Entry 16. -/
opaque Config.openCodecInWidth : Nat

/-- The machine of `State.reset`: any capacities of 1 .. 2^30 words (entry 1), two separate memories (D5, entry 2), any
width of at least 33 bits for the codec's input (entry 16). -/
def Config.machine : Config where
  imemWords := Config.openImemWords % 2 ^ 30 + 1
  dmemWords := Config.openDmemWords % 2 ^ 30 + 1
  unified   := false
  codecInWidth := Config.openCodecInWidth + 33

/-- RESET_PC (00_scope.md R8, decision D12). -/
def Config.resetPc : Word := 0x00000000#32

/-- FADD_EXP_OVERFLOW(a, b) (43_fpu.md R360, D24, K4): a word with no assumed property. Entry 7. -/
opaque Config.faddExpOverflow : Word → Word → Word

/-- N, Z, C and V of the operations other than ADD and SUB (41_alu.md R271, D16, K3): any value. Entry 8. -/
opaque Config.unspecifiedFlags : Machine.AluOp → Word → Word → Machine.Flags

end Sys2Proof
end

