-- ==== Sys2Proof/Machine/State.lean ====
section
/-! DEFINITION. The state of one CORE instance (10_state.md), the faults and refusals, and the reset state. -/

namespace Sys2Proof.Machine

/-- The access that failed (60_exceptions.md R703). -/
inductive Access where
  | fetch | load | store | programLoad | register
deriving DecidableEq, Repr

/-- The faults, exactly two kinds (60_exceptions.md R700). Each names the access that failed and the 32-bit address, or
register index, presented to it (R703). A fault aborts the step and commits nothing (R704). -/
inductive Fault where
  /-- "a memory access address is not a multiple of 4". Raised by the fetch, LW, SW and the program-load port.
  Safe: the spec gives this fault (20_memory.md R111). -/
  | alignmentFault (access : Access) (address : Word)
  /-- "a memory or register index lies outside the valid range". Raised by the fetch, LW, SW, the program-load port and the
  register port. Safe: the spec gives this fault (20_memory.md R112, 10_state.md R54). -/
  | outOfRangeFault (access : Access) (address : Word)
deriving DecidableEq, Repr

/-- What the model gives no meaning to. -/
inductive Refusal where
  /-- An instruction without a meaning, by its name in the opcode table. Raised by no arm of `exec`: every row has its
  meaning. Safe. -/
  | notModelled (mnemonic : String)
  /-- `sign_extend` or `zero_extend` of an n-bit vector to m < n bits. Raised by the codec port only, never by a
  step (44_codec.md R406: "a model refuses it rather than truncating"). Safe. -/
  | codecNarrowing (n m : Nat)
deriving DecidableEq, Repr

/-- A memory as its byte image: addresses with the bytes they hold, an unlisted address holding 0. The operations and the
canonical form are in Machine/Memory.lean. Words are the only unit the machine reads or writes (20_memory.md R101). -/
abbrev Memory := List Host.Cell

/-- CoreState (10_state.md), and the parameters of the machine. -/
structure State where
  /-- The program counter (R60). -/
  pc    : Word
  /-- The general registers x0 to x31 (R50). Slot 0 is never read and never written (R51, entry 12). -/
  regs  : Vector Word 32
  /-- The step counter (R71), unbounded (D14, entry 3). -/
  steps : Nat
  /-- The instruction memory (R73); reached by nothing when `cfg.unified`. -/
  imem  : Memory
  /-- The data memory (R73); the one memory when `cfg.unified` (20_memory.md R103). -/
  dmem  : Memory
  /-- The parameters (00_scope.md R8); no step changes them. The model's own field: entry 1. -/
  cfg   : Config
deriving DecidableEq, Repr

/-- The reset state of a machine with the given parameters (10_state.md R90, 70_reset_and_hazards.md R750). -/
def State.resetWith (cfg : Config) : State where
  pc    := Config.resetPc
  regs  := Vector.replicate 32 0#32
  steps := 0
  imem  := []
  dmem  := []
  cfg   := cfg

/-- The machine right after reset (R90): any capacities, two memories. -/
def State.reset : State := State.resetWith Config.machine

end Sys2Proof.Machine
end

