-- ==== Sys2Proof/Machine/Memory.lean ====
section
/-! DEFINITION. The list form of a memory: reading and writing its bytes and words, and the canonical form. What a memory
access checks is in Machine/Ops.lean. -/

namespace Sys2Proof.Machine

/-- What an address that the list does not name holds: the reset contents (10_state.md R90). Entry 5. -/
def unlistedByte : Byte := 0#8

/-- The byte at an address. -/
def Memory.readByte : Memory → Nat → Byte
  | [], _ => unlistedByte
  | (k, b) :: rest, a => if k = a then b else Memory.readByte rest a

/-- Put a byte in front of a list, unless it is what an unlisted address holds anyway. -/
def Memory.consByte (a : Nat) (b : Byte) (rest : Memory) : Memory :=
  if b = unlistedByte then rest else (a, b) :: rest

/-- Replace the byte at an address, keeping the canonical form. -/
def Memory.writeByte : Memory → Nat → Byte → Memory
  | [], a, b => Memory.consByte a b []
  | (k, c) :: rest, a, b =>
    if a < k then Memory.consByte a b ((k, c) :: rest)
    else if a = k then Memory.consByte a b rest
    else (k, c) :: Memory.writeByte rest a b

/-- No entry equal to what an unlisted address holds, and every address above `low`, strictly rising. -/
def Memory.risingFrom : Nat → Memory → Bool
  | _, [] => true
  | low, (k, b) :: rest => decide (low ≤ k) && (b != unlistedByte) && Memory.risingFrom (k + 1) rest

/-- The canonical form: addresses strictly rising, no entry equal to what an unlisted address holds. -/
def Memory.wf (m : Memory) : Bool := Memory.risingFrom 0 m

/-- Every listed address lies below 4 * words, the end of a memory of that many words (20_memory.md R101). -/
def Memory.within (m : Memory) (words : Nat) : Bool := m.all fun cell => decide (cell.1 < 4 * words)

/-- The word at byte address a (little-endian byte image, R105, entry 4). -/
def Memory.readWord (m : Memory) (a : Nat) : Word :=
  wordOfBytes (Memory.readByte m a) (Memory.readByte m (a + 1)) (Memory.readByte m (a + 2)) (Memory.readByte m (a + 3))

/-- Write bytes at rising addresses from a. -/
def Memory.writeBytes (m : Memory) (a : Nat) : List Byte → Memory
  | [] => m
  | b :: bs => Memory.writeBytes (Memory.writeByte m a b) (a + 1) bs

/-- Replace the word at byte address a. -/
def Memory.writeWord (m : Memory) (a : Nat) (v : Word) : Memory := Memory.writeBytes m a (bytesOfWord v)

/-- Write words to consecutive cells from byte address a. -/
def Memory.writeWords (m : Memory) (a : Nat) : List Word → Memory
  | [] => m
  | w :: ws => Memory.writeWords (Memory.writeWord m a w) (a + 4) ws

end Sys2Proof.Machine
end

