-- ==== Sys2Proof/Machine/Bits.lean ====
section
/-! DEFINITION. The bit-vector primitives (41_alu.md section 1), with the adder bit by bit as R250 asks. -/

namespace Sys2Proof.Machine

/-- (sum, carry) of two bits (R251). -/
def halfAdder (a b : Bool) : Bool × Bool := (a ^^ b, a && b)

/-- (sum, carry-out) of two bits and a carry-in (R252). -/
def fullAdder (a b cin : Bool) : Bool × Bool := (a ^^ b ^^ cin, (a && b) || (cin && (a ^^ b)))

/-- The chain of full adders over bits 0 .. k-1 with carry-in 0 at bit 0 (R253): the value of the sum bits made so
far, and the carry into bit k. -/
def rippleTo {n : Nat} (a b : BitVec n) : Nat → Nat × Bool
  | 0 => (0, false)
  | k + 1 =>
    match rippleTo a b k with
    | (sum, carry) =>
      match fullAdder (a.getLsbD k) (b.getLsbD k) carry with
      | (bit, cout) => (sum + bit.toNat * 2 ^ k, cout)

/-- `ripple_add_n(a, b)`: (sum, carry_out) (R253). -/
def rippleAdd {n : Nat} (a b : BitVec n) : BitVec n × Bool :=
  match rippleTo a b n with
  | (sum, carry) => (BitVec.ofNat n sum, carry)

/-- `invert_n(x)` (R254). -/
def invert {n : Nat} (x : BitVec n) : BitVec n := ~~~x

/-- `negate_n(x)`: "invert + add one", the carry-out discarded (R255). -/
def negate {n : Nat} (x : BitVec n) : BitVec n := (rippleAdd (invert x) (BitVec.ofNat n 1)).1

/-- `sll_n(x, k)`: bits discarded at the top, zeros filled in at the bottom (R256). -/
def shiftLeftLogical {n : Nat} (x : BitVec n) (k : Nat) : BitVec n := x <<< k

/-- `srl_n(x, k)`: bits discarded at the bottom, zeros filled in at the top (R256). -/
def shiftRightLogical {n : Nat} (x : BitVec n) (k : Nat) : BitVec n := x >>> k

/-- `sra_n(x, k)`: bits discarded at the bottom, the sign bit filled in at the top (R256). -/
def shiftRightArithmetic {n : Nat} (x : BitVec n) (k : Nat) : BitVec n := x.sshiftRight k

end Sys2Proof.Machine
end

