-- ==== Sys2Proof/Machine/Flags.lean ====
section
/-! DEFINITION. The flag outputs of the additive ALU operations (41_alu.md R263 to R265). They are outputs of the ALU port, no
state: no instruction stores or reads them (10_state.md R65). -/

namespace Sys2Proof.Machine

/-- "N from the result's most-significant bit" (R263). -/
def flagN (result : Word) : Bool := result.getLsbD 31

/-- "Z from an all-zero result" (R263). -/
def flagZ (result : Word) : Bool := result == 0#32

/-- "C from the adder's final carry-out" (R264). -/
def flagC (carry : Bool) : Bool := carry

/-- "operands share a sign and the result's sign differs from theirs", on the two adder operands p and q (R265). -/
def flagV (p q result : Word) : Bool :=
  p.getLsbD 31 == q.getLsbD 31 && result.getLsbD 31 != p.getLsbD 31

/-- The flags of an addition of the adder operands p and q (R261, R262). -/
def additiveFlags (p q result : Word) (carry : Bool) : Flags where
  n := flagN result
  z := flagZ result
  c := flagC carry
  v := flagV p q result

end Sys2Proof.Machine
end

