-- ==== Sys2Proof/Machine/Alu.lean ====
section
/-! DEFINITION. The integer ALU (41_alu.md section 2). -/

namespace Sys2Proof.Machine

/-- ADD and SUB: the ripple-carry sum of the adder operands p and q, with its flags (R261, R262). -/
def aluAdditive (p q : Word) : AluOut :=
  match rippleAdd p q with
  | (result, carry) => ⟨result, additiveFlags p q result carry, true⟩

/-- Every other operation: a result, and flags that carry no defined value (R271: `flags_valid` = 0). -/
def aluPlain (op : AluOp) (a b result : Word) : AluOut := ⟨result, Config.unspecifiedFlags op a b, false⟩

/-- The shift amount, "always masked to 5 bits" (R268). -/
def shiftAmount (b : Word) : Nat := b.toNat % 32

/-- 1 for true and 0 for false, as a word (R267, decision D17). -/
def wordOfBool (p : Bool) : Word := if p then 1#32 else 0#32

/-- Signed less-than (R267, 45_sequencer.md R466). -/
def lessSigned (a b : Word) : Bool := decide (a.toInt < b.toInt)

/-- Unsigned less-than (R267, 45_sequencer.md R466). -/
def lessUnsigned (a b : Word) : Bool := decide (a.toNat < b.toNat)

/-- `alu(op, a, b)` (R260 to R272). -/
def alu (op : AluOp) (a b : Word) : AluOut :=
  match op with
  | .add => aluAdditive a b
  | .sub => aluAdditive a (negate b)
  | .and => aluPlain .and a b (a &&& b)
  | .or => aluPlain .or a b (a ||| b)
  | .xor => aluPlain .xor a b (a ^^^ b)
  | .slt => aluPlain .slt a b (wordOfBool (lessSigned a b))
  | .sltu => aluPlain .sltu a b (wordOfBool (lessUnsigned a b))
  | .sll => aluPlain .sll a b (shiftLeftLogical a (shiftAmount b))
  | .srl => aluPlain .srl a b (shiftRightLogical a (shiftAmount b))
  | .sra => aluPlain .sra a b (shiftRightArithmetic a (shiftAmount b))
  | .copyB => aluPlain .copyB a b b

end Sys2Proof.Machine
end

