-- ==== Sys2Proof/Machine/Operands.lean ====
section
/-! DEFINITION. The operand forms: sign extension, the five immediates, effective addresses, branch conditions and targets
(00_scope.md R12, 30_encoding.md section 4, 45_sequencer.md R463 and R466, 48_load_store.md R602). -/

namespace Sys2Proof.Machine

/-- The generic sign extension: "mask to width, XOR the sign bit, subtract the sign bit's numeric value", taken to 32
bits by w32 (00_scope.md R12, 30_encoding.md R158). -/
def signExtendWord (width v : Nat) : Word :=
  w32 (((v % 2 ^ width) ^^^ 2 ^ (width - 1) : Nat) - (2 ^ (width - 1) : Nat))

/-- The I-format immediate as a word (R153). -/
def immI (imm : BitVec 12) : Word := signExtendWord 12 imm.toNat

/-- The S-format immediate as a word (R154). -/
def immS (imm : BitVec 12) : Word := signExtendWord 12 imm.toNat

/-- The B-format immediate as a word (R155). -/
def immB (offset : BitVec 13) : Word := signExtendWord 13 offset.toNat

/-- The U-format immediate as a word, "left in place" (R156). -/
def immU (imm20 : BitVec 20) : Word := imm20 ++ 0#12

/-- The J-format immediate as a word (R157). -/
def immJ (offset : BitVec 21) : Word := signExtendWord 21 offset.toNat

/-- "the immediate per the decoded opcode's format", 0 for OP and for every other opcode (R159, decision D11). -/
def immediate (w : Word) : Word :=
  let opcode := (decodeFields w).opcode
  if opcode = 0b0010011#7 ∨ opcode = 0b0000011#7 ∨ opcode = 0b1100111#7 then immI (immBitsI w)
  else if opcode = 0b0100011#7 then immS (immBitsS w)
  else if opcode = 0b1100011#7 then immB (immBitsB w)
  else if opcode = 0b0110111#7 ∨ opcode = 0b0010111#7 then immU (immBitsU w)
  else if opcode = 0b1101111#7 then immJ (immBitsJ w)
  else 0#32

/-- "address = rs1+imm", modulo 2^32: the one addressing mode of LW and SW (48_load_store.md R602). -/
def effectiveAddress (base offset : Word) : Word := base + offset

/-- pc + 4: the next sequential instruction, and the link address (45_sequencer.md R461, R463). -/
def sequentialPc (pc : Word) : Word := pc + 4#32

/-- pc + immediate: the target of a taken branch and of JAL (45_sequencer.md R463). -/
def relativeTarget (pc offset : Word) : Word := pc + offset

/-- (base + immediate) "with its least-significant bit cleared": the target of JALR (45_sequencer.md R463). -/
def indirectTarget (base offset : Word) : Word := (base + offset) &&& 0xFFFFFFFE#32

/-- `cond` (45_sequencer.md R466); NONE never holds. -/
def branchHolds (c : BrCond) (v1 v2 : Word) : Bool :=
  match c with
  | .none => false
  | .eq => v1 == v2
  | .ne => v1 != v2
  | .lt => lessSigned v1 v2
  | .ge => !lessSigned v1 v2
  | .ltu => lessUnsigned v1 v2
  | .geu => !lessUnsigned v1 v2

end Sys2Proof.Machine
end

