-- ==== Sys2Proof/Machine/Ops.lean ====
section
/-! DEFINITION. The named operations that the meanings share: the memory interface (20_memory.md R110 to R120), the register
file (10_state.md R52 to R54), raising a fault, and committing a step (45_sequencer.md R462 to R465). -/

namespace Sys2Proof.Machine

/-- What a step answers. -/
abbrev StepOutcome := Host.Outcome State Fault Refusal

/-! ## Faults -/

/-- Taking an exception, as the spec describes it: the fault aborts the step, commits nothing and goes to the
caller with its report (00_scope.md R15, 60_exceptions.md R703, R704). No register is saved, no mode changes and no vector is
taken; there is no return from it (60_exceptions.md R706). The state the caller keeps is the one from before the step. -/
def raise (f : Fault) : StepOutcome := .fault f

/-- The fault codes (60_exceptions.md R701). -/
def Fault.code : Fault → Nat
  | .alignmentFault _ _ => 0
  | .outOfRangeFault _ _ => 1

/-! ## The memory interface -/

/-- The check that `load_word` and `store_word` share: alignment first, then bounds (R111 to R113, decision D18). -/
def checkAccess (words : Nat) (access : Access) (a : Word) : Except Fault Unit :=
  if a.toNat % 4 ≠ 0 then .error (.alignmentFault access a)
  else if a.toNat / 4 ≥ words then .error (.outOfRangeFault access a)
  else .ok ()

/-- `load_word` on a memory of the given capacity (R110, R113). -/
def loadWord (words : Nat) (m : Memory) (access : Access) (a : Word) : Except Fault Word :=
  match checkAccess words access a with
  | .error f => .error f
  | .ok _ => .ok (Memory.readWord m a.toNat)

/-- `store_word` on a memory of the given capacity (R110, R113). -/
def storeWord (words : Nat) (m : Memory) (access : Access) (a v : Word) : Except Fault Memory :=
  match checkAccess words access a with
  | .error f => .error f
  | .ok _ => .ok (Memory.writeWord m a.toNat v)

/-- `load_program` on a memory of the given capacity: the check comes before any write (R120, decision D20). -/
def loadProgram (words : Nat) (m : Memory) (program : List Word) (base : Word) : Except Fault Memory :=
  if base.toNat % 4 ≠ 0 then .error (.alignmentFault .programLoad base)
  else if base.toNat / 4 + program.length > words then .error (.outOfRangeFault .programLoad base)
  else .ok (Memory.writeWords m base.toNat program)

/-! ## The memories by role (R102, R103) -/

/-- The capacity that bounds the fetch: IMEM_WORDS, or DMEM_WORDS when the memory is unified (60_exceptions.md R701). -/
def State.instrWords (s : State) : Nat := if s.cfg.unified then s.cfg.dmemWords else s.cfg.imemWords

/-- The memory in the instruction role. -/
def State.instrMemory (s : State) : Memory := if s.cfg.unified then s.dmem else s.imem

/-- The state with another memory in the instruction role. -/
def State.withInstrMemory (s : State) (m : Memory) : State :=
  if s.cfg.unified then { s with dmem := m } else { s with imem := m }

/-- `IMemRead(addr)` (00_scope.md R14), the only use of the instruction memory (10_state.md R81). -/
def State.imemRead (s : State) (a : Word) : Except Fault Word := loadWord s.instrWords s.instrMemory .fetch a

/-- `MemRead(addr, 4)` (00_scope.md R14). -/
def State.dmemRead (s : State) (a : Word) : Except Fault Word := loadWord s.cfg.dmemWords s.dmem .load a

/-- `MemWrite(addr, 4, v)` (00_scope.md R14): the state with the store made, to be committed with the step. -/
def State.dmemWrite (s : State) (a v : Word) : Except Fault State :=
  match storeWord s.cfg.dmemWords s.dmem .store a v with
  | .error f => .error f
  | .ok m => .ok { s with dmem := m }

/-- The fetch of a step: `load_word` at the program counter (45_sequencer.md R452). -/
def State.fetch (s : State) : Except Fault Word := s.imemRead s.pc

/-! ## The register file -/

/-- `read(index)`: x0 is permanently 0 (10_state.md R51, R52). -/
def State.readReg (s : State) (i : RegIdx) : Word :=
  if i = 0#5 then 0#32 else s.regs[i.toNat]'i.isLt

/-- `write(index, word)`: silently ignored for index 0 (10_state.md R51, R53). -/
def State.writeReg (s : State) (i : RegIdx) (v : Word) : State :=
  if i = 0#5 then s else { s with regs := s.regs.set i.toNat v i.isLt }

/-! ## Committing a step -/

/-- "commit the new program counter and increment the step counter" (45_sequencer.md R464). -/
def State.commit (s : State) (next : Word) : State := { s with pc := next, steps := s.steps + 1 }

/-- The end of a step that writes `v` to `rd` and goes on at `next` (45_sequencer.md R462 to R465). -/
def writeAndGo (rd : RegIdx) (v next : Word) (s : State) : StepOutcome := .next ((s.writeReg rd v).commit next)

/-- The end of a step that writes no register and goes on at `next`. -/
def go (next : Word) (s : State) : StepOutcome := .next (s.commit next)

/-- A computational instruction: `x[rd] <- alu(op, a, b).result`, then pc + 4 (46_alu_instructions.md R500). -/
def aluToReg (op : AluOp) (rd : RegIdx) (a b : Word) (s : State) : StepOutcome :=
  writeAndGo rd (alu op a b).result (sequentialPc s.pc) s

/-- A conditional branch: pc + immediate when the condition holds, else pc + 4 (47_control_transfer.md section 2). -/
def branchOn (c : BrCond) (rs1 rs2 : RegIdx) (offset : BitVec 13) (s : State) : StepOutcome :=
  go (if branchHolds c (s.readReg rs1) (s.readReg rs2) then relativeTarget s.pc (immB offset)
      else sequentialPc s.pc) s

end Sys2Proof.Machine
end

