-- ==== Sys2Proof/Machine/LoadStore.lean ====
section
/-! DEFINITION. The load and store instructions (48_load_store.md). -/

namespace Sys2Proof.Machine

/-- LW (R600): a fault commits nothing; rd = x0 still reads and can still fault. -/
def execLw (rd rs1 : RegIdx) (imm : BitVec 12) (s : State) : StepOutcome :=
  match s.dmemRead (effectiveAddress (s.readReg rs1) (immI imm)) with
  | .error f => raise f
  | .ok m => writeAndGo rd m (sequentialPc s.pc) s

/-- SW (R601): a fault writes and commits nothing. -/
def execSw (rs2 rs1 : RegIdx) (imm : BitVec 12) (s : State) : StepOutcome :=
  match s.dmemWrite (effectiveAddress (s.readReg rs1) (immS imm)) (s.readReg rs2) with
  | .error f => raise f
  | .ok t => go (sequentialPc s.pc) t

end Sys2Proof.Machine
end

