-- ==== Sys2Proof/Machine/Op.lean ====
section
/-! DEFINITION. The register-register instructions (46_alu_instructions.md section 3). -/

namespace Sys2Proof.Machine

/-- ADD (R512). -/
def execAdd (rd rs1 rs2 : RegIdx) (s : State) : StepOutcome :=
  aluToReg .add rd (s.readReg rs1) (s.readReg rs2) s

/-- SUB (R513). -/
def execSub (rd rs1 rs2 : RegIdx) (s : State) : StepOutcome :=
  aluToReg .sub rd (s.readReg rs1) (s.readReg rs2) s

/-- SLL (R514). -/
def execSll (rd rs1 rs2 : RegIdx) (s : State) : StepOutcome :=
  aluToReg .sll rd (s.readReg rs1) (s.readReg rs2) s

/-- SLT (R515). -/
def execSlt (rd rs1 rs2 : RegIdx) (s : State) : StepOutcome :=
  aluToReg .slt rd (s.readReg rs1) (s.readReg rs2) s

/-- SLTU (R516). -/
def execSltu (rd rs1 rs2 : RegIdx) (s : State) : StepOutcome :=
  aluToReg .sltu rd (s.readReg rs1) (s.readReg rs2) s

/-- XOR (R517). -/
def execXor (rd rs1 rs2 : RegIdx) (s : State) : StepOutcome :=
  aluToReg .xor rd (s.readReg rs1) (s.readReg rs2) s

/-- SRL (R518). -/
def execSrl (rd rs1 rs2 : RegIdx) (s : State) : StepOutcome :=
  aluToReg .srl rd (s.readReg rs1) (s.readReg rs2) s

/-- SRA (R519). -/
def execSra (rd rs1 rs2 : RegIdx) (s : State) : StepOutcome :=
  aluToReg .sra rd (s.readReg rs1) (s.readReg rs2) s

/-- OR (R520). -/
def execOr (rd rs1 rs2 : RegIdx) (s : State) : StepOutcome :=
  aluToReg .or rd (s.readReg rs1) (s.readReg rs2) s

/-- AND (R521). -/
def execAnd (rd rs1 rs2 : RegIdx) (s : State) : StepOutcome :=
  aluToReg .and rd (s.readReg rs1) (s.readReg rs2) s

end Sys2Proof.Machine
end

