-- ==== Sys2Proof/Machine/OpImm.lean ====
section
/-! DEFINITION. The register-immediate instructions (46_alu_instructions.md section 2). -/

namespace Sys2Proof.Machine

/-- ADDI (R503). -/
def execAddi (rd rs1 : RegIdx) (imm : BitVec 12) (s : State) : StepOutcome :=
  aluToReg .add rd (s.readReg rs1) (immI imm) s

/-- SLTI (R504). -/
def execSlti (rd rs1 : RegIdx) (imm : BitVec 12) (s : State) : StepOutcome :=
  aluToReg .slt rd (s.readReg rs1) (immI imm) s

/-- SLTIU (R505): the immediate is sign-extended first and then compared unsigned. -/
def execSltiu (rd rs1 : RegIdx) (imm : BitVec 12) (s : State) : StepOutcome :=
  aluToReg .sltu rd (s.readReg rs1) (immI imm) s

/-- XORI (R506). -/
def execXori (rd rs1 : RegIdx) (imm : BitVec 12) (s : State) : StepOutcome :=
  aluToReg .xor rd (s.readReg rs1) (immI imm) s

/-- ORI (R507). -/
def execOri (rd rs1 : RegIdx) (imm : BitVec 12) (s : State) : StepOutcome :=
  aluToReg .or rd (s.readReg rs1) (immI imm) s

/-- ANDI (R508). -/
def execAndi (rd rs1 : RegIdx) (imm : BitVec 12) (s : State) : StepOutcome :=
  aluToReg .and rd (s.readReg rs1) (immI imm) s

/-- SLLI (R509): operand B is the I-immediate {funct7, shamt}, whose low 5 bits the ALU uses (30_encoding.md R160). -/
def execSlli (rd rs1 : RegIdx) (funct7 : BitVec 7) (shamt : BitVec 5) (s : State) : StepOutcome :=
  aluToReg .sll rd (s.readReg rs1) (immI (funct7 ++ shamt)) s

/-- SRLI (R510). -/
def execSrli (rd rs1 : RegIdx) (shamt : BitVec 5) (s : State) : StepOutcome :=
  aluToReg .srl rd (s.readReg rs1) (immI (0b0000000#7 ++ shamt)) s

/-- SRAI (R511): imm_I has bit 10 set; the ALU's mask discards it. -/
def execSrai (rd rs1 : RegIdx) (shamt : BitVec 5) (s : State) : StepOutcome :=
  aluToReg .sra rd (s.readReg rs1) (immI (0b0100000#7 ++ shamt)) s

end Sys2Proof.Machine
end

