-- ==== Sys2Proof/Machine/Transfer.lean ====
section
/-! DEFINITION. The control-transfer instructions (47_control_transfer.md). No target is checked: a target from which no fetch
succeeds faults on the next step (R559). -/

namespace Sys2Proof.Machine

/-- JAL (R551). -/
def execJal (rd : RegIdx) (offset : BitVec 21) (s : State) : StepOutcome :=
  writeAndGo rd (sequentialPc s.pc) (relativeTarget s.pc (immJ offset)) s

/-- JALR (R552): the base is read before the link is written. -/
def execJalr (rd rs1 : RegIdx) (imm : BitVec 12) (s : State) : StepOutcome :=
  writeAndGo rd (sequentialPc s.pc) (indirectTarget (s.readReg rs1) (immI imm)) s

/-- BEQ (R553). -/
def execBeq (rs1 rs2 : RegIdx) (offset : BitVec 13) (s : State) : StepOutcome := branchOn .eq rs1 rs2 offset s

/-- BNE (R554). -/
def execBne (rs1 rs2 : RegIdx) (offset : BitVec 13) (s : State) : StepOutcome := branchOn .ne rs1 rs2 offset s

/-- BLT (R555). -/
def execBlt (rs1 rs2 : RegIdx) (offset : BitVec 13) (s : State) : StepOutcome := branchOn .lt rs1 rs2 offset s

/-- BGE (R556). -/
def execBge (rs1 rs2 : RegIdx) (offset : BitVec 13) (s : State) : StepOutcome := branchOn .ge rs1 rs2 offset s

/-- BLTU (R557). -/
def execBltu (rs1 rs2 : RegIdx) (offset : BitVec 13) (s : State) : StepOutcome := branchOn .ltu rs1 rs2 offset s

/-- BGEU (R558). -/
def execBgeu (rs1 rs2 : RegIdx) (offset : BitVec 13) (s : State) : StepOutcome := branchOn .geu rs1 rs2 offset s

end Sys2Proof.Machine
end

