-- ==== Sys2Proof/Machine/Unrecognized.lean ====
section
/-! DEFINITION. The unrecognized class (49_unrecognized.md). -/

namespace Sys2Proof.Machine

/-- Every word that matches no row (R650): "a no-effect instruction rather than an illegal-instruction fault"; pc + 4
and one more step, whatever the word holds. The instruction carries its word, which reaches no state. -/
def execUnrecognized (_word : Word) (s : State) : StepOutcome := go (sequentialPc s.pc) s

end Sys2Proof.Machine
end

