-- ==== Sys2Proof/Machine/Upper.lean ====
section
/-! DEFINITION. The upper-immediate instructions (46_alu_instructions.md section 1). -/

namespace Sys2Proof.Machine

/-- LUI (R501): ALU COPY_B with operand B the upper immediate; operand A is `x[rs1]` of the word and reaches no
result (40_control_unit.md R201), so 0 stands for it here. -/
def execLui (rd : RegIdx) (imm20 : BitVec 20) (s : State) : StepOutcome :=
  aluToReg .copyB rd 0#32 (immU imm20) s

/-- AUIPC (R502): ALU ADD with operand A the program counter. -/
def execAuipc (rd : RegIdx) (imm20 : BitVec 20) (s : State) : StepOutcome :=
  aluToReg .add rd s.pc (immU imm20) s

end Sys2Proof.Machine
end

