-- ==== Sys2Proof/Machine/Step.lean ====
section
/-! DEFINITION. One step of the sequencer (45_sequencer.md R450 to R468): fetch, decode, run the instruction's meaning. -/

namespace Sys2Proof.Machine

/-- One request on the step port (10_state.md R80). A fetch fault aborts the step before anything is decoded (R452). -/
def step (s : State) : Host.Outcome State Fault Refusal :=
  match s.fetch with
  | .error f => raise f
  | .ok w => exec (decode w) s

/-- The state with the word of a table row stored where the next fetch reads, in the memory of the instruction role at the
program counter. At a program counter from which no fetch succeeds there is no such place and nothing changes
(entry 15). -/
def State.withFetchWord (s : State) (nbits w : Nat) : State :=
  match storeWord s.instrWords s.instrMemory .fetch s.pc (BitVec.ofNat 32 (w % 2 ^ nbits)) with
  | .error _ => s
  | .ok m => s.withInstrMemory m

end Sys2Proof.Machine
end

