-- ==== Sys2Proof/Machine/Codec.lean ====
section
/-! DEFINITION. The two's-complement codec (44_codec.md). A pure unit with a port of its own. -/

namespace Sys2Proof.Machine

/-- `encode(v)` of a mathematical integer: the word and the overflow flag (R400, R401, decision D25). -/
def codecEncode (v : Int) : Word × Bool := (w32 v, decide (v < -2 ^ 31 ∨ v > 2 ^ 31 - 1))

/-- The `encode` port of a machine, whose input has the finite width CODEC_IN_WIDTH: the rules of `encode` hold for every
input in that width (R400, decision D25; the input is read as two's complement, entry 16). -/
def codecEncodePort (c : Config) (v : BitVec c.codecInWidth) : Word × Bool := codecEncode v.toInt

/-- `decode(bits)` of an n-bit vector (R402). -/
def codecDecode {n : Nat} (bits : BitVec n) : Int :=
  if bits.getMsbD 0 then -(negate bits).toNat else bits.toNat

/-- `sign_extend(bits, m)`: the new bits are copies of bit n-1; refused when m < n (R404, R406). -/
def codecSignExtend {n : Nat} (bits : BitVec n) (m : Nat) : Except Refusal (BitVec m) :=
  if m < n then .error (.codecNarrowing n m) else .ok (bits.signExtend m)

/-- `zero_extend(bits, m)`: the new bits are 0; refused when m < n (R405, R406). -/
def codecZeroExtend {n : Nat} (bits : BitVec n) (m : Nat) : Except Refusal (BitVec m) :=
  if m < n then .error (.codecNarrowing n m) else .ok (bits.zeroExtend m)

end Sys2Proof.Machine
end

