-- ==== Sys2Proof/Machine/ControlUnit.lean ====
section
/-! DEFINITION. The control-signal generator (40_control_unit.md). -/

namespace Sys2Proof.Machine

/-- The default signal set: "no writes, no memory access, no control transfer" (R202, R203, decision D10). -/
def controlDefault : ControlSignals where
  aluOp := .add
  aSrc := .reg
  bSrc := .reg
  regWrite := false
  memRead := false
  memWrite := false
  wbSrc := .alu
  branch := .none
  jump := false
  jalr := false

/-- A register-register ALU operation (R201). -/
def controlAlu (op : AluOp) : ControlSignals := { controlDefault with aluOp := op, regWrite := true }

/-- A register-immediate ALU operation (R201). -/
def controlAluImm (op : AluOp) : ControlSignals :=
  { controlDefault with aluOp := op, bSrc := .imm, regWrite := true }

/-- A conditional branch (R201). -/
def controlBranch (c : BrCond) : ControlSignals := { controlDefault with branch := c }

/-- OP, keyed by funct3 and funct7 (30_encoding.md R171). -/
def controlOp (funct3 : BitVec 3) (funct7 : BitVec 7) : ControlSignals :=
  match funct3.toNat, funct7.toNat with
  | 0b000, 0b0000000 => controlAlu .add
  | 0b000, 0b0100000 => controlAlu .sub
  | 0b001, 0b0000000 => controlAlu .sll
  | 0b010, 0b0000000 => controlAlu .slt
  | 0b011, 0b0000000 => controlAlu .sltu
  | 0b100, 0b0000000 => controlAlu .xor
  | 0b101, 0b0000000 => controlAlu .srl
  | 0b101, 0b0100000 => controlAlu .sra
  | 0b110, 0b0000000 => controlAlu .or
  | 0b111, 0b0000000 => controlAlu .and
  | _, _ => controlDefault

/-- OP-IMM, keyed by funct3, and by funct7 for the shift-right variants (30_encoding.md R172). -/
def controlOpImm (funct3 : BitVec 3) (funct7 : BitVec 7) : ControlSignals :=
  match funct3.toNat, funct7.toNat with
  | 0b000, _ => controlAluImm .add
  | 0b010, _ => controlAluImm .slt
  | 0b011, _ => controlAluImm .sltu
  | 0b100, _ => controlAluImm .xor
  | 0b110, _ => controlAluImm .or
  | 0b111, _ => controlAluImm .and
  | 0b001, _ => controlAluImm .sll
  | 0b101, 0b0000000 => controlAluImm .srl
  | 0b101, 0b0100000 => controlAluImm .sra
  | _, _ => controlDefault

/-- BRANCH, keyed by funct3 (30_encoding.md R173). -/
def controlBranches (funct3 : BitVec 3) : ControlSignals :=
  match funct3.toNat with
  | 0b000 => controlBranch .eq
  | 0b001 => controlBranch .ne
  | 0b100 => controlBranch .lt
  | 0b101 => controlBranch .ge
  | 0b110 => controlBranch .ltu
  | 0b111 => controlBranch .geu
  | _ => controlDefault

/-- LW (R201). -/
def controlLoad : ControlSignals :=
  { controlDefault with bSrc := .imm, regWrite := true, memRead := true, wbSrc := .mem }

/-- SW (R201). -/
def controlStore : ControlSignals := { controlDefault with bSrc := .imm, memWrite := true }

/-- JAL (R201). -/
def controlJal : ControlSignals := { controlDefault with regWrite := true, wbSrc := .link, jump := true }

/-- JALR (R201). -/
def controlJalr : ControlSignals :=
  { controlDefault with bSrc := .imm, regWrite := true, wbSrc := .link, jalr := true }

/-- LUI (R201). -/
def controlLui : ControlSignals := { controlDefault with aluOp := .copyB, bSrc := .upperImm, regWrite := true }

/-- AUIPC (R201). -/
def controlAuipc : ControlSignals := { controlDefault with aSrc := .pc, bSrc := .imm, regWrite := true }

/-- `control(opcode, funct3, funct7)` (R201, R202, R205). LOAD, STORE and JALR consult funct3 (30_encoding.md R174,
decision D8). -/
def controlUnit (opcode : BitVec 7) (funct3 : BitVec 3) (funct7 : BitVec 7) : ControlSignals :=
  match opcode.toNat with
  | 0b0110111 => controlLui
  | 0b0010111 => controlAuipc
  | 0b1101111 => controlJal
  | 0b1100111 => if funct3.toNat = 0b000 then controlJalr else controlDefault
  | 0b1100011 => controlBranches funct3
  | 0b0000011 => if funct3.toNat = 0b010 then controlLoad else controlDefault
  | 0b0100011 => if funct3.toNat = 0b010 then controlStore else controlDefault
  | 0b0010011 => controlOpImm funct3 funct7
  | 0b0110011 => controlOp funct3 funct7
  | _ => controlDefault

/-- The signals the decoder's fields select (45_sequencer.md R454). -/
def controlOf (d : DecodedInstruction) : ControlSignals := controlUnit d.opcode d.funct3 d.funct7

end Sys2Proof.Machine
end

