-- ==== Sys2Proof/Machine/Datapath.lean ====
section
/-! DEFINITION. The step as the single-cycle datapath of 45_sequencer.md R451: one behaviour driven by control signals, with no case
per instruction. It is a second description of `step`, independent of the decoder to `Instr` and of the meanings; a
statement says that the two agree. -/

namespace Sys2Proof.Machine

/-- Operand A (R457). -/
def selectA (src : ASrc) (pc v1 : Word) : Word :=
  match src with
  | .pc => pc
  | .reg => v1

/-- Operand B (R458). -/
def selectB (src : BSrc) (v2 imm upper : Word) : Word :=
  match src with
  | .upperImm => upper
  | .imm => imm
  | .reg => v2

/-- The data read, if the signals enable one (R460); the word of a step that reads nothing reaches no result. -/
def datapathRead (c : ControlSignals) (r : Word) (s : State) : Except Fault Word :=
  if c.memRead then s.dmemRead r else .ok 0#32

/-- The data write, if the signals enable one (R460). -/
def datapathWrite (c : ControlSignals) (r v2 : Word) (s : State) : Except Fault State :=
  if c.memWrite then s.dmemWrite r v2 else .ok s

/-- The writeback value: "loaded memory word if a load, else the link address if a jump, else the ALU result" (R461). -/
def selectWriteback (c : ControlSignals) (m r pc : Word) : Word :=
  if c.memRead then m else if c.wbSrc = .link then sequentialPc pc else r

/-- The next pc (R463), jalr applied last (decision D22). -/
def selectNext (c : ControlSignals) (v1 v2 imm pc : Word) : Word :=
  if c.jalr then indirectTarget v1 imm
  else if (c.branch ≠ .none ∧ branchHolds c.branch v1 v2) ∨ c.jump then relativeTarget pc imm
  else sequentialPc pc

/-- The register write: "if register-write is enabled and the destination index is non-zero" (R462). -/
def datapathWriteback (c : ControlSignals) (rd : RegIdx) (wb : Word) (s : State) : State :=
  if c.regWrite ∧ rd ≠ 0#5 then s.writeReg rd wb else s

/-- Everything after the fetch (R453 to R465). All reads see the state `s`; the writes are made on `t`. -/
def datapath (w : Word) (s : State) : StepOutcome :=
  let d := decodeFields w
  let c := controlOf d
  let imm := immediate w
  let v1 := s.readReg d.rs1
  let v2 := s.readReg d.rs2
  let r := (alu c.aluOp (selectA c.aSrc s.pc v1) (selectB c.bSrc v2 imm (immU (immBitsU w)))).result
  match datapathRead c r s with
  | .error f => raise f
  | .ok m =>
    match datapathWrite c r v2 s with
    | .error f => raise f
    | .ok t => go (selectNext c v1 v2 imm s.pc) (datapathWriteback c d.rd (selectWriteback c m r s.pc) t)

/-- `step(S)` of R451. -/
def datapathStep (s : State) : StepOutcome :=
  match s.fetch with
  | .error f => raise f
  | .ok w => datapath w s

end Sys2Proof.Machine
end

