-- ==== Sys2Proof/Machine/Fpu.lean ====
section
/-! DEFINITION. The floating-point unit (43_fpu.md): single precision, truncating, "not corrected to full IEEE-754". A pure unit with
a port of its own; no instruction reaches it (00_scope.md R3). -/

namespace Sys2Proof.Machine

/-- A Float32 value taken apart: sign, biased exponent, 24-bit significand (R353). -/
structure Unpacked where
  sign : Bool
  exp  : BitVec 8
  sig  : BitVec 24
deriving DecidableEq, Repr

/-- `fpu_pack(s, e, f)`: inputs wider than their field are cut to its width (R352, decision D26). -/
def fpuPack (s e f : Nat) : Word := BitVec.ofNat 1 s ++ BitVec.ofNat 8 e ++ BitVec.ofNat 23 f

/-- `fpu_unpack(w)`: the implicit one is restored when the biased exponent is not zero, 0xFF included (R353). -/
def fpuUnpack (w : Word) : Unpacked where
  sign := w.getLsbD 31
  exp  := w.extractLsb' 23 8
  sig  := if w.extractLsb' 23 8 = 0#8 then 0#1 ++ w.extractLsb' 0 23 else 1#1 ++ w.extractLsb' 0 23

/-- Alignment (R355): the two significands and the working exponent. -/
def faddAlign (x y : Unpacked) : Nat × Nat × Nat :=
  if x.exp.toNat < y.exp.toNat then
    ((shiftRightLogical x.sig (y.exp.toNat - x.exp.toNat)).toNat, y.sig.toNat, y.exp.toNat)
  else (x.sig.toNat, (shiftRightLogical y.sig (x.exp.toNat - y.exp.toNat)).toNat, x.exp.toNat)

/-- Combining (R356): the sign and the magnitude of the sum of the aligned significands. -/
def faddCombine (s1 s2 : Bool) (m1 m2 : Nat) : Bool × Nat :=
  if s1 = s2 then (s1, m1 + m2) else if m1 ≥ m2 then (s1, m1 - m2) else (s2, m2 - m1)

/-- "while m >= 2^24: m = floor(m / 2); e = e + 1" (R358), with fuel for the iterations: m < 2^25 holds throughout
(R354), so one iteration is enough and the 25 that `fadd` gives are never used up. -/
def renormRight : Nat → Nat → Nat → Nat × Nat
  | 0, m, e => (m, e)
  | fuel + 1, m, e => if m ≥ 2 ^ 24 then renormRight fuel (m / 2) (e + 1) else (m, e)

/-- "while m < 2^23 and e > 0: m = 2 * m; e = e - 1" (R358): each iteration lowers e. -/
def renormLeft (m : Nat) : Nat → Nat × Nat
  | 0 => (m, 0)
  | e + 1 => if m < 2 ^ 23 then renormLeft (2 * m) e else (m, e + 1)

/-- Both loops of R358: the significand and the exponent. -/
def renormalise (m e : Nat) : Nat × Nat :=
  match renormRight 25 m e with
  | (m', e') => renormLeft m' e'

/-- FADD (R354 to R360). -/
def fadd (a b : Word) : Word :=
  match faddAlign (fpuUnpack a) (fpuUnpack b) with
  | (m1, m2, e) =>
    match faddCombine (fpuUnpack a).sign (fpuUnpack b).sign m1 m2 with
    | (s, m) =>
      if m = 0 then 0x00000000#32
      else
        match renormalise m e with
        | (m', e') => if e' > 255 then Config.faddExpOverflow a b else fpuPack s.toNat e' (m' % 2 ^ 23)

/-- FSUB: "add with the second operand's sign bit flipped" (R361). -/
def fsub (a b : Word) : Word := fadd a (b ^^^ 0x80000000#32)

/-- The significand window and the exponent of a product (R362): bits 47 to 24 with the exponent raised when bit 47 is
set, else bits 46 to 23. -/
def fmulWindow (p : BitVec 48) (e : Int) : BitVec 24 × Int :=
  if p.getLsbD 47 then (p.extractLsb' 24 24, e + 1) else (p.extractLsb' 23 24, e)

/-- FMUL (R362 to R364). -/
def fmul (a b : Word) : Word :=
  let x := fpuUnpack a
  let y := fpuUnpack b
  let s := (x.sign ^^ y.sign).toNat
  match fmulWindow (x.sig.zeroExtend 48 * y.sig.zeroExtend 48) ((x.exp.toNat : Int) + y.exp.toNat - 127) with
  | (m, e) =>
    if e ≤ 0 then fpuPack s 0 0
    else if e ≥ 255 then fpuPack s 0xFF 0
    else fpuPack s e.toNat (m.extractLsb' 0 23).toNat

end Sys2Proof.Machine
end

