-- ==== Sys2Proof/Machine/Mdu.lean ====
section
/-! DEFINITION. The multiply-divide unit (42_mdu.md), with the shift-and-add and restoring-division loops the spec gives. A pure unit
with a port of its own; no instruction reaches it (00_scope.md R3). -/

namespace Sys2Proof.Machine

/-- The operations of the MDU port (R300). -/
inductive MduOp where
  | mulu | muls | divu | divs
deriving DecidableEq, Repr

/-- The bits of the multiplier or dividend from 0 to 31. -/
def bitsUp : List Nat := List.range 32

/-- One iteration of shift-and-add (R301). -/
def muluStep (a b : Word) (p : BitVec 64) (i : Nat) : BitVec 64 :=
  if b.getLsbD i then p + (a.zeroExtend 64 <<< i) else p

/-- The 64-bit product of R301, before it is split. -/
def muluProduct (a b : Word) : BitVec 64 := bitsUp.foldl (muluStep a b) 0#64

/-- The high and low words of a 64-bit vector. -/
def splitWords (p : BitVec 64) : Word × Word := (p.extractLsb' 32 32, p.extractLsb' 0 32)

/-- MULU: (hi, lo) (R301). -/
def mulu (a b : Word) : Word × Word := splitWords (muluProduct a b)

/-- "sign + magnitude": the magnitude as an unsigned word (R302, R305). -/
def magnitude (a : Word) : Word := if a.getLsbD 31 then negate a else a

/-- MULS: (hi, lo) (R302). -/
def muls (a b : Word) : Word × Word :=
  match mulu (magnitude a) (magnitude b) with
  | (h, l) => splitWords (if a.getLsbD 31 != b.getLsbD 31 then negate (h ++ l : BitVec 64) else h ++ l)

/-- One iteration of restoring division, on the 33-bit running remainder and the quotient (R303, R311). -/
def divuStep (a b : Word) (s : BitVec 33 × Word) (i : Nat) : BitVec 33 × Word :=
  match s with
  | (r0, q0) =>
    match (r0 <<< 1) ||| (BitVec.ofBool (a.getLsbD i)).zeroExtend 33, q0 <<< 1 with
    | r, q => if (b.zeroExtend 33).toNat ≤ r.toNat then (r - b.zeroExtend 33, q ||| 1#32) else (r, q)

/-- The loop of R303, from bit 31 down to bit 0: (q, r). -/
def divuLoop (a b : Word) : Word × Word :=
  match bitsUp.reverse.foldl (divuStep a b) (0#33, 0#32) with
  | (r, q) => (q, r.extractLsb' 0 32)

/-- DIVU: (q, r), with the fixed result for a zero divisor (R303, R304). -/
def divu (a b : Word) : Word × Word := if b = 0#32 then (0xFFFFFFFF#32, a) else divuLoop a b

/-- DIVS: (q, r), the zero divisor first, then the overflow, then the general path (R305 to R308). -/
def divs (a b : Word) : Word × Word :=
  if b = 0#32 then (0xFFFFFFFF#32, a)
  else if a = 0x80000000#32 ∧ b = 0xFFFFFFFF#32 then (0x80000000#32, 0#32)
  else
    match divu (magnitude a) (magnitude b) with
    | (mq, mr) =>
      (if a.getLsbD 31 ^^ b.getLsbD 31 then negate mq else mq, if a.getLsbD 31 then negate mr else mr)

/-- `mdu(op, a, b)` (R300): (hi, lo) of a multiply, (q, r) of a division. It raises nothing (R309). -/
def mdu (op : MduOp) (a b : Word) : Word × Word :=
  match op with
  | .mulu => mulu a b
  | .muls => muls a b
  | .divu => divu a b
  | .divs => divs a b

end Sys2Proof.Machine
end

