-- ==== Sys2Proof/Machine/Ports.lean ====
section
/-! DEFINITION. The ports the caller drives between steps (10_state.md section 8). The pure units' ports (R87) are the units' own
functions, `decodeFields`, `controlUnit`, `alu`, `mdu`, `fadd`, `codecEncodePort` and so on: they take no State and give none
back, so a call of one has no effect on CPUState. -/

namespace Sys2Proof.Machine

/-- What the snapshot port shows (R85). -/
structure Snapshot where
  pc    : Word
  regs  : Vector Word 32
  steps : Nat
deriving DecidableEq, Repr

/-- The snapshot of a state; register 0 reads as 0 in it (R85). -/
def State.snapshot (s : State) : Snapshot where
  pc    := s.pc
  regs  := Vector.ofFn fun i => s.readReg (BitVec.ofFin i)
  steps := s.steps

/-- The step counter as a realisation of finite width W shows it: it wraps modulo 2^W (00_scope.md R8,
STEP_CTR_WIDTH; entry 3). -/
def State.stepsAtWidth (s : State) (width : Nat) : Nat := s.steps % 2 ^ width

/-- The register port's check: an index outside 0..31 (R54, decision D35). -/
def checkRegister (index : Word) : Except Fault RegIdx :=
  if index.toNat < 32 then .ok (index.extractLsb' 0 5) else .error (.outOfRangeFault .register index)

/-- A request of the caller, made while no step is in flight (R80, R83 to R86; 70_reset_and_hazards.md R755). -/
inductive Request where
  /-- Execute one step (R80). -/
  | step
  /-- Put the CORE in the reset state (R86). -/
  | reset
  /-- Read the snapshot (R85). -/
  | snapshot
  /-- `load_program` on the memory of the instruction role (R84, 20_memory.md R120). -/
  | loadProgram (words : List Word) (base : Word)
  /-- `load_program` on the data memory, to preload data (20_memory.md R120). -/
  | loadData (words : List Word) (base : Word)
  /-- Read a register (R83). -/
  | readRegister (index : Word)
  /-- Write a register (R83). -/
  | writeRegister (index value : Word)
deriving DecidableEq, Repr

/-- What a port answers: OK, a value, or the fault report (R80, 60_exceptions.md R703). -/
inductive Response where
  | ok
  | value (v : Word)
  | snapshot (x : Snapshot)
  | fault (f : Fault)
  | refused (r : Refusal)
deriving DecidableEq, Repr

/-- The step port (R80): after a fault the CORE stays in the state from before the step (60_exceptions.md R704,
R707). -/
def stepPort (s : State) : Response × State :=
  match step s with
  | .next t => (.ok, t)
  | .fault f => (.fault f, s)
  | .refused r => (.refused r, s)

/-- The reset port (R86, R750): everything at its reset value, the parameters of the machine kept. -/
def resetPort (s : State) : State := State.resetWith s.cfg

/-- The program-load port (R84). -/
def loadProgramPort (words : List Word) (base : Word) (s : State) : Response × State :=
  match loadProgram s.instrWords s.instrMemory words base with
  | .error f => (.fault f, s)
  | .ok m => (.ok, s.withInstrMemory m)

/-- `load_program` applied to the data memory (20_memory.md R120). -/
def loadDataPort (words : List Word) (base : Word) (s : State) : Response × State :=
  match loadProgram s.cfg.dmemWords s.dmem words base with
  | .error f => (.fault f, s)
  | .ok m => (.ok, { s with dmem := m })

/-- The register port's read (R52, R83). -/
def readRegisterPort (index : Word) (s : State) : Response × State :=
  match checkRegister index with
  | .error f => (.fault f, s)
  | .ok i => (.value (s.readReg i), s)

/-- The register port's write (R53, R83). -/
def writeRegisterPort (index value : Word) (s : State) : Response × State :=
  match checkRegister index with
  | .error f => (.fault f, s)
  | .ok i => (.ok, s.writeReg i value)

/-- One request of the caller. -/
def serve (r : Request) (s : State) : Response × State :=
  match r with
  | .step => stepPort s
  | .reset => (.ok, resetPort s)
  | .snapshot => (.snapshot s.snapshot, s)
  | .loadProgram words base => loadProgramPort words base s
  | .loadData words base => loadDataPort words base s
  | .readRegister index => readRegisterPort index s
  | .writeRegister index value => writeRegisterPort index value s

/-- The requests of a run, one after another, with the state each leaves (20_memory.md R130). -/
def serveAll : List Request → State → List Response × State
  | [], s => ([], s)
  | r :: rs, s =>
    match serve r s with
    | (a, t) =>
      match serveAll rs t with
      | (answers, u) => (a :: answers, u)

end Sys2Proof.Machine
end

