-- ==== Sys2Proof/Safety.lean ====
section
/-! DEFINITION. The terms the statements use: the invariant of the machine, what a step that completes leaves, and what it means for an
access to be allowed. -/

namespace Sys2Proof.Machine

/-- What holds of the state after reset and is kept by every step and every port: slot 0 of the register file holds 0;
both memories are canonical and name no address beyond their capacity; the program counter is even (10_state.md R62: it can
be 2 modulo 4, never odd); the parameters are legal; the instruction memory is absent when the memory is unified. -/
abbrev State.Inv (s : State) : Prop :=
  s.regs[0] = 0#32 ∧
  s.imem.wf = true ∧ s.dmem.wf = true ∧
  s.imem.within s.cfg.imemWords = true ∧ s.dmem.within s.cfg.dmemWords = true ∧
  s.pc.getLsbD 0 = false ∧
  s.cfg.legal ∧
  (s.cfg.unified = true → s.imem = [])

/-- An address that `load_word` and `store_word` accept in a memory of that many words (20_memory.md R101). -/
abbrev allowed (words : Nat) (a : Word) : Prop := a.toNat % 4 = 0 ∧ a.toNat / 4 < words

/-- A state from which a fetch succeeds. -/
abbrev State.fetchable (s : State) : Prop := allowed s.instrWords s.pc

/-- `after` holds the words in consecutive cells from byte address `a`, and every byte outside that run reads as in
`before` (20_memory.md R120). -/
def Fills (before after : Memory) (a : Nat) (words : List Word) : Prop :=
  (∀ (k : Nat) (hk : k < words.length), Memory.readWord after (a + 4 * k) = words[k]) ∧
  ∀ b, b < a ∨ a + 4 * words.length ≤ b → Memory.readByte after b = Memory.readByte before b

/-- A safe step: one that completes. -/
def State.safe (s : State) : Prop := ∃ t, step s = .next t

/-- Both memories and the parameters are those of `s`; in particular every byte reads as before. -/
def SameMemories (s t : State) : Prop :=
  t.cfg = s.cfg ∧ t.imem = s.imem ∧ t.dmem = s.dmem ∧
  (∀ a, Memory.readByte t.imem a = Memory.readByte s.imem a) ∧
  (∀ a, Memory.readByte t.dmem a = Memory.readByte s.dmem a)

/-- The outcome is a next state in which the pc is `next`, one more step is counted, register `rd` holds `v` unless it
is x0, and every other register, both memories and the parameters are as before. -/
def Writes (s : State) (rd : RegIdx) (v next : Word) (o : StepOutcome) : Prop :=
  ∃ t, o = .next t ∧ t.pc = next ∧ t.steps = s.steps + 1 ∧ SameMemories s t ∧
    ∀ i, t.readReg i = if i = rd ∧ rd ≠ 0#5 then v else s.readReg i

/-- The outcome is a next state in which the pc is `next`, one more step is counted, and every register, both memories
and the parameters are as before. -/
def Moves (s : State) (next : Word) (o : StepOutcome) : Prop :=
  ∃ t, o = .next t ∧ t.pc = next ∧ t.steps = s.steps + 1 ∧ SameMemories s t ∧ ∀ i, t.readReg i = s.readReg i

/-- The outcome is a next state in which the pc is `next`, one more step is counted, the data word at `a` is `v`, every
byte of the data memory outside the four at `a` reads as before, and every register, the instruction memory and the
parameters are as before. -/
def Stores (s : State) (a v next : Word) (o : StepOutcome) : Prop :=
  ∃ t, o = .next t ∧ t.pc = next ∧ t.steps = s.steps + 1 ∧ t.cfg = s.cfg ∧ t.imem = s.imem ∧
    Memory.readWord t.dmem a.toNat = v ∧
    (∀ b, b < a.toNat ∨ a.toNat + 4 ≤ b → Memory.readByte t.dmem b = Memory.readByte s.dmem b) ∧
    ∀ i, t.readReg i = s.readReg i

end Sys2Proof.Machine
end

