-- ==== Sys2Proof/WellFormed.lean ====
section
/-! DEFINITION. Which terms of `Instr` stand for a word: the checks that the field widths do not already make. -/

namespace Sys2Proof

/-- An instruction is well formed when it stands for some word: a B or J offset is even (30_encoding.md R155, R157),
and the word of `unrecognized` matches no row of the opcode table (49_unrecognized.md R650, R651). Every operand of the
other instructions has exactly the width of its field, so each of their terms is well formed. -/
def Instr.wellFormed : Instr → Bool
  | .lui _ _ | .auipc _ _ => true
  | .addi _ _ _ | .slti _ _ _ | .sltiu _ _ _ | .xori _ _ _ | .ori _ _ _ | .andi _ _ _ => true
  | .slli _ _ _ _ | .srli _ _ _ | .srai _ _ _ => true
  | .add _ _ _ | .sub _ _ _ | .sll _ _ _ | .slt _ _ _ | .sltu _ _ _ => true
  | .xor _ _ _ | .srl _ _ _ | .sra _ _ _ | .or _ _ _ | .and _ _ _ => true
  | .jal _ offset => !offset.getLsbD 0
  | .jalr _ _ _ => true
  | .beq _ _ offset | .bne _ _ offset | .blt _ _ offset | .bge _ _ offset | .bltu _ _ offset | .bgeu _ _ offset =>
    !offset.getLsbD 0
  | .lw _ _ _ | .sw _ _ _ => true
  | .unrecognized word => !recognized word

end Sys2Proof
end

