-- ==== Sys2Proof/Certificates/Slice0/Obligations.lean ====
section
/-! DEFINITION. The statements for the provers. Results are written with the library's bit-vector and integer operations, and encodings
as words laid out from the formats of 30_encoding.md R152, not with the model's own helpers. -/

open Sys2Proof Sys2Proof.Machine

/-! ## Words laid out by format (30_encoding.md R152), and the signal table of 40_control_unit.md R201 -/

/-- funct7, rs2, rs1, funct3, rd, opcode. -/
def Sys2Proof.wordR (funct7 : BitVec 7) (rs2 rs1 : RegIdx) (funct3 : BitVec 3) (rd : RegIdx) (opcode : BitVec 7) :
    Word :=
  funct7 ++ rs2 ++ rs1 ++ funct3 ++ rd ++ opcode

/-- imm[11:0], rs1, funct3, rd, opcode. -/
def Sys2Proof.wordI (imm : BitVec 12) (rs1 : RegIdx) (funct3 : BitVec 3) (rd : RegIdx) (opcode : BitVec 7) : Word :=
  imm ++ rs1 ++ funct3 ++ rd ++ opcode

/-- imm[11:5], rs2, rs1, funct3, imm[4:0], opcode, the immediate given in its two parts. -/
def Sys2Proof.wordS (hi : BitVec 7) (rs2 rs1 : RegIdx) (funct3 : BitVec 3) (lo : BitVec 5) (opcode : BitVec 7) : Word :=
  hi ++ rs2 ++ rs1 ++ funct3 ++ lo ++ opcode

/-- imm[12], imm[10:5], rs2, rs1, funct3, imm[4:1], imm[11], opcode, the offset given in its four parts. -/
def Sys2Proof.wordB (b12 : BitVec 1) (b10to5 : BitVec 6) (rs2 rs1 : RegIdx) (funct3 : BitVec 3) (b4to1 : BitVec 4)
    (b11 : BitVec 1) (opcode : BitVec 7) : Word :=
  b12 ++ b10to5 ++ rs2 ++ rs1 ++ funct3 ++ b4to1 ++ b11 ++ opcode

/-- The byte offset whose four parts are given; bit 0 is zero (30_encoding.md R155). -/
def Sys2Proof.offsetB (b12 : BitVec 1) (b11 : BitVec 1) (b10to5 : BitVec 6) (b4to1 : BitVec 4) : BitVec 13 :=
  b12 ++ b11 ++ b10to5 ++ b4to1 ++ 0#1

/-- imm[20], imm[10:1], imm[11], imm[19:12], rd, opcode, the offset given in its four parts. -/
def Sys2Proof.wordJ (b20 : BitVec 1) (b10to1 : BitVec 10) (b11 : BitVec 1) (b19to12 : BitVec 8) (rd : RegIdx)
    (opcode : BitVec 7) : Word :=
  b20 ++ b10to1 ++ b11 ++ b19to12 ++ rd ++ opcode

/-- The byte offset whose four parts are given; bit 0 is zero (30_encoding.md R157). -/
def Sys2Proof.offsetJ (b20 : BitVec 1) (b19to12 : BitVec 8) (b11 : BitVec 1) (b10to1 : BitVec 10) : BitVec 21 :=
  b20 ++ b19to12 ++ b11 ++ b10to1 ++ 0#1

/-- The table of 40_control_unit.md R201 row by row, and the default of R202. -/
def Sys2Proof.signalsOf : Mnemonic → ControlSignals
  | .ADD => ⟨.add, .reg, .reg, true, false, false, .alu, .none, false, false⟩
  | .SUB => ⟨.sub, .reg, .reg, true, false, false, .alu, .none, false, false⟩
  | .SLL => ⟨.sll, .reg, .reg, true, false, false, .alu, .none, false, false⟩
  | .SLT => ⟨.slt, .reg, .reg, true, false, false, .alu, .none, false, false⟩
  | .SLTU => ⟨.sltu, .reg, .reg, true, false, false, .alu, .none, false, false⟩
  | .XOR => ⟨.xor, .reg, .reg, true, false, false, .alu, .none, false, false⟩
  | .SRL => ⟨.srl, .reg, .reg, true, false, false, .alu, .none, false, false⟩
  | .SRA => ⟨.sra, .reg, .reg, true, false, false, .alu, .none, false, false⟩
  | .OR => ⟨.or, .reg, .reg, true, false, false, .alu, .none, false, false⟩
  | .AND => ⟨.and, .reg, .reg, true, false, false, .alu, .none, false, false⟩
  | .ADDI => ⟨.add, .reg, .imm, true, false, false, .alu, .none, false, false⟩
  | .SLTI => ⟨.slt, .reg, .imm, true, false, false, .alu, .none, false, false⟩
  | .SLTIU => ⟨.sltu, .reg, .imm, true, false, false, .alu, .none, false, false⟩
  | .XORI => ⟨.xor, .reg, .imm, true, false, false, .alu, .none, false, false⟩
  | .ORI => ⟨.or, .reg, .imm, true, false, false, .alu, .none, false, false⟩
  | .ANDI => ⟨.and, .reg, .imm, true, false, false, .alu, .none, false, false⟩
  | .SLLI => ⟨.sll, .reg, .imm, true, false, false, .alu, .none, false, false⟩
  | .SRLI => ⟨.srl, .reg, .imm, true, false, false, .alu, .none, false, false⟩
  | .SRAI => ⟨.sra, .reg, .imm, true, false, false, .alu, .none, false, false⟩
  | .LW => ⟨.add, .reg, .imm, true, true, false, .mem, .none, false, false⟩
  | .SW => ⟨.add, .reg, .imm, false, false, true, .alu, .none, false, false⟩
  | .BEQ => ⟨.add, .reg, .reg, false, false, false, .alu, .eq, false, false⟩
  | .BNE => ⟨.add, .reg, .reg, false, false, false, .alu, .ne, false, false⟩
  | .BLT => ⟨.add, .reg, .reg, false, false, false, .alu, .lt, false, false⟩
  | .BGE => ⟨.add, .reg, .reg, false, false, false, .alu, .ge, false, false⟩
  | .BLTU => ⟨.add, .reg, .reg, false, false, false, .alu, .ltu, false, false⟩
  | .BGEU => ⟨.add, .reg, .reg, false, false, false, .alu, .geu, false, false⟩
  | .JAL => ⟨.add, .reg, .reg, true, false, false, .link, .none, true, false⟩
  | .JALR => ⟨.add, .reg, .imm, true, false, false, .link, .none, false, true⟩
  | .LUI => ⟨.copyB, .reg, .upperImm, true, false, false, .alu, .none, false, false⟩
  | .AUIPC => ⟨.add, .pc, .imm, true, false, false, .alu, .none, false, false⟩
  | .UNRECOGNIZED => ⟨.add, .reg, .reg, false, false, false, .alu, .none, false, false⟩

/-! ## Encoding -/

/-- Decoding the word of a well-formed instruction gives it back, every operand at every value (30_encoding.md R151 to
R157, R170 to R176; decisions D6 to D9). -/
def Obligations.EncodeThenDecode : Prop :=
  ∀ i : Instr, i.wellFormed = true → decode (encode i) = i

/-- Every word decodes to a well-formed instruction whose word it is: each word has one meaning and no bit of it is
lost (30_encoding.md R150, R176, R177; decisions D6 to D9). -/
def Obligations.DecodeThenEncode : Prop :=
  ∀ w : Word, (decode w).wellFormed = true ∧ encode (decode w) = w

/-- The decoder agrees with the opcode table: a word that a row covers decodes to that row's instruction, and a word is
`unrecognized` exactly when no row covers it (30_encoding.md R176; decisions D6 to D9). -/
def Obligations.DecoderFollowsOpcodeTable : Prop :=
  ∀ w : Word,
    (∀ r ∈ opcodeTable, w &&& r.mask = r.pattern → (decode w).mnemonic = r.mnemonic) ∧
    ((∀ r ∈ opcodeTable, w &&& r.mask ≠ r.pattern) ↔ decode w = .unrecognized w)

/-- "The rows do not overlap" (30_encoding.md R176, which marks it as derived). -/
def Obligations.OpcodeRowsDoNotOverlap : Prop :=
  ∀ (w : Word) (r₁ r₂ : OpcodeRow), r₁ ∈ opcodeTable → r₂ ∈ opcodeTable →
    w &&& r₁.mask = r₁.pattern → w &&& r₂.mask = r₂.pattern → r₁ = r₂

/-- Which words are unrecognized, in the words of 49_unrecognized.md R651 (decisions D7 to D9). -/
def Obligations.UnrecognizedWordsCharacterised : Prop :=
  ∀ w : Word,
    let opcode := w.toNat % 2 ^ 7
    let funct3 := w.toNat / 2 ^ 12 % 2 ^ 3
    let funct7 := w.toNat / 2 ^ 25
    decode w = .unrecognized w ↔
      (opcode ∉ [0b0110111, 0b0010111, 0b1101111, 0b1100111, 0b1100011, 0b0000011, 0b0100011, 0b0010011, 0b0110011]) ∨
      (opcode = 0b0110011 ∧ ¬ (funct7 = 0b0000000 ∨ funct7 = 0b0100000 ∧ (funct3 = 0b000 ∨ funct3 = 0b101))) ∨
      (opcode = 0b0010011 ∧ funct3 = 0b101 ∧ funct7 ≠ 0b0000000 ∧ funct7 ≠ 0b0100000) ∨
      (opcode = 0b1100011 ∧ (funct3 = 0b010 ∨ funct3 = 0b011)) ∨
      ((opcode = 0b0000011 ∨ opcode = 0b0100011) ∧ funct3 ≠ 0b010) ∨
      (opcode = 0b1100111 ∧ funct3 ≠ 0b000)

/-- The five immediates of any word, their ranges and their evenness (30_encoding.md R153 to R157). -/
def Obligations.ImmediateFormats : Prop :=
  ∀ w : Word,
    (immI (immBitsI w) = (w.extractLsb' 20 12).signExtend 32 ∧
      -2048 ≤ (immI (immBitsI w)).toInt ∧ (immI (immBitsI w)).toInt ≤ 2047) ∧
    (immS (immBitsS w) = (w.extractLsb' 25 7 ++ w.extractLsb' 7 5 : BitVec 12).signExtend 32 ∧
      -2048 ≤ (immS (immBitsS w)).toInt ∧ (immS (immBitsS w)).toInt ≤ 2047) ∧
    (immB (immBitsB w) = (w.extractLsb' 31 1 ++ w.extractLsb' 7 1 ++ w.extractLsb' 25 6 ++ w.extractLsb' 8 4 ++ 0#1 :
        BitVec 13).signExtend 32 ∧
      -4096 ≤ (immB (immBitsB w)).toInt ∧ (immB (immBitsB w)).toInt ≤ 4094 ∧ (immB (immBitsB w)).toInt % 2 = 0) ∧
    (immU (immBitsU w) = w.extractLsb' 12 20 ++ 0#12 ∧ immU (immBitsU w) = w &&& 0xFFFFF000#32) ∧
    (immJ (immBitsJ w) = (w.extractLsb' 31 1 ++ w.extractLsb' 12 8 ++ w.extractLsb' 20 1 ++ w.extractLsb' 21 10 ++ 0#1 :
        BitVec 21).signExtend 32 ∧
      -1048576 ≤ (immJ (immBitsJ w)).toInt ∧ (immJ (immBitsJ w)).toInt ≤ 1048574 ∧ (immJ (immBitsJ w)).toInt % 2 = 0)

/-- Twelve words the spec gives in hexadecimal, one or more a family, decode to the instructions it writes beside them (the
examples of 46_alu_instructions.md to 49_unrecognized.md, for `blt` the worked example of 45_sequencer.md and
95_test_vectors.md). The encodings rest on decisions D6 and D7, and that the M word is unrecognized on D9 (entry 13). -/
def Obligations.KnownWordsDecode : Prop :=
  decode 0x123452B7#32 = .lui 5 0x12345 ∧
  decode 0x00001317#32 = .auipc 6 1 ∧
  decode 0x00500093#32 = .addi 1 0 5 ∧
  decode 0x40309293#32 = .slli 5 1 0b0100000 3 ∧
  decode 0x4040D293#32 = .srai 5 1 4 ∧
  decode 0x40110233#32 = .sub 4 2 1 ∧
  decode 0x001000EF#32 = .jal 1 2048 ∧
  decode 0x004280E7#32 = .jalr 1 5 4 ∧
  decode 0xFE20CEE3#32 = .blt 1 2 (-4) ∧
  decode 0x0082A383#32 = .lw 7 5 8 ∧
  decode 0x0062A423#32 = .sw 6 5 8 ∧
  decode 0x022081B3#32 = .unrecognized 0x022081B3#32

/-! ## The step -/

/-- A step runs the decoded instruction: when the four bytes at a fetchable program counter decode to `i`, the step is
`exec i` on that state, with nothing added around it (45_sequencer.md R451 to R454). -/
def Obligations.StepRunsDecodedInstruction : Prop :=
  ∀ (s : State) (i : Instr), s.fetchable →
    decodeBytes [Memory.readByte s.instrMemory s.pc.toNat, Memory.readByte s.instrMemory (s.pc.toNat + 1),
      Memory.readByte s.instrMemory (s.pc.toNat + 2), Memory.readByte s.instrMemory (s.pc.toNat + 3)] = .ok (i, []) →
    step s = exec i s

/-- A program counter from which no fetch succeeds stops the step before anything is decoded: misaligned first, then out
of range, the bound being DMEM_WORDS when the memory is unified (20_memory.md R111 to R114, 60_exceptions.md R701, R705;
decisions D4, D18, D19). -/
def Obligations.FetchFaultsStopTheStep : Prop :=
  ∀ s : State,
    (s.pc.toNat % 4 ≠ 0 → step s = .fault (.alignmentFault .fetch s.pc)) ∧
    (s.pc.toNat % 4 = 0 → (if s.cfg.unified then s.cfg.dmemWords else s.cfg.imemWords) ≤ s.pc.toNat / 4 →
      step s = .fault (.outOfRangeFault .fetch s.pc))

/-- The step by instructions is the step of the single-cycle datapath, whatever the state (45_sequencer.md R451). -/
def Obligations.StepIsTheDatapath : Prop :=
  ∀ s : State, step s = datapathStep s

/-- A word placed where the next fetch reads is the instruction the next step runs, and placing it changes no register,
no counter and no parameter (20_memory.md section 6, 70_reset_and_hazards.md section 2; entry 15 of the assumption log). -/
def Obligations.PlacedWordRunsNext : Prop :=
  ∀ (s : State) (w : Word), s.fetchable → s.instrMemory.wf = true →
    step (s.withFetchWord 32 w.toNat) = exec (decode w) (s.withFetchWord 32 w.toNat) ∧
    (s.withFetchWord 32 w.toNat).pc = s.pc ∧ (s.withFetchWord 32 w.toNat).regs = s.regs ∧
    (s.withFetchWord 32 w.toNat).steps = s.steps ∧ (s.withFetchWord 32 w.toNat).cfg = s.cfg

/-! ## Rules of the whole machine -/

/-- The reset state meets the invariant, for the machine of `State.reset` and for any legal parameters
(10_state.md R90; decisions D12, D13). -/
def Obligations.ResetMeetsInvariant : Prop :=
  State.reset.Inv ∧ ∀ c : Config, c.legal → (State.resetWith c).Inv

/-- Every step that completes keeps the invariant: the hardwired register's slot, both memories' canonical form and
bounds, the evenness of the program counter, and the parameters (10_state.md R51, R62; 20_memory.md R101). -/
def Obligations.StepKeepsInvariant : Prop :=
  ∀ s t : State, s.Inv → step s = .next t → t.Inv

/-- Every request of the caller keeps the invariant, whatever its operands (10_state.md R80 to R86, 20_memory.md
R120). -/
def Obligations.PortsKeepInvariant : Prop :=
  ∀ (r : Request) (s : State), s.Inv → (serve r s).2.Inv

/-- A committed step adds one to the step counter, a run of n steps adds n, and a step that faults adds nothing
(45_sequencer.md R464). That it never wraps is the model's unbounded counter, a choice: decision D14, entry 3. -/
def Obligations.StepCounterCountsCommittedSteps : Prop :=
  (∀ s t : State, step s = .next t → t.steps = s.steps + 1) ∧
  (∀ (n : Nat) (s t : State), Host.Core.run Sys2Proof.core n s = .next t → t.steps = s.steps + n) ∧
  (∀ (s t : State) (f : Fault), stepPort s = (.fault f, t) → t.steps = s.steps)

/-- A faulting step leaves pc, x1 to x31, steps and both memories exactly as they were (60_exceptions.md R704). -/
def Obligations.FaultsArePrecise : Prop :=
  ∀ (s t : State) (f : Fault), stepPort s = (.fault f, t) →
    t.pc = s.pc ∧ (∀ i, t.readReg i = s.readReg i) ∧ t.steps = s.steps ∧ t.imem = s.imem ∧ t.dmem = s.dmem

/-- A faulted CORE is stuck until the caller changes its state: every further step request answers the same fault and
leaves the same state (60_exceptions.md R707, decision D32). -/
def Obligations.FaultedCoreStaysStuck : Prop :=
  ∀ (s : State) (f : Fault) (n : Nat), step s = .fault f →
    serveAll (List.replicate n .step) s = (List.replicate n (.fault f), s)

/-- Which steps fault: a step whose own fetch fails, with that fault; after a fetch only LW (as a LOAD) and SW (as a STORE), at
the address of the decoded operands; and no step is ever refused (60_exceptions.md R701, R702, decision D19; 30_encoding.md
R177). -/
def Obligations.OnlyFetchLoadAndStoreFault : Prop :=
  (∀ (s : State) (f : Fault), step s = .fault f →
    (s.fetch = .error f ∧ (f = .alignmentFault .fetch s.pc ∨ f = .outOfRangeFault .fetch s.pc)) ∨
    ∃ w, s.fetch = .ok w ∧
      ((∃ (rd rs1 : RegIdx) (imm : BitVec 12), decode w = .lw rd rs1 imm ∧
          (f = .alignmentFault .load (s.readReg rs1 + imm.signExtend 32) ∨
            f = .outOfRangeFault .load (s.readReg rs1 + imm.signExtend 32))) ∨
       ∃ (rs2 rs1 : RegIdx) (imm : BitVec 12), decode w = .sw rs2 rs1 imm ∧
          (f = .alignmentFault .store (s.readReg rs1 + imm.signExtend 32) ∨
            f = .outOfRangeFault .store (s.readReg rs1 + imm.signExtend 32)))) ∧
  ∀ (s : State) (r : Refusal), step s ≠ .refused r

/-- No step changes the parameters; no step writes the instruction memory when the two memories are separate; and a byte
of the data memory changes only in a step of SW (20_memory.md R102, R117, R134; decision D5). -/
def Obligations.OnlyStoresChangeMemory : Prop :=
  ∀ s t : State, step s = .next t →
    t.cfg = s.cfg ∧ t.imem = s.imem ∧ (s.cfg.unified = false → t.instrMemory = s.instrMemory) ∧
    ∀ a, Memory.readByte t.dmem a ≠ Memory.readByte s.dmem a →
      ∃ w, s.fetch = .ok w ∧ (decode w).mnemonic = .SW

/-- A step changes a register only when the control signals of its word enable a register write, and then only the
word's rd, and never x0 (10_state.md R51, R55; 45_sequencer.md R462). -/
def Obligations.OnlyRdChanges : Prop :=
  ∀ (s t : State) (w : Word) (i : RegIdx), step s = .next t → s.fetch = .ok w → t.readReg i ≠ s.readReg i →
    i = w.extractLsb' 7 5 ∧ i ≠ 0#5 ∧
    (controlUnit (w.extractLsb' 0 7) (w.extractLsb' 12 3) (w.extractLsb' 25 7)).regWrite = true

/-- A committed program counter is never odd, from whatever state; when it is 2 modulo 4 the next step faults on its fetch
(10_state.md R62, 47_control_transfer.md R559; decision D23, conflict C2). -/
def Obligations.CommittedPcIsEven : Prop :=
  ∀ s t : State, step s = .next t →
    t.pc.toNat % 2 = 0 ∧ (t.pc.toNat % 4 = 2 → step t = .fault (.alignmentFault .fetch t.pc))

/-- With one memory, a store of step k is what a fetch of step k+1 at its address reads; with two, a store leaves every
fetch as it was (20_memory.md R134, 70_reset_and_hazards.md R772; decision D5). -/
def Obligations.StoresAndFetches : Prop :=
  ∀ (s t : State) (rs2 rs1 : RegIdx) (imm : BitVec 12), s.dmem.wf = true → exec (.sw rs2 rs1 imm) s = .next t →
    (s.cfg.unified = true →
      State.fetch { t with pc := s.readReg rs1 + imm.signExtend 32 } = .ok (s.readReg rs2)) ∧
    (s.cfg.unified = false → ∀ a, t.imemRead a = s.imemRead a)

/-! ## Instructions -/

/-- ADD, SUB, SLL, XOR, SRL, SRA, OR, AND: encoding, result, next pc and everything left unchanged; rd = x0 writes nothing
(46_alu_instructions.md R512 to R514, R517 to R521). -/
def Obligations.RegisterRegisterResults : Prop :=
  ∀ (rd rs1 rs2 : RegIdx) (s : State),
    let a := s.readReg rs1
    let b := s.readReg rs2
    let result (w : Word) (i : Instr) (v : Word) : Prop := decode w = i ∧ Writes s rd v (s.pc + 4) (exec i s)
    result (wordR 0b0000000 rs2 rs1 0b000 rd 0b0110011) (.add rd rs1 rs2) (a + b) ∧
    result (wordR 0b0100000 rs2 rs1 0b000 rd 0b0110011) (.sub rd rs1 rs2) (a - b) ∧
    result (wordR 0b0000000 rs2 rs1 0b001 rd 0b0110011) (.sll rd rs1 rs2)
      (BitVec.ofNat 32 (a.toNat * 2 ^ (b.toNat % 32))) ∧
    result (wordR 0b0000000 rs2 rs1 0b100 rd 0b0110011) (.xor rd rs1 rs2) (a ^^^ b) ∧
    result (wordR 0b0000000 rs2 rs1 0b101 rd 0b0110011) (.srl rd rs1 rs2)
      (BitVec.ofNat 32 (a.toNat / 2 ^ (b.toNat % 32))) ∧
    result (wordR 0b0100000 rs2 rs1 0b101 rd 0b0110011) (.sra rd rs1 rs2)
      (BitVec.ofInt 32 (a.toInt / 2 ^ (b.toNat % 32))) ∧
    result (wordR 0b0000000 rs2 rs1 0b110 rd 0b0110011) (.or rd rs1 rs2) (a ||| b) ∧
    result (wordR 0b0000000 rs2 rs1 0b111 rd 0b0110011) (.and rd rs1 rs2) (a &&& b)

/-- SLT, SLTU, SLTI, SLTIU: encoding, result, next pc and everything left unchanged. The values 1 and 0 are the spec's own
choice (46_alu_instructions.md R504, R505, R515, R516; decision D17). -/
def Obligations.SetLessThanResults : Prop :=
  ∀ (rd rs1 rs2 : RegIdx) (imm : BitVec 12) (s : State),
    let a := s.readReg rs1
    let b := s.readReg rs2
    let k := imm.signExtend 32
    let result (w : Word) (i : Instr) (v : Word) : Prop := decode w = i ∧ Writes s rd v (s.pc + 4) (exec i s)
    result (wordR 0b0000000 rs2 rs1 0b010 rd 0b0110011) (.slt rd rs1 rs2) (if a.toInt < b.toInt then 1 else 0) ∧
    result (wordR 0b0000000 rs2 rs1 0b011 rd 0b0110011) (.sltu rd rs1 rs2) (if a.toNat < b.toNat then 1 else 0) ∧
    result (wordI imm rs1 0b010 rd 0b0010011) (.slti rd rs1 imm) (if a.toInt < k.toInt then 1 else 0) ∧
    result (wordI imm rs1 0b011 rd 0b0010011) (.sltiu rd rs1 imm) (if a.toNat < k.toNat then 1 else 0)

/-- ADDI, XORI, ORI, ANDI, SLLI: encoding, result, next pc and everything left unchanged; SLLI is recognized, and shifts by
w[24:20], whatever its funct7 (46_alu_instructions.md R503, R506 to R509). -/
def Obligations.RegisterImmediateResults : Prop :=
  ∀ (rd rs1 : RegIdx) (imm : BitVec 12) (funct7 : BitVec 7) (shamt : BitVec 5) (s : State),
    let a := s.readReg rs1
    let k := imm.signExtend 32
    let result (w : Word) (i : Instr) (v : Word) : Prop := decode w = i ∧ Writes s rd v (s.pc + 4) (exec i s)
    result (wordI imm rs1 0b000 rd 0b0010011) (.addi rd rs1 imm) (a + k) ∧
    result (wordI imm rs1 0b100 rd 0b0010011) (.xori rd rs1 imm) (a ^^^ k) ∧
    result (wordI imm rs1 0b110 rd 0b0010011) (.ori rd rs1 imm) (a ||| k) ∧
    result (wordI imm rs1 0b111 rd 0b0010011) (.andi rd rs1 imm) (a &&& k) ∧
    result (wordR funct7 shamt rs1 0b001 rd 0b0010011) (.slli rd rs1 funct7 shamt)
      (BitVec.ofNat 32 (a.toNat * 2 ^ shamt.toNat))

/-- SRLI and SRAI: encoding, result, next pc and everything left unchanged. That any other funct7 is unrecognized is the
spec's own choice (46_alu_instructions.md R510, R511; decision D9). -/
def Obligations.ShiftRightImmediateResults : Prop :=
  ∀ (rd rs1 : RegIdx) (shamt : BitVec 5) (s : State),
    let a := s.readReg rs1
    let result (w : Word) (i : Instr) (v : Word) : Prop := decode w = i ∧ Writes s rd v (s.pc + 4) (exec i s)
    result (wordR 0b0000000 shamt rs1 0b101 rd 0b0010011) (.srli rd rs1 shamt)
      (BitVec.ofNat 32 (a.toNat / 2 ^ shamt.toNat)) ∧
    result (wordR 0b0100000 shamt rs1 0b101 rd 0b0010011) (.srai rd rs1 shamt)
      (BitVec.ofInt 32 (a.toInt / 2 ^ shamt.toNat)) ∧
    ∀ funct7 : BitVec 7, funct7 ≠ 0b0000000 → funct7 ≠ 0b0100000 →
      decode (wordR funct7 shamt rs1 0b101 rd 0b0010011) =
        .unrecognized (wordR funct7 shamt rs1 0b101 rd 0b0010011)

/-- LUI and AUIPC: encoding, result, next pc and everything left unchanged (46_alu_instructions.md R501, R502). -/
def Obligations.UpperImmediateResults : Prop :=
  ∀ (rd : RegIdx) (imm20 : BitVec 20) (s : State),
    (decode (imm20 ++ rd ++ 0b0110111#7) = .lui rd imm20 ∧
      Writes s rd (BitVec.ofNat 32 (imm20.toNat * 2 ^ 12)) (s.pc + 4) (exec (.lui rd imm20) s)) ∧
    (decode (imm20 ++ rd ++ 0b0010111#7) = .auipc rd imm20 ∧
      Writes s rd (s.pc + BitVec.ofNat 32 (imm20.toNat * 2 ^ 12)) (s.pc + 4) (exec (.auipc rd imm20) s))

/-- JAL: encoding, link, target and everything left unchanged (47_control_transfer.md R551). -/
def Obligations.JumpAndLinkResult : Prop :=
  ∀ (rd : RegIdx) (b20 b11 : BitVec 1) (b19to12 : BitVec 8) (b10to1 : BitVec 10) (s : State),
    let offset := offsetJ b20 b19to12 b11 b10to1
    decode (wordJ b20 b10to1 b11 b19to12 rd 0b1101111) = .jal rd offset ∧
    Writes s rd (s.pc + 4) (s.pc + offset.signExtend 32) (exec (.jal rd offset) s)

/-- JALR: encoding, link, target with bit 0 cleared and bit 1 kept, the base read before the link is written, and
everything left unchanged; another funct3 does not jump, which is the spec's own choice (47_control_transfer.md R552, R563;
decision D8). -/
def Obligations.JumpAndLinkRegisterResult : Prop :=
  ∀ (rd rs1 : RegIdx) (imm : BitVec 12) (funct3 : BitVec 3) (s : State),
    let sum := s.readReg rs1 + imm.signExtend 32
    (decode (wordI imm rs1 0b000 rd 0b1100111) = .jalr rd rs1 imm ∧
      Writes s rd (s.pc + 4) (BitVec.ofNat 32 (sum.toNat - sum.toNat % 2)) (exec (.jalr rd rs1 imm) s)) ∧
    (funct3 ≠ 0b000 →
      decode (wordI imm rs1 funct3 rd 0b1100111) = .unrecognized (wordI imm rs1 funct3 rd 0b1100111))

/-- BEQ, BNE, BLT, BGE, BLTU, BGEU: encoding, condition, target, and everything left unchanged (47_control_transfer.md R553 to
R558, 45_sequencer.md R466). -/
def Obligations.BranchResults : Prop :=
  ∀ (rs1 rs2 : RegIdx) (b12 b11 : BitVec 1) (b10to5 : BitVec 6) (b4to1 : BitVec 4) (s : State),
    let offset := offsetB b12 b11 b10to5 b4to1
    let a := s.readReg rs1
    let b := s.readReg rs2
    let taken := s.pc + offset.signExtend 32
    let word (funct3 : BitVec 3) : Word := wordB b12 b10to5 rs2 rs1 funct3 b4to1 b11 0b1100011
    (decode (word 0b000) = .beq rs1 rs2 offset ∧
      Moves s (if a = b then taken else s.pc + 4) (exec (.beq rs1 rs2 offset) s)) ∧
    (decode (word 0b001) = .bne rs1 rs2 offset ∧
      Moves s (if a = b then s.pc + 4 else taken) (exec (.bne rs1 rs2 offset) s)) ∧
    (decode (word 0b100) = .blt rs1 rs2 offset ∧
      Moves s (if a.toInt < b.toInt then taken else s.pc + 4) (exec (.blt rs1 rs2 offset) s)) ∧
    (decode (word 0b101) = .bge rs1 rs2 offset ∧
      Moves s (if b.toInt ≤ a.toInt then taken else s.pc + 4) (exec (.bge rs1 rs2 offset) s)) ∧
    (decode (word 0b110) = .bltu rs1 rs2 offset ∧
      Moves s (if a.toNat < b.toNat then taken else s.pc + 4) (exec (.bltu rs1 rs2 offset) s)) ∧
    (decode (word 0b111) = .bgeu rs1 rs2 offset ∧
      Moves s (if b.toNat ≤ a.toNat then taken else s.pc + 4) (exec (.bgeu rs1 rs2 offset) s))

/-- LW: encoding, the loaded word, everything left unchanged, and where it faults (48_load_store.md R600). That the word is
the four bytes at its address in little-endian order is a choice: decision D21, entry 4 (PRESUMED). -/
def Obligations.LoadWordResult : Prop :=
  ∀ (rd rs1 : RegIdx) (imm : BitVec 12) (s : State),
    let ea := effectiveAddress (s.readReg rs1) (immI imm)
    let word := Memory.readByte s.dmem (ea.toNat + 3) ++ Memory.readByte s.dmem (ea.toNat + 2) ++
      Memory.readByte s.dmem (ea.toNat + 1) ++ Memory.readByte s.dmem ea.toNat
    decode (wordI imm rs1 0b010 rd 0b0000011) = .lw rd rs1 imm ∧
    ea = s.readReg rs1 + imm.signExtend 32 ∧
    (ea.toNat % 4 = 0 → ea.toNat / 4 < s.cfg.dmemWords → Writes s rd word (s.pc + 4) (exec (.lw rd rs1 imm) s)) ∧
    (ea.toNat % 4 ≠ 0 → exec (.lw rd rs1 imm) s = .fault (.alignmentFault .load ea)) ∧
    (ea.toNat % 4 = 0 → s.cfg.dmemWords ≤ ea.toNat / 4 →
      exec (.lw rd rs1 imm) s = .fault (.outOfRangeFault .load ea))

/-- SW: encoding, the stored word, everything left unchanged, and where it faults (48_load_store.md R601). -/
def Obligations.StoreWordResult : Prop :=
  ∀ (rs2 rs1 : RegIdx) (hi : BitVec 7) (lo : BitVec 5) (s : State), s.dmem.wf = true →
    let imm : BitVec 12 := hi ++ lo
    let ea := effectiveAddress (s.readReg rs1) (immS imm)
    decode (wordS hi rs2 rs1 0b010 lo 0b0100011) = .sw rs2 rs1 imm ∧
    ea = s.readReg rs1 + imm.signExtend 32 ∧
    (ea.toNat % 4 = 0 → ea.toNat / 4 < s.cfg.dmemWords →
      Stores s ea (s.readReg rs2) (s.pc + 4) (exec (.sw rs2 rs1 imm) s)) ∧
    (ea.toNat % 4 ≠ 0 → exec (.sw rs2 rs1 imm) s = .fault (.alignmentFault .store ea)) ∧
    (ea.toNat % 4 = 0 → s.cfg.dmemWords ≤ ea.toNat / 4 →
      exec (.sw rs2 rs1 imm) s = .fault (.outOfRangeFault .store ea))

/-- An unrecognized word is a no-op: pc + 4 and one more step, nothing else, whatever the word, exactly as `addi x0,x0,0`
(49_unrecognized.md R650, R664; that it is no fault is the spec's own choice, decision D10). -/
def Obligations.UnrecognizedIsNoOp : Prop :=
  ∀ (w : Word) (s : State),
    Moves s (s.pc + 4) (exec (.unrecognized w) s) ∧ exec (.unrecognized w) s = exec (.addi 0 0 0) s

/-- The named groups of 49_unrecognized.md section 2 are no-ops: M (OP with funct7 0000001), F, CSR and every other SYSTEM word,
MISC-MEM, AMO, sub-word loads and stores, words whose low bits are not 11, and the custom opcodes (R652 to R663; decisions
D8, D10). -/
def Obligations.NamedGroupsAreNoOps : Prop :=
  ∀ (s : State) (w : Word), s.fetch = .ok w →
    (let opcode := w.extractLsb' 0 7
     let funct3 := w.extractLsb' 12 3
     (opcode = 0b0110011 ∧ w.extractLsb' 25 7 = 0b0000001) ∨
     opcode ∈ [0b0000111, 0b0100111, 0b1010011, 0b1000011, 0b1000111, 0b1001011, 0b1001111] ∨
     opcode = 0b1110011 ∨ opcode = 0b0001111 ∨ opcode = 0b0101111 ∨
     ((opcode = 0b0000011 ∨ opcode = 0b0100011) ∧ funct3 ≠ 0b010) ∨
     w.extractLsb' 0 2 ≠ 0b11 ∨
     opcode ∈ [0b0001011, 0b0101011, 0b1011011, 0b1111011, 0b0111111] ∨ w.extractLsb' 0 6 = 0b011111) →
    Moves s (s.pc + 4) (step s)

/-! ## Registers and memory -/

/-- The register file: x0 reads zero, a write is read back, a write to x0 does nothing, and no other register changes
(10_state.md R51 to R53). -/
def Obligations.RegisterFileContract : Prop :=
  ∀ (s : State) (i j : RegIdx) (v : Word),
    s.readReg 0 = 0 ∧ (s.writeReg i v).readReg 0 = 0 ∧
    (i ≠ 0 → (s.writeReg i v).readReg i = v) ∧ (j ≠ i → (s.writeReg i v).readReg j = s.readReg j) ∧
    s.writeReg 0 v = s

/-- The register port: an index 0 to 31 reads and writes that register, any other faults and changes nothing
(10_state.md R54, R83; decision D35). -/
def Obligations.RegisterPortChecksIndex : Prop :=
  ∀ (s : State) (index v : Word),
    (index.toNat < 32 →
      serve (.readRegister index) s = (.value (s.readReg (index.setWidth 5)), s) ∧
      serve (.writeRegister index v) s = (.ok, s.writeReg (index.setWidth 5) v)) ∧
    (32 ≤ index.toNat →
      serve (.readRegister index) s = (.fault (.outOfRangeFault .register index), s) ∧
      serve (.writeRegister index v) s = (.fault (.outOfRangeFault .register index), s))

/-- A data load after a data store: the same cell gives the stored word, every other address answers as before, fault or
word (20_memory.md R110, R117, R130). -/
def Obligations.LoadAfterStore : Prop :=
  ∀ (s t : State) (a v : Word), s.dmem.wf = true → s.dmemWrite a v = .ok t →
    t.dmemRead a = .ok v ∧ ∀ b, b ≠ a → t.dmemRead b = s.dmemRead b

/-- What `load_word` and `store_word` check: alignment first, then bounds, and nothing else (20_memory.md R110 to R113;
decisions D4, D18). -/
def Obligations.AccessChecks : Prop :=
  ∀ (words : Nat) (m : Memory) (x : Access) (a v : Word),
    (a.toNat % 4 ≠ 0 → loadWord words m x a = .error (.alignmentFault x a) ∧
      storeWord words m x a v = .error (.alignmentFault x a)) ∧
    (a.toNat % 4 = 0 → words ≤ a.toNat / 4 → loadWord words m x a = .error (.outOfRangeFault x a) ∧
      storeWord words m x a v = .error (.outOfRangeFault x a)) ∧
    (allowed words a → (∃ u, loadWord words m x a = .ok u) ∧ ∃ m', storeWord words m x a v = .ok m')

/-- `load_program` on the memory of the instruction role and on the data memory: each word is in its cell afterwards, every
byte of that memory outside the run and the whole of the other memory are as before; a base that is not aligned or a run
beyond the capacity faults, and the port then leaves the state as it was (20_memory.md R120, 70_reset_and_hazards.md R755;
decision D20). -/
def Obligations.LoadProgramFillsCells : Prop :=
  ∀ (s : State) (ws : List Word) (base : Word),
    let loads (r : Request) (words : Nat) (m : Memory) (filled : State → Prop) : Prop :=
      (base.toNat % 4 ≠ 0 → serve r s = (.fault (.alignmentFault .programLoad base), s)) ∧
      (base.toNat % 4 = 0 → words < base.toNat / 4 + ws.length →
        serve r s = (.fault (.outOfRangeFault .programLoad base), s)) ∧
      (m.wf = true → base.toNat % 4 = 0 → base.toNat / 4 + ws.length ≤ words →
        ∃ t, serve r s = (.ok, t) ∧ t.pc = s.pc ∧ t.regs = s.regs ∧ t.steps = s.steps ∧ t.cfg = s.cfg ∧ filled t)
    loads (.loadProgram ws base) s.instrWords s.instrMemory (fun t =>
      Fills s.instrMemory t.instrMemory base.toNat ws ∧
      (s.cfg.unified = false → t.dmem = s.dmem) ∧ (s.cfg.unified = true → t.imem = s.imem)) ∧
    loads (.loadData ws base) s.cfg.dmemWords s.dmem (fun t =>
      Fills s.dmem t.dmem base.toNat ws ∧ t.imem = s.imem)

/-- The reset port puts every piece of state at its reset value from any state; the values are the spec's own choice
(10_state.md R90; decisions D12, D13). -/
def Obligations.ResetValues : Prop :=
  ∀ s : State, (serve .reset s).1 = .ok ∧ (serve .reset s).2.pc = 0x00000000#32 ∧
    (∀ i, (serve .reset s).2.readReg i = 0#32) ∧ (serve .reset s).2.steps = 0 ∧
    (∀ a, Memory.readByte (serve .reset s).2.imem a = 0#8 ∧ Memory.readByte (serve .reset s).2.dmem a = 0#8) ∧
    (serve .reset s).2.cfg = s.cfg

/-- The snapshot shows pc, the 32 registers, register 0 as 0, and the step counter, and reading it changes nothing
(10_state.md R85). -/
def Obligations.SnapshotShowsState : Prop :=
  ∀ s : State, ∃ x, serve .snapshot s = (.snapshot x, s) ∧ x.pc = s.pc ∧ x.steps = s.steps ∧ x.regs[0] = 0#32 ∧
    ∀ (k : Nat) (hk : k < 32), x.regs[k] = s.readReg (BitVec.ofNat 5 k)

/-! ## Control unit -/

/-- The control unit gives every word the row of R201 for its instruction, and the default of R202 when it is unrecognized
(40_control_unit.md R201 to R203; decision D10). -/
def Obligations.ControlFollowsTable : Prop :=
  ∀ w : Word,
    controlUnit (w.extractLsb' 0 7) (w.extractLsb' 12 3) (w.extractLsb' 25 7) = signalsOf (decode w).mnemonic

/-- What the sequencer relies on, for every key; the six branches are BRANCH with any funct3 but 010 and 011
(40_control_unit.md R204, which marks it as derived). -/
def Obligations.ControlTableInvariants : Prop :=
  ∀ (opcode : BitVec 7) (funct3 : BitVec 3) (funct7 : BitVec 7),
    let c := controlUnit opcode funct3 funct7
    ¬ (c.memRead = true ∧ c.memWrite = true) ∧ ¬ (c.jump = true ∧ c.jalr = true) ∧
    (c.branch ≠ .none → opcode = 0b1100011 ∧ funct3 ≠ 0b010 ∧ funct3 ≠ 0b011 ∧
      c.jump = false ∧ c.jalr = false ∧ c.regWrite = false) ∧
    (c.memRead = true ↔ opcode = 0b0000011 ∧ funct3 = 0b010) ∧ (c.memRead = true → c.wbSrc = .mem) ∧
    (c.wbSrc = .link ↔ opcode = 0b1101111 ∨ opcode = 0b1100111 ∧ funct3 = 0b000)

/-! ## Bit-vector primitives and ALU -/

/-- The ripple-carry adder of any width: the sum modulo 2^n, and the carry out exactly when the sum reaches 2^n
(41_alu.md R253). -/
def Obligations.RippleCarryAdds : Prop :=
  ∀ (n : Nat) (a b : BitVec n),
    (rippleAdd a b).1.toNat = (a.toNat + b.toNat) % 2 ^ n ∧
    ((rippleAdd a b).2 = true ↔ 2 ^ n ≤ a.toNat + b.toNat)

/-- Negation of any width: (2^n - x) mod 2^n, its own inverse, 0 at 0, and 0x80000000 at 0x80000000 (41_alu.md R255). -/
def Obligations.NegationLaws : Prop :=
  (∀ (n : Nat) (x : BitVec n),
    negate x = (rippleAdd (~~~x) (BitVec.ofNat n 1)).1 ∧ (negate x).toNat = (2 ^ n - x.toNat) % 2 ^ n ∧
    negate (negate x) = x ∧ negate (0#n) = 0#n) ∧
  negate 0x80000000#32 = 0x80000000#32

/-- The three shifts of any width and any amount (41_alu.md R256). -/
def Obligations.ShiftFormulas : Prop :=
  ∀ (n : Nat) (x : BitVec n) (k : Nat),
    (shiftLeftLogical x k).toNat = x.toNat * 2 ^ k % 2 ^ n ∧ (n ≤ k → shiftLeftLogical x k = 0#n) ∧
    (shiftRightLogical x k).toNat = x.toNat / 2 ^ k ∧ (n ≤ k → shiftRightLogical x k = 0#n) ∧
    shiftRightArithmetic x k = BitVec.ofInt n (x.toInt / 2 ^ k) ∧
    (n ≤ k + 1 → shiftRightArithmetic x k = if x.msb then BitVec.allOnes n else 0#n)

/-- ADD: the wrapped sum, N from its top bit, Z when it is zero, C exactly when the unsigned sum reaches 2^32, and V exactly
when the signed sum is not the result (41_alu.md R261, R263, R264; V is R265's, whose adder operands are the spec's own
choice, decision D15). -/
def Obligations.AluAdditionFlags : Prop :=
  ∀ a b : Word,
    let o := alu .add a b
    o.result = a + b ∧ o.flagsValid = true ∧ (o.flags.n = true ↔ 2 ^ 31 ≤ o.result.toNat) ∧
    (o.flags.z = true ↔ o.result = 0) ∧ (o.flags.c = true ↔ 2 ^ 32 ≤ a.toNat + b.toNat) ∧
    (o.flags.v = true ↔ a.toInt + b.toInt ≠ o.result.toInt)

/-- SUB: the wrapped difference and its flags on the adder's operands a and -b: C = 0 for b = 0, else C exactly when
a ≥ b unsigned; V is the signed overflow of a - b except for b = 0x80000000, where V is a's sign bit (41_alu.md R262; the
adder's operands are the spec's own choice, decision D15). -/
def Obligations.AluSubtractionFlags : Prop :=
  ∀ a b : Word,
    let o := alu .sub a b
    o.result = a - b ∧ o.flagsValid = true ∧ (o.flags.n = true ↔ 2 ^ 31 ≤ o.result.toNat) ∧
    (o.flags.z = true ↔ o.result = 0) ∧ (o.flags.c = true ↔ b ≠ 0 ∧ b.toNat ≤ a.toNat) ∧
    (b ≠ 0x80000000 → (o.flags.v = true ↔ a.toInt - b.toInt ≠ o.result.toInt)) ∧
    (b = 0x80000000 → o.flags.v = a.msb)

/-- The nine operations of the ALU port other than ADD and SUB: logic, comparison, shift by the low five bits of b, and copy,
each with `flags_valid` 0 (41_alu.md R260, R266 to R271). The comparison's values 1 and 0 and the output `flags_valid` are
the spec's own choices, decisions D17 and D16; the flags themselves are a free value, entry 8. -/
def Obligations.AluLogicShiftCopy : Prop :=
  ∀ a b : Word,
    (alu .and a b).result = a &&& b ∧ (alu .or a b).result = a ||| b ∧ (alu .xor a b).result = a ^^^ b ∧
    (alu .sll a b).result = BitVec.ofNat 32 (a.toNat * 2 ^ (b.toNat % 32)) ∧
    (alu .srl a b).result = BitVec.ofNat 32 (a.toNat / 2 ^ (b.toNat % 32)) ∧
    (alu .sra a b).result = BitVec.ofInt 32 (a.toInt / 2 ^ (b.toNat % 32)) ∧
    (alu .copyB a b).result = b ∧
    (alu .slt a b).result = (if a.toInt < b.toInt then 1 else 0) ∧
    (alu .sltu a b).result = (if a.toNat < b.toNat then 1 else 0) ∧
    ∀ op : AluOp, (alu op a b).flagsValid = true ↔ op = .add ∨ op = .sub

/-! ## Multiply-divide unit -/

/-- MULU is exact (42_mdu.md R301). -/
def Obligations.UnsignedMultiplyExact : Prop :=
  ∀ a b : Word, (mdu .mulu a b).1.toNat * 2 ^ 32 + (mdu .mulu a b).2.toNat = a.toNat * b.toNat

/-- MULS is exact, and its low word is MULU's (42_mdu.md R302 and R312, which mark it as derived). -/
def Obligations.SignedMultiplyExact : Prop :=
  ∀ a b : Word, ((mdu .muls a b).1 ++ (mdu .muls a b).2 : BitVec 64).toInt = a.toInt * b.toInt ∧
    (mdu .muls a b).2 = (mdu .mulu a b).2

/-- DIVU is the floor quotient and the remainder, all-ones and the dividend for a zero divisor (42_mdu.md R303, R304). -/
def Obligations.UnsignedDivision : Prop :=
  ∀ a b : Word,
    (b ≠ 0 → (mdu .divu a b).1.toNat = a.toNat / b.toNat ∧ (mdu .divu a b).2.toNat = a.toNat % b.toNat) ∧
    mdu .divu a 0 = (0xFFFFFFFF, a) ∧ divuLoop a 0 = (0xFFFFFFFF, a)

/-- DIVS truncates toward zero, with the remainder of the dividend's sign; -1 and the dividend for a zero divisor; the
overflow wraps to itself (42_mdu.md R305 to R307; R305's law is marked as derived, conflict C7). -/
def Obligations.SignedDivision : Prop :=
  ∀ a b : Word,
    (b ≠ 0 → ¬ (a = 0x80000000 ∧ b = 0xFFFFFFFF) →
      (mdu .divs a b).1.toInt = a.toInt.tdiv b.toInt ∧ (mdu .divs a b).2.toInt = a.toInt.tmod b.toInt) ∧
    mdu .divs a 0 = (0xFFFFFFFF, a) ∧ mdu .divs 0x80000000 0xFFFFFFFF = (0x80000000, 0)

/-! ## Floating-point unit -/

/-- Unpacking: the fields, and the implicit one restored exactly when the exponent is not zero; packing the fields of a word
gives it back (43_fpu.md R353; for packing, R352, whose cutting of wide fields is the spec's own choice, D26). -/
def Obligations.FloatUnpack : Prop :=
  ∀ w : Word,
    ((fpuUnpack w).sign = true ↔ 2 ^ 31 ≤ w.toNat) ∧ (fpuUnpack w).exp.toNat = w.toNat / 2 ^ 23 % 2 ^ 8 ∧
    (fpuUnpack w).sig.toNat = w.toNat % 2 ^ 23 + (if w.toNat / 2 ^ 23 % 2 ^ 8 = 0 then 0 else 2 ^ 23) ∧
    fpuPack (w.toNat / 2 ^ 31) (w.toNat / 2 ^ 23 % 2 ^ 8) (w.toNat % 2 ^ 23) = w

/-- FADD without its loops: with the aligned significands and their combination m, the result is +0 when m is 0; a carry
shifts right once; otherwise m is shifted left until bit 23 is set or the exponent is used up; an exponent of 256 gives
the open parameter, any other is packed with the fraction cut to 23 bits (43_fpu.md R355 to R359; the exponent overflow of
R360 is a free value, entry 7). -/
def Obligations.FloatAddClosedForm : Prop :=
  ∀ a b : Word,
    let x := fpuUnpack a
    let y := fpuUnpack b
    let e := max x.exp.toNat y.exp.toNat
    let m1 := x.sig.toNat / 2 ^ (e - x.exp.toNat)
    let m2 := y.sig.toNat / 2 ^ (e - y.exp.toNat)
    let s := if x.sign = y.sign ∨ m2 ≤ m1 then x.sign else y.sign
    let m := if x.sign = y.sign then m1 + m2 else max m1 m2 - min m1 m2
    let shift := min e (23 - m.log2)
    fadd a b =
      if m = 0 then 0
      else if 2 ^ 24 ≤ m then
        if e = 255 then Config.faddExpOverflow a b else fpuPack s.toNat (e + 1) (m / 2 % 2 ^ 23)
      else fpuPack s.toNat (e - shift) (m * 2 ^ shift % 2 ^ 23)

/-- FSUB is FADD with the second operand's sign bit flipped; x + (-x), (-0) + (-0) and x - x are +0 (43_fpu.md R361; for the
zeros, R357). -/
def Obligations.FloatZeroAndSubtract : Prop :=
  (∀ x : Word, fadd x (x ^^^ 0x80000000) = 0) ∧ fadd 0x80000000 0x80000000 = 0 ∧
  (∀ a b : Word, fsub a b = fadd a (b ^^^ 0x80000000)) ∧ ∀ x : Word, fsub x x = 0

/-- FMUL: sign, exponent, the cut window of the product, underflow to signed zero and overflow to exponent 0xFF with a zero
fraction (43_fpu.md R362 to R364). -/
def Obligations.FloatMultiply : Prop :=
  ∀ a b : Word,
    let x := fpuUnpack a
    let y := fpuUnpack b
    let p := x.sig.toNat * y.sig.toNat
    let e : Int := x.exp.toNat + y.exp.toNat - 127 + (if 2 ^ 47 ≤ p then 1 else 0)
    let m := if 2 ^ 47 ≤ p then p / 2 ^ 24 else p / 2 ^ 23
    (fmul a b).toNat = (x.sign ^^ y.sign).toNat * 2 ^ 31 +
      (if e ≤ 0 then 0 else if 255 ≤ e then 0xFF * 2 ^ 23 else e.toNat * 2 ^ 23 + m % 2 ^ 23)

/-! ## Codec -/

/-- encode and decode: the wrapped word, the overflow flag exactly outside the 32-bit signed range, the signed value of any
width, and the round trip (44_codec.md R401 to R403). The port of a machine, whose input has a finite width of at least 33
bits, answers the same for every integer in that width, which takes in the whole 32-bit signed range and an integer beyond
each end of it; that width is the spec's open parameter (R400, decision D25) and its signed reading the model's, entry 16. -/
def Obligations.CodecRoundTrip : Prop :=
  (∀ v : Int, (codecEncode v).1 = BitVec.ofInt 32 v ∧
    ((codecEncode v).2 = true ↔ v < -2147483648 ∨ 2147483647 < v)) ∧
  (∀ (n : Nat) (x : BitVec n), codecDecode x = x.toInt) ∧
  (∀ v : Int, -2147483648 ≤ v → v ≤ 2147483647 → codecDecode (codecEncode v).1 = v) ∧
  ∀ c : Config, c.legal →
    (∀ v : Int, c.codecTakes v →
      (codecEncodePort c (BitVec.ofInt c.codecInWidth v)).1 = BitVec.ofInt 32 v ∧
      ((codecEncodePort c (BitVec.ofInt c.codecInWidth v)).2 = true ↔ v < -2147483648 ∨ 2147483647 < v)) ∧
    (∀ v : Int, -2147483649 ≤ v → v ≤ 2147483648 → c.codecTakes v)

/-- Widening: sign extension keeps the signed value and copies the top bit, zero extension keeps the unsigned value and fills
with 0, and the same width gives the vector back (44_codec.md R404, R405). -/
def Obligations.CodecWidening : Prop :=
  ∀ (n m : Nat) (x : BitVec n), n ≤ m →
    (∃ y, codecSignExtend x m = .ok y ∧ codecDecode y = codecDecode x ∧
      ∀ i, i < m → y.getLsbD i = if i < n then x.getLsbD i else x.msb) ∧
    (∃ y, codecZeroExtend x m = .ok y ∧ y.toNat = x.toNat ∧
      ∀ i, i < m → y.getLsbD i = if i < n then x.getLsbD i else false)

/-- A request to widen to fewer bits is refused at the codec port, not truncated (44_codec.md R406; decision D25). -/
def Obligations.CodecNarrowingRefused : Prop :=
  ∀ (n m : Nat) (x : BitVec n), m < n →
    codecSignExtend x m = .error (.codecNarrowing n m) ∧ codecZeroExtend x m = .error (.codecNarrowing n m)
end

