-- ==== Sys2Proof/Laws/Bits.lean ====
section
/-! SUPPORT. Lemmas about the bit-vector primitives, sign extension and the ALU's results. -/

namespace Sys2Proof.Laws

open Sys2Proof.Machine

/-! ## The ripple-carry adder -/

theorem mod_two_pow_succ_getLsbD {n : Nat} (a : BitVec n) (k : Nat) :
    a.toNat % 2 ^ (k + 1) = a.toNat % 2 ^ k + (a.getLsbD k).toNat * 2 ^ k := by
  rw [Nat.mod_pow_succ, BitVec.getLsbD, Nat.toNat_testBit, Nat.mul_comm]

theorem fullAdder_value (a b c : Bool) :
    (fullAdder a b c).1.toNat + 2 * (fullAdder a b c).2.toNat = a.toNat + b.toNat + c.toNat := by
  cases a <;> cases b <;> cases c <;> rfl

/-- What the chain has computed after k bits: sum and carry together are the sum of the operands' low k bits. -/
theorem rippleTo_value {n : Nat} (a b : BitVec n) (k : Nat) :
    (rippleTo a b k).1 + (rippleTo a b k).2.toNat * 2 ^ k = a.toNat % 2 ^ k + b.toNat % 2 ^ k := by
  induction k with
  | zero => simp [rippleTo, Nat.mod_one]
  | succ k ih =>
    have h := congrArg (· * 2 ^ k) (fullAdder_value (a.getLsbD k) (b.getLsbD k) (rippleTo a b k).2)
    simp only [Nat.add_mul] at h
    rw [mod_two_pow_succ_getLsbD, mod_two_pow_succ_getLsbD, Nat.pow_succ]
    simp only [rippleTo]
    linarith

/-- The sum bits made so far fit in k bits. -/
theorem rippleTo_lt {n : Nat} (a b : BitVec n) (k : Nat) : (rippleTo a b k).1 < 2 ^ k := by
  induction k with
  | zero => simp [rippleTo]
  | succ k ih =>
    have := Bool.toNat_le (fullAdder (a.getLsbD k) (b.getLsbD k) (rippleTo a b k).2).1
    simp only [rippleTo, Nat.pow_succ]
    nlinarith

theorem rippleAdd_fst {n : Nat} (a b : BitVec n) : (rippleAdd a b).1 = a + b := by
  have h := rippleTo_value a b n
  rw [Nat.mod_eq_of_lt a.isLt, Nat.mod_eq_of_lt b.isLt] at h
  apply BitVec.eq_of_toNat_eq
  simp only [rippleAdd, BitVec.toNat_ofNat, BitVec.toNat_add]
  rw [← h, Nat.add_mul_mod_self_right]

theorem negate_eq_neg {n : Nat} (x : BitVec n) : negate x = -x := by
  rw [negate, rippleAdd_fst, invert, BitVec.neg_eq_not_add]

/-! ## Sign extension -/

/-- XOR with the sign bit's weight adds it when the bit is clear and takes it away when the bit is set. -/
theorem xor_sign_bit (x j : Nat) (h : x < 2 * 2 ^ j) :
    x ^^^ 2 ^ j = if x < 2 ^ j then x + 2 ^ j else x - 2 ^ j := by
  have hpos : 0 < 2 ^ j := Nat.two_pow_pos j
  have hm : (x ^^^ 2 ^ j) % 2 ^ j = x % 2 ^ j := by simp [Nat.xor_mod_two_pow]
  have hd : (x ^^^ 2 ^ j) / 2 ^ j = (x / 2 ^ j) ^^^ 1 := by rw [Nat.xor_div_two_pow, Nat.div_self hpos]
  rw [← Nat.div_add_mod (x ^^^ 2 ^ j) (2 ^ j), hm, hd]
  split
  · rename_i hlt
    rw [Nat.div_eq_of_lt hlt, Nat.mod_eq_of_lt hlt]
    simp [Nat.add_comm]
  · have h1 : x / 2 ^ j = 1 := by rw [Nat.div_eq_iff hpos]; omega
    have h2 := Nat.div_add_mod x (2 ^ j)
    rw [h1] at h2 ⊢
    simp at h2 ⊢
    omega

/-- The source's sign extension is the sign extension of a bit vector (00_scope.md R12). -/
theorem signExtendWord_eq (k : Nat) (hk : 0 < k) (v : BitVec k) :
    signExtendWord k v.toNat = v.signExtend 32 := by
  obtain ⟨j, rfl⟩ : ∃ j, k = j + 1 := ⟨k - 1, by omega⟩
  have hv : v.toNat < 2 * 2 ^ j := by have := v.isLt; rw [Nat.pow_succ] at this; omega
  have hx : ((v.toNat ^^^ 2 ^ j : Nat) : Int) - (2 ^ j : Nat) = v.toInt := by
    rw [xor_sign_bit _ _ hv, BitVec.toInt_eq_toNat_cond, Nat.pow_succ]
    split <;> split <;> omega
  rw [signExtendWord, w32, Nat.mod_eq_of_lt v.isLt, Nat.add_sub_cancel, hx]
  rfl

theorem immI_eq (imm : BitVec 12) : immI imm = imm.signExtend 32 := signExtendWord_eq 12 (by omega) imm

theorem immS_eq (imm : BitVec 12) : immS imm = imm.signExtend 32 := signExtendWord_eq 12 (by omega) imm

theorem immB_eq (offset : BitVec 13) : immB offset = offset.signExtend 32 := signExtendWord_eq 13 (by omega) offset

theorem immJ_eq (offset : BitVec 21) : immJ offset = offset.signExtend 32 := signExtendWord_eq 21 (by omega) offset

/-- The low five bits of the I-immediate of a shift are its shamt (30_encoding.md R160). -/
theorem shiftAmount_immI (funct7 : BitVec 7) (shamt : BitVec 5) : shiftAmount (immI (funct7 ++ shamt)) = shamt.toNat := by
  have h : (immI (funct7 ++ shamt)).setWidth 5 = shamt := by
    rw [immI_eq]
    ext i hi
    rw [BitVec.getElem_setWidth, BitVec.getLsbD_signExtend, BitVec.getLsbD_append]
    simp [hi, show i < 12 by omega, show i < 32 by omega]
  have := congrArg BitVec.toNat h
  simpa [shiftAmount] using this

/-! ## The ALU's results -/

theorem alu_add_result (a b : Word) : (alu .add a b).result = a + b := rippleAdd_fst a b

theorem alu_sub_result (a b : Word) : (alu .sub a b).result = a - b := by
  simp only [alu, aluAdditive, rippleAdd_fst, negate_eq_neg, BitVec.sub_eq_add_neg]

@[simp] theorem alu_copyB_result (a b : Word) : (alu .copyB a b).result = b := rfl

@[simp] theorem alu_and_result (a b : Word) : (alu .and a b).result = a &&& b := rfl

@[simp] theorem alu_or_result (a b : Word) : (alu .or a b).result = a ||| b := rfl

@[simp] theorem alu_xor_result (a b : Word) : (alu .xor a b).result = a ^^^ b := rfl

@[simp] theorem alu_slt_result (a b : Word) : (alu .slt a b).result = wordOfBool (lessSigned a b) := rfl

@[simp] theorem alu_sltu_result (a b : Word) : (alu .sltu a b).result = wordOfBool (lessUnsigned a b) := rfl

@[simp] theorem alu_sll_result (a b : Word) : (alu .sll a b).result = a <<< shiftAmount b := rfl

@[simp] theorem alu_srl_result (a b : Word) : (alu .srl a b).result = a >>> shiftAmount b := rfl

@[simp] theorem alu_sra_result (a b : Word) : (alu .sra a b).result = a.sshiftRight (shiftAmount b) := rfl

end Sys2Proof.Laws
end

