-- ==== Sys2Proof/Laws/Codec.lean ====
section
/-! SUPPORT. What a codec of finite input width can be given, and that its input vector stands for the integer it was made from. -/

namespace Sys2Proof.Laws

open Sys2Proof.Machine

/-- An integer the input width takes survives being laid out in that width. -/
theorem toInt_ofInt_of_codecTakes {c : Config} {v : Int} (hc : c.legal) (hv : c.codecTakes v) :
    (BitVec.ofInt c.codecInWidth v).toInt = v := by
  have hw : 33 ≤ c.codecInWidth := hc.2.2.2.2
  obtain ⟨h1, h2⟩ := hv
  have hp : (2 : Int) ^ c.codecInWidth = 2 * 2 ^ (c.codecInWidth - 1) := by
    rw [← pow_succ']; congr 1; omega
  rw [BitVec.toInt_ofInt, Int.bmod_eq_of_le] <;> push_cast <;> omega

/-- The input width takes every integer below 2^32 in size. -/
theorem codecTakes_of_lt {c : Config} {v : Int} (hc : c.legal) (h1 : -2 ^ 32 ≤ v) (h2 : v < 2 ^ 32) : c.codecTakes v := by
  have hw : 33 ≤ c.codecInWidth := hc.2.2.2.2
  have hp : (2 : Int) ^ 32 ≤ 2 ^ (c.codecInWidth - 1) := by gcongr <;> omega
  exact ⟨by omega, by omega⟩

/-- The port answers as `encode` does for every integer its input width takes. -/
theorem codecEncodePort_ofInt {c : Config} {v : Int} (hc : c.legal) (hv : c.codecTakes v) :
    codecEncodePort c (BitVec.ofInt c.codecInWidth v) = codecEncode v :=
  congrArg codecEncode (toInt_ofInt_of_codecTakes hc hv)

end Sys2Proof.Laws
end

