-- ==== Sys2Proof/Laws/Decode.lean ====
section
/-! SUPPORT. Lemmas about the formats: the bits, fields and immediates of an encoded word, and a word put together again from its own
fields. -/

namespace Sys2Proof.Laws

/-! ## The R-format, bit by bit and field by field -/

theorem getLsbD_encodeR (funct7 : BitVec 7) (rs2 rs1 : RegIdx) (funct3 : BitVec 3) (rd : RegIdx) (opcode : BitVec 7)
    (i : Nat) : (encodeR funct7 rs2 rs1 funct3 rd opcode).getLsbD i =
      if i < 7 then opcode.getLsbD i else if i < 12 then rd.getLsbD (i - 7)
      else if i < 15 then funct3.getLsbD (i - 12) else if i < 20 then rs1.getLsbD (i - 15)
      else if i < 25 then rs2.getLsbD (i - 20) else funct7.getLsbD (i - 25) := by
  unfold encodeR
  rw [BitVec.getLsbD_append, BitVec.getLsbD_append, BitVec.getLsbD_append, BitVec.getLsbD_append, BitVec.getLsbD_append]
  simp only [Nat.sub_sub, Nat.reduceAdd]
  repeat' split
  all_goals first | rfl | omega

/-- The fields of an R-format word are the fields it was made of. -/
@[simp] theorem decodeFields_encodeR (funct7 : BitVec 7) (rs2 rs1 : RegIdx) (funct3 : BitVec 3) (rd : RegIdx)
    (opcode : BitVec 7) : decodeFields (encodeR funct7 rs2 rs1 funct3 rd opcode) =
      ⟨encodeR funct7 rs2 rs1 funct3 rd opcode, opcode, rd, rs1, rs2, funct3, funct7⟩ := by
  unfold decodeFields
  congr 1
  all_goals
    ext i hi
    rw [BitVec.getElem_extractLsb', getLsbD_encodeR]
    repeat rw [if_neg (by omega)]
    first
      | rw [if_pos (by omega)]; simp [BitVec.getLsbD_eq_getElem, hi]
      | simp [BitVec.getLsbD_eq_getElem, hi]

@[simp] theorem extract_encodeR_opcode (funct7 : BitVec 7) (rs2 rs1 : RegIdx) (funct3 : BitVec 3) (rd : RegIdx)
    (opcode : BitVec 7) : (encodeR funct7 rs2 rs1 funct3 rd opcode).extractLsb' 0 7 = opcode :=
  congrArg DecodedInstruction.opcode (decodeFields_encodeR funct7 rs2 rs1 funct3 rd opcode)

@[simp] theorem extract_encodeR_funct3 (funct7 : BitVec 7) (rs2 rs1 : RegIdx) (funct3 : BitVec 3) (rd : RegIdx)
    (opcode : BitVec 7) : (encodeR funct7 rs2 rs1 funct3 rd opcode).extractLsb' 12 3 = funct3 :=
  congrArg DecodedInstruction.funct3 (decodeFields_encodeR funct7 rs2 rs1 funct3 rd opcode)

@[simp] theorem extract_encodeR_funct7 (funct7 : BitVec 7) (rs2 rs1 : RegIdx) (funct3 : BitVec 3) (rd : RegIdx)
    (opcode : BitVec 7) : (encodeR funct7 rs2 rs1 funct3 rd opcode).extractLsb' 25 7 = funct7 :=
  congrArg DecodedInstruction.funct7 (decodeFields_encodeR funct7 rs2 rs1 funct3 rd opcode)

/-- Any word is the R-format word of its own fields. -/
theorem encodeR_fields (w : Word) :
    encodeR (w.extractLsb' 25 7) (w.extractLsb' 20 5) (w.extractLsb' 15 5) (w.extractLsb' 12 3) (w.extractLsb' 7 5)
      (w.extractLsb' 0 7) = w := by
  apply BitVec.eq_of_getLsbD_eq
  intro i hi
  have e : ∀ k, k ≤ i → k + (i - k) = i := fun k hk => by omega
  rw [getLsbD_encodeR]
  simp only [BitVec.getLsbD_extractLsb', Nat.zero_add]
  repeat' split
  all_goals simp (disch := omega) only [e, decide_eq_true, Bool.true_and]

/-! ## The other formats as the R-format -/

theorem encodeI_eq (imm : BitVec 12) (rs1 : RegIdx) (funct3 : BitVec 3) (rd : RegIdx) (opcode : BitVec 7) :
    encodeI imm rs1 funct3 rd opcode =
      encodeR (imm.extractLsb' 5 7) (imm.extractLsb' 0 5) rs1 funct3 rd opcode := by
  apply BitVec.eq_of_getLsbD_eq
  intro i hi
  rw [getLsbD_encodeR, encodeI]
  repeat rw [BitVec.getLsbD_append]
  simp only [BitVec.getLsbD_extractLsb', Nat.sub_sub, Nat.reduceAdd, Nat.zero_add]
  repeat' split
  all_goals try simp (disch := omega) only [decide_eq_true, Bool.true_and]
  all_goals first | rfl | omega | (congr 1; omega)

theorem encodeS_eq (imm : BitVec 12) (rs2 rs1 : RegIdx) (funct3 : BitVec 3) (opcode : BitVec 7) :
    encodeS imm rs2 rs1 funct3 opcode =
      encodeR (imm.extractLsb' 5 7) rs2 rs1 funct3 (imm.extractLsb' 0 5) opcode := rfl

theorem encodeB_eq (off : BitVec 13) (rs2 rs1 : RegIdx) (funct3 : BitVec 3) (opcode : BitVec 7) :
    encodeB off rs2 rs1 funct3 opcode =
      encodeR (off.extractLsb' 12 1 ++ off.extractLsb' 5 6) rs2 rs1 funct3
        (off.extractLsb' 1 4 ++ off.extractLsb' 11 1) opcode := by
  apply BitVec.eq_of_getLsbD_eq
  intro i hi
  rw [getLsbD_encodeR, encodeB]
  repeat rw [BitVec.getLsbD_append]
  simp only [BitVec.getLsbD_extractLsb', Nat.sub_sub, Nat.reduceAdd]
  repeat' split
  all_goals try simp (disch := omega) only [decide_eq_true, Bool.true_and]
  all_goals first | rfl | omega

theorem encodeU_eq (imm20 : BitVec 20) (rd : RegIdx) (opcode : BitVec 7) :
    encodeU imm20 rd opcode =
      encodeR (imm20.extractLsb' 13 7) (imm20.extractLsb' 8 5) (imm20.extractLsb' 3 5) (imm20.extractLsb' 0 3) rd
        opcode := by
  apply BitVec.eq_of_getLsbD_eq
  intro i hi
  rw [getLsbD_encodeR, encodeU]
  repeat rw [BitVec.getLsbD_append]
  simp only [BitVec.getLsbD_extractLsb', Nat.sub_sub, Nat.reduceAdd, Nat.zero_add]
  repeat' split
  all_goals try simp (disch := omega) only [decide_eq_true, Bool.true_and]
  all_goals first | rfl | omega | (congr 1; omega)

/-- The upper 20 bits of a J-format word, as the U-format holds them. -/
theorem encodeJ_eq (off : BitVec 21) (rd : RegIdx) (opcode : BitVec 7) :
    encodeJ off rd opcode =
      encodeU (off.extractLsb' 20 1 ++ off.extractLsb' 1 10 ++ off.extractLsb' 11 1 ++ off.extractLsb' 12 8) rd
        opcode := rfl

/-! ## The immediates of an encoded word -/

@[simp] theorem immBitsI_encodeR (funct7 : BitVec 7) (rs2 rs1 : RegIdx) (funct3 : BitVec 3) (rd : RegIdx)
    (opcode : BitVec 7) : immBitsI (encodeR funct7 rs2 rs1 funct3 rd opcode) = funct7 ++ rs2 := by
  apply BitVec.eq_of_getLsbD_eq
  intro i hi
  rw [immBitsI, BitVec.getLsbD_extractLsb', getLsbD_encodeR, BitVec.getLsbD_append]
  repeat' split
  all_goals try simp (disch := omega) only [decide_eq_true, Bool.true_and]
  all_goals first | rfl | omega | (congr 1; omega)

@[simp] theorem immBitsS_encodeR (funct7 : BitVec 7) (rs2 rs1 : RegIdx) (funct3 : BitVec 3) (rd : RegIdx)
    (opcode : BitVec 7) : immBitsS (encodeR funct7 rs2 rs1 funct3 rd opcode) = funct7 ++ rd := by
  have h := decodeFields_encodeR funct7 rs2 rs1 funct3 rd opcode
  exact congrArg₂ (· ++ ·) (congrArg DecodedInstruction.funct7 h) (congrArg DecodedInstruction.rd h)

/-- A 12-bit immediate is its upper seven and lower five bits. -/
theorem append_parts_12 (imm : BitVec 12) : imm.extractLsb' 5 7 ++ imm.extractLsb' 0 5 = imm := by
  apply BitVec.eq_of_getLsbD_eq
  intro i hi
  rw [BitVec.getLsbD_append, BitVec.getLsbD_extractLsb', BitVec.getLsbD_extractLsb']
  split
  all_goals try simp (disch := omega) only [decide_eq_true, Bool.true_and, Nat.zero_add]
  all_goals first | rfl | omega | (congr 1; omega)

/-- The upper 20 bits of a U-format word are its immediate. -/
@[simp] theorem immBitsU_encodeU (imm20 : BitVec 20) (rd : RegIdx) (opcode : BitVec 7) :
    immBitsU (encodeU imm20 rd opcode) = imm20 := by
  apply BitVec.eq_of_getLsbD_eq
  intro i hi
  rw [immBitsU, encodeU, BitVec.getLsbD_extractLsb', BitVec.getLsbD_append, BitVec.getLsbD_append]
  rw [if_neg (by omega), if_neg (by omega)]
  simp only [hi, decide_true, Bool.true_and]
  congr 1
  omega

/-- The B-format carries every bit of an even offset. -/
theorem immBitsB_encodeB (off : BitVec 13) (rs2 rs1 : RegIdx) (funct3 : BitVec 3) (opcode : BitVec 7)
    (h : off.getLsbD 0 = false) : immBitsB (encodeB off rs2 rs1 funct3 opcode) = off := by
  unfold immBitsB encodeB
  ext i hi
  simp only [BitVec.getElem_append, BitVec.getElem_extractLsb', BitVec.getLsbD_append, BitVec.getLsbD_extractLsb']
  have : i = 0 ∨ i = 1 ∨ i = 2 ∨ i = 3 ∨ i = 4 ∨ i = 5 ∨ i = 6 ∨ i = 7 ∨ i = 8 ∨ i = 9 ∨ i = 10 ∨ i = 11 ∨ i = 12 := by
    omega
  rcases this with rfl | rfl | rfl | rfl | rfl | rfl | rfl | rfl | rfl | rfl | rfl | rfl | rfl <;>
    simp_all [BitVec.getLsbD_eq_getElem]

/-- The J-format carries every bit of an even offset. -/
theorem immBitsJ_encodeJ (off : BitVec 21) (rd : RegIdx) (opcode : BitVec 7) (h : off.getLsbD 0 = false) :
    immBitsJ (encodeJ off rd opcode) = off := by
  unfold immBitsJ encodeJ
  ext i hi
  simp only [BitVec.getElem_append, BitVec.getElem_extractLsb', BitVec.getLsbD_append, BitVec.getLsbD_extractLsb']
  have : i = 0 ∨ i = 1 ∨ i = 2 ∨ i = 3 ∨ i = 4 ∨ i = 5 ∨ i = 6 ∨ i = 7 ∨ i = 8 ∨ i = 9 ∨ i = 10 ∨ i = 11 ∨ i = 12 ∨
      i = 13 ∨ i = 14 ∨ i = 15 ∨ i = 16 ∨ i = 17 ∨ i = 18 ∨ i = 19 ∨ i = 20 := by
    omega
  rcases this with rfl | rfl | rfl | rfl | rfl | rfl | rfl | rfl | rfl | rfl | rfl | rfl | rfl | rfl | rfl | rfl | rfl |
      rfl | rfl | rfl | rfl <;>
    simp_all [BitVec.getLsbD_eq_getElem]

/-! ## The rows of the opcode table as conditions on fields -/

/-- The bits of an equation under a mask that names whole fields. -/
theorem and_eq_iff_bits (w m p : Word) (hp : p &&& ~~~m = 0#32) :
    w &&& m = p ↔ ∀ i, m.getLsbD i = true → w.getLsbD i = p.getLsbD i := by
  constructor
  · rintro rfl i hi
    simp [hi]
  · intro h
    apply BitVec.eq_of_getLsbD_eq
    intro i hi
    cases hm : m.getLsbD i
    · have hb : (p &&& ~~~m).getLsbD i = false := by rw [hp]; simp
      rw [BitVec.getLsbD_and, BitVec.getLsbD_not, hm] at hb
      rw [BitVec.getLsbD_and, hm]
      simpa [hi] using hb
    · simp [hm, h i hm]

theorem extractLsb'_eq_iff {n : Nat} (w p : Word) (k : Nat) :
    w.extractLsb' k n = p.extractLsb' k n ↔ ∀ i, k ≤ i → i < k + n → w.getLsbD i = p.getLsbD i := by
  constructor
  · intro h i h1 h2
    have := congrArg (BitVec.getLsbD · (i - k)) h
    simpa [show i - k < n by omega, show k + (i - k) = i by omega] using this
  · intro h
    ext i hi
    simpa using h (k + i) (by omega) (by omega)

theorem mask_opcode (i : Nat) : (0x0000007F#32).getLsbD i = decide (i < 7) := by
  by_cases h : i < 32
  · have : ∀ j : Fin 32, (0x0000007F#32).getLsbD j = decide (j.val < 7) := by decide
    exact this ⟨i, h⟩
  · simp [BitVec.getLsbD_of_ge _ i (by omega : 32 ≤ i), show ¬ i < 7 by omega]

theorem mask_funct3 (i : Nat) : (0x0000707F#32).getLsbD i = decide (i < 7 ∨ 12 ≤ i ∧ i < 15) := by
  by_cases h : i < 32
  · have : ∀ j : Fin 32, (0x0000707F#32).getLsbD j = decide (j.val < 7 ∨ 12 ≤ j.val ∧ j.val < 15) := by decide
    exact this ⟨i, h⟩
  · rw [BitVec.getLsbD_of_ge _ i (by omega : 32 ≤ i)]; simp; omega

theorem mask_funct7 (i : Nat) :
    (0xFE00707F#32).getLsbD i = decide (i < 7 ∨ (12 ≤ i ∧ i < 15) ∨ (25 ≤ i ∧ i < 32)) := by
  by_cases h : i < 32
  · have : ∀ j : Fin 32, (0xFE00707F#32).getLsbD j =
        decide (j.val < 7 ∨ (12 ≤ j.val ∧ j.val < 15) ∨ (25 ≤ j.val ∧ j.val < 32)) := by decide
    exact this ⟨i, h⟩
  · rw [BitVec.getLsbD_of_ge _ i (by omega : 32 ≤ i)]; simp; omega

/-- A row keyed by the opcode alone. -/
theorem and_mask_opcode (w p : Word) (hp : p &&& 0xFFFFFF80#32 = 0#32) :
    w &&& 0x0000007F#32 = p ↔ w.extractLsb' 0 7 = p.extractLsb' 0 7 := by
  rw [and_eq_iff_bits w _ p hp, extractLsb'_eq_iff w p 0]
  simp only [mask_opcode, decide_eq_true_eq]
  exact ⟨fun h i _ h2 => h i (by omega), fun h i h2 => h i (by omega) (by omega)⟩

/-- A row keyed by the opcode and funct3. -/
theorem and_mask_funct3 (w p : Word) (hp : p &&& 0xFFFF8F80#32 = 0#32) :
    w &&& 0x0000707F#32 = p ↔
      w.extractLsb' 0 7 = p.extractLsb' 0 7 ∧ w.extractLsb' 12 3 = p.extractLsb' 12 3 := by
  rw [and_eq_iff_bits w _ p hp, extractLsb'_eq_iff w p 0, extractLsb'_eq_iff w p 12]
  simp only [mask_funct3, decide_eq_true_eq]
  exact ⟨fun h => ⟨fun i _ h2 => h i (by omega), fun i h1 h2 => h i (by omega)⟩,
    fun h i hi => hi.elim (fun h2 => h.1 i (by omega) (by omega)) (fun h2 => h.2 i h2.1 (by omega))⟩

/-- A row keyed by the opcode, funct3 and funct7. -/
theorem and_mask_funct7 (w p : Word) (hp : p &&& 0x01FF8F80#32 = 0#32) :
    w &&& 0xFE00707F#32 = p ↔
      w.extractLsb' 0 7 = p.extractLsb' 0 7 ∧ w.extractLsb' 12 3 = p.extractLsb' 12 3 ∧
        w.extractLsb' 25 7 = p.extractLsb' 25 7 := by
  rw [and_eq_iff_bits w _ p hp, extractLsb'_eq_iff w p 0, extractLsb'_eq_iff w p 12,
    extractLsb'_eq_iff w p 25]
  simp only [mask_funct7, decide_eq_true_eq]
  exact ⟨fun h => ⟨fun i _ h2 => h i (by omega), fun i h1 h2 => h i (by omega), fun i h1 h2 => h i (by omega)⟩,
    fun h i hi => by
      rcases hi with h2 | h2 | h2
      · exact h.1 i (by omega) (by omega)
      · exact h.2.1 i h2.1 (by omega)
      · exact h.2.2 i h2.1 (by omega)⟩

theorem covers_mk (m : Mnemonic) (mask p w : Word) : (OpcodeRow.mk m mask p).covers w = decide (w &&& mask = p) :=
  beq_eq_decide _ _

/-! ## Everything the decoder can answer -/

/-- The instruction a word decodes to, with the fields that select it: one case per recognized row, then the seven ways in which
a word is unrecognized (49_unrecognized.md R651). -/
inductive Decodes (w : Word) : Instr → Prop
  | lui (opcode : w.extractLsb' 0 7 = 0b0110111#7) :
    Decodes w (.lui (w.extractLsb' 7 5) (immBitsU w))
  | auipc (opcode : w.extractLsb' 0 7 = 0b0010111#7) :
    Decodes w (.auipc (w.extractLsb' 7 5) (immBitsU w))
  | addi (opcode : w.extractLsb' 0 7 = 0b0010011#7) (funct3 : w.extractLsb' 12 3 = 0b000#3) :
    Decodes w (.addi (w.extractLsb' 7 5) (w.extractLsb' 15 5) (immBitsI w))
  | slti (opcode : w.extractLsb' 0 7 = 0b0010011#7) (funct3 : w.extractLsb' 12 3 = 0b010#3) :
    Decodes w (.slti (w.extractLsb' 7 5) (w.extractLsb' 15 5) (immBitsI w))
  | sltiu (opcode : w.extractLsb' 0 7 = 0b0010011#7) (funct3 : w.extractLsb' 12 3 = 0b011#3) :
    Decodes w (.sltiu (w.extractLsb' 7 5) (w.extractLsb' 15 5) (immBitsI w))
  | xori (opcode : w.extractLsb' 0 7 = 0b0010011#7) (funct3 : w.extractLsb' 12 3 = 0b100#3) :
    Decodes w (.xori (w.extractLsb' 7 5) (w.extractLsb' 15 5) (immBitsI w))
  | ori (opcode : w.extractLsb' 0 7 = 0b0010011#7) (funct3 : w.extractLsb' 12 3 = 0b110#3) :
    Decodes w (.ori (w.extractLsb' 7 5) (w.extractLsb' 15 5) (immBitsI w))
  | andi (opcode : w.extractLsb' 0 7 = 0b0010011#7) (funct3 : w.extractLsb' 12 3 = 0b111#3) :
    Decodes w (.andi (w.extractLsb' 7 5) (w.extractLsb' 15 5) (immBitsI w))
  | slli (opcode : w.extractLsb' 0 7 = 0b0010011#7) (funct3 : w.extractLsb' 12 3 = 0b001#3) :
    Decodes w (.slli (w.extractLsb' 7 5) (w.extractLsb' 15 5) (w.extractLsb' 25 7) (w.extractLsb' 20 5))
  | srli (opcode : w.extractLsb' 0 7 = 0b0010011#7) (funct3 : w.extractLsb' 12 3 = 0b101#3)
    (funct7 : w.extractLsb' 25 7 = 0b0000000#7) :
    Decodes w (.srli (w.extractLsb' 7 5) (w.extractLsb' 15 5) (w.extractLsb' 20 5))
  | srai (opcode : w.extractLsb' 0 7 = 0b0010011#7) (funct3 : w.extractLsb' 12 3 = 0b101#3)
    (funct7 : w.extractLsb' 25 7 = 0b0100000#7) :
    Decodes w (.srai (w.extractLsb' 7 5) (w.extractLsb' 15 5) (w.extractLsb' 20 5))
  | add (opcode : w.extractLsb' 0 7 = 0b0110011#7) (funct3 : w.extractLsb' 12 3 = 0b000#3)
    (funct7 : w.extractLsb' 25 7 = 0b0000000#7) :
    Decodes w (.add (w.extractLsb' 7 5) (w.extractLsb' 15 5) (w.extractLsb' 20 5))
  | sub (opcode : w.extractLsb' 0 7 = 0b0110011#7) (funct3 : w.extractLsb' 12 3 = 0b000#3)
    (funct7 : w.extractLsb' 25 7 = 0b0100000#7) :
    Decodes w (.sub (w.extractLsb' 7 5) (w.extractLsb' 15 5) (w.extractLsb' 20 5))
  | sll (opcode : w.extractLsb' 0 7 = 0b0110011#7) (funct3 : w.extractLsb' 12 3 = 0b001#3)
    (funct7 : w.extractLsb' 25 7 = 0b0000000#7) :
    Decodes w (.sll (w.extractLsb' 7 5) (w.extractLsb' 15 5) (w.extractLsb' 20 5))
  | slt (opcode : w.extractLsb' 0 7 = 0b0110011#7) (funct3 : w.extractLsb' 12 3 = 0b010#3)
    (funct7 : w.extractLsb' 25 7 = 0b0000000#7) :
    Decodes w (.slt (w.extractLsb' 7 5) (w.extractLsb' 15 5) (w.extractLsb' 20 5))
  | sltu (opcode : w.extractLsb' 0 7 = 0b0110011#7) (funct3 : w.extractLsb' 12 3 = 0b011#3)
    (funct7 : w.extractLsb' 25 7 = 0b0000000#7) :
    Decodes w (.sltu (w.extractLsb' 7 5) (w.extractLsb' 15 5) (w.extractLsb' 20 5))
  | xor (opcode : w.extractLsb' 0 7 = 0b0110011#7) (funct3 : w.extractLsb' 12 3 = 0b100#3)
    (funct7 : w.extractLsb' 25 7 = 0b0000000#7) :
    Decodes w (.xor (w.extractLsb' 7 5) (w.extractLsb' 15 5) (w.extractLsb' 20 5))
  | srl (opcode : w.extractLsb' 0 7 = 0b0110011#7) (funct3 : w.extractLsb' 12 3 = 0b101#3)
    (funct7 : w.extractLsb' 25 7 = 0b0000000#7) :
    Decodes w (.srl (w.extractLsb' 7 5) (w.extractLsb' 15 5) (w.extractLsb' 20 5))
  | sra (opcode : w.extractLsb' 0 7 = 0b0110011#7) (funct3 : w.extractLsb' 12 3 = 0b101#3)
    (funct7 : w.extractLsb' 25 7 = 0b0100000#7) :
    Decodes w (.sra (w.extractLsb' 7 5) (w.extractLsb' 15 5) (w.extractLsb' 20 5))
  | or (opcode : w.extractLsb' 0 7 = 0b0110011#7) (funct3 : w.extractLsb' 12 3 = 0b110#3)
    (funct7 : w.extractLsb' 25 7 = 0b0000000#7) :
    Decodes w (.or (w.extractLsb' 7 5) (w.extractLsb' 15 5) (w.extractLsb' 20 5))
  | and (opcode : w.extractLsb' 0 7 = 0b0110011#7) (funct3 : w.extractLsb' 12 3 = 0b111#3)
    (funct7 : w.extractLsb' 25 7 = 0b0000000#7) :
    Decodes w (.and (w.extractLsb' 7 5) (w.extractLsb' 15 5) (w.extractLsb' 20 5))
  | jal (opcode : w.extractLsb' 0 7 = 0b1101111#7) :
    Decodes w (.jal (w.extractLsb' 7 5) (immBitsJ w))
  | jalr (opcode : w.extractLsb' 0 7 = 0b1100111#7) (funct3 : w.extractLsb' 12 3 = 0b000#3) :
    Decodes w (.jalr (w.extractLsb' 7 5) (w.extractLsb' 15 5) (immBitsI w))
  | beq (opcode : w.extractLsb' 0 7 = 0b1100011#7) (funct3 : w.extractLsb' 12 3 = 0b000#3) :
    Decodes w (.beq (w.extractLsb' 15 5) (w.extractLsb' 20 5) (immBitsB w))
  | bne (opcode : w.extractLsb' 0 7 = 0b1100011#7) (funct3 : w.extractLsb' 12 3 = 0b001#3) :
    Decodes w (.bne (w.extractLsb' 15 5) (w.extractLsb' 20 5) (immBitsB w))
  | blt (opcode : w.extractLsb' 0 7 = 0b1100011#7) (funct3 : w.extractLsb' 12 3 = 0b100#3) :
    Decodes w (.blt (w.extractLsb' 15 5) (w.extractLsb' 20 5) (immBitsB w))
  | bge (opcode : w.extractLsb' 0 7 = 0b1100011#7) (funct3 : w.extractLsb' 12 3 = 0b101#3) :
    Decodes w (.bge (w.extractLsb' 15 5) (w.extractLsb' 20 5) (immBitsB w))
  | bltu (opcode : w.extractLsb' 0 7 = 0b1100011#7) (funct3 : w.extractLsb' 12 3 = 0b110#3) :
    Decodes w (.bltu (w.extractLsb' 15 5) (w.extractLsb' 20 5) (immBitsB w))
  | bgeu (opcode : w.extractLsb' 0 7 = 0b1100011#7) (funct3 : w.extractLsb' 12 3 = 0b111#3) :
    Decodes w (.bgeu (w.extractLsb' 15 5) (w.extractLsb' 20 5) (immBitsB w))
  | lw (opcode : w.extractLsb' 0 7 = 0b0000011#7) (funct3 : w.extractLsb' 12 3 = 0b010#3) :
    Decodes w (.lw (w.extractLsb' 7 5) (w.extractLsb' 15 5) (immBitsI w))
  | sw (opcode : w.extractLsb' 0 7 = 0b0100011#7) (funct3 : w.extractLsb' 12 3 = 0b010#3) :
    Decodes w (.sw (w.extractLsb' 20 5) (w.extractLsb' 15 5) (immBitsS w))
  | jalrFunct3 (opcode : w.extractLsb' 0 7 = 0b1100111#7)
    (funct3 : w.extractLsb' 12 3 ≠ 0b000#3) : Decodes w (.unrecognized w)
  | branchFunct3 (opcode : w.extractLsb' 0 7 = 0b1100011#7)
    (funct3 : w.extractLsb' 12 3 = 0b010#3 ∨ w.extractLsb' 12 3 = 0b011#3) : Decodes w (.unrecognized w)
  | loadFunct3 (opcode : w.extractLsb' 0 7 = 0b0000011#7)
    (funct3 : w.extractLsb' 12 3 ≠ 0b010#3) : Decodes w (.unrecognized w)
  | storeFunct3 (opcode : w.extractLsb' 0 7 = 0b0100011#7)
    (funct3 : w.extractLsb' 12 3 ≠ 0b010#3) : Decodes w (.unrecognized w)
  | opImmFunct7 (opcode : w.extractLsb' 0 7 = 0b0010011#7)
    (funct3 : w.extractLsb' 12 3 = 0b101#3) (zero : w.extractLsb' 25 7 ≠ 0b0000000#7)
    (alternate : w.extractLsb' 25 7 ≠ 0b0100000#7) : Decodes w (.unrecognized w)
  | opFunct7 (opcode : w.extractLsb' 0 7 = 0b0110011#7)
    (zero : w.extractLsb' 25 7 ≠ 0b0000000#7)
    (alternate : ¬ (w.extractLsb' 25 7 = 0b0100000#7 ∧ (w.extractLsb' 12 3 = 0b000#3 ∨ w.extractLsb' 12 3 = 0b101#3))) : Decodes w (.unrecognized w)
  | opcode (lui : w.extractLsb' 0 7 ≠ 0b0110111#7) (auipc : w.extractLsb' 0 7 ≠ 0b0010111#7)
    (jal : w.extractLsb' 0 7 ≠ 0b1101111#7) (jalr : w.extractLsb' 0 7 ≠ 0b1100111#7)
    (branch : w.extractLsb' 0 7 ≠ 0b1100011#7) (load : w.extractLsb' 0 7 ≠ 0b0000011#7)
    (store : w.extractLsb' 0 7 ≠ 0b0100011#7) (opImm : w.extractLsb' 0 7 ≠ 0b0010011#7)
    (op : w.extractLsb' 0 7 ≠ 0b0110011#7) : Decodes w (.unrecognized w)

theorem funct3_cases (f : BitVec 3) :
    f = 0#3 ∨ f = 1#3 ∨ f = 2#3 ∨ f = 3#3 ∨ f = 4#3 ∨ f = 5#3 ∨ f = 6#3 ∨ f = 7#3 := by
  revert f
  decide

theorem decodeBranch_spec (w : Word) (h : w.extractLsb' 0 7 = 0b1100011#7) :
    Decodes w (decodeBranch (decodeFields w)) := by
  rcases funct3_cases (w.extractLsb' 12 3) with g | g | g | g | g | g | g | g <;>
    simp only [decodeBranch, decodeFields, g, BitVec.reduceEq, if_true, if_false]
  exacts [.beq h g, .bne h g, .branchFunct3 h (.inl g), .branchFunct3 h (.inr g), .blt h g, .bge h g, .bltu h g, .bgeu h g]

theorem decodeOpImm_spec (w : Word) (h : w.extractLsb' 0 7 = 0b0010011#7) :
    Decodes w (decodeOpImm (decodeFields w)) := by
  rcases funct3_cases (w.extractLsb' 12 3) with g | g | g | g | g | g | g | g <;>
    simp only [decodeOpImm, decodeFields, g, BitVec.reduceEq, if_true, if_false]
  · exact .addi h g
  · exact .slli h g
  · exact .slti h g
  · exact .sltiu h g
  · exact .xori h g
  · by_cases h0 : w.extractLsb' 25 7 = 0b0000000#7
    · rw [if_pos h0]; exact .srli h g h0
    by_cases h1 : w.extractLsb' 25 7 = 0b0100000#7
    · rw [if_neg h0, if_pos h1]; exact .srai h g h1
    · rw [if_neg h0, if_neg h1]; exact .opImmFunct7 h g h0 h1
  · exact .ori h g
  · exact .andi h g

theorem decodeOp_spec (w : Word) (h : w.extractLsb' 0 7 = 0b0110011#7) : Decodes w (decodeOp (decodeFields w)) := by
  by_cases h0 : w.extractLsb' 25 7 = 0b0000000#7
  · rcases funct3_cases (w.extractLsb' 12 3) with g | g | g | g | g | g | g | g <;>
      simp only [decodeOp, decodeFields, g, h0, BitVec.reduceEq, if_true, if_false]
    exacts [.add h g h0, .sll h g h0, .slt h g h0, .sltu h g h0, .xor h g h0, .srl h g h0, .or h g h0, .and h g h0]
  by_cases h1 : w.extractLsb' 25 7 = 0b0100000#7
  · by_cases g0 : w.extractLsb' 12 3 = 0b000#3
    · simp only [decodeOp, decodeFields, g0, h1, BitVec.reduceEq, if_true, if_false]; exact .sub h g0 h1
    by_cases g5 : w.extractLsb' 12 3 = 0b101#3
    · simp only [decodeOp, decodeFields, g5, h1, BitVec.reduceEq, if_true, if_false]; exact .sra h g5 h1
    · simp only [decodeOp, decodeFields, g0, g5, h1, BitVec.reduceEq, if_true, if_false]
      exact .opFunct7 h h0 fun e => e.2.elim g0 g5
  · simp only [decodeOp, decodeFields, h0, h1, if_false]
    exact .opFunct7 h h0 fun e => h1 e.1

/-- Everything the decoder can answer: take it apart with `cases` after generalizing `decode w`. -/
theorem decode_spec (w : Word) : Decodes w (decode w) := by
  unfold decode
  by_cases h0 : w.extractLsb' 0 7 = 0b0110111#7
  · simpa [decodeFields, h0] using .lui h0
  by_cases h1 : w.extractLsb' 0 7 = 0b0010111#7
  · simpa [decodeFields, h1] using .auipc h1
  by_cases h2 : w.extractLsb' 0 7 = 0b1101111#7
  · simpa [decodeFields, h2] using .jal h2
  by_cases h3 : w.extractLsb' 0 7 = 0b1100111#7
  · by_cases g : w.extractLsb' 12 3 = 0b000#3
    · simpa [decodeFields, h3, g] using .jalr h3 g
    · simpa [decodeFields, h3, g] using .jalrFunct3 h3 g
  by_cases h4 : w.extractLsb' 0 7 = 0b1100011#7
  · simpa [decodeFields, h4] using decodeBranch_spec w h4
  by_cases h5 : w.extractLsb' 0 7 = 0b0000011#7
  · by_cases g : w.extractLsb' 12 3 = 0b010#3
    · simpa [decodeFields, h5, g] using .lw h5 g
    · simpa [decodeFields, h5, g] using .loadFunct3 h5 g
  by_cases h6 : w.extractLsb' 0 7 = 0b0100011#7
  · by_cases g : w.extractLsb' 12 3 = 0b010#3
    · simpa [decodeFields, h6, g] using .sw h6 g
    · simpa [decodeFields, h6, g] using .storeFunct3 h6 g
  by_cases h7 : w.extractLsb' 0 7 = 0b0010011#7
  · simpa [decodeFields, h7] using decodeOpImm_spec w h7
  by_cases h8 : w.extractLsb' 0 7 = 0b0110011#7
  · simpa [decodeFields, h8] using decodeOp_spec w h8
  · simpa [decodeFields, h0, h1, h2, h3, h4, h5, h6, h7, h8] using .opcode h0 h1 h2 h3 h4 h5 h6 h7 h8

/-! ## A word put together again from its fields and its immediate -/

theorem encodeI_immBitsI (w : Word) :
    encodeI (immBitsI w) (w.extractLsb' 15 5) (w.extractLsb' 12 3) (w.extractLsb' 7 5) (w.extractLsb' 0 7) = w := by
  conv_rhs => rw [← encodeR_fields w]
  rw [encodeI_eq]
  have := encodeR_fields w
  generalize w.extractLsb' 15 5 = rs1 at *
  generalize w.extractLsb' 12 3 = f3 at *
  generalize w.extractLsb' 7 5 = rd at *
  generalize w.extractLsb' 0 7 = op at *
  generalize w.extractLsb' 20 5 = rs2 at *
  generalize w.extractLsb' 25 7 = f7 at *
  subst this
  rw [immBitsI_encodeR]
  congr 1
  · ext i hi
    rw [BitVec.getElem_extractLsb', BitVec.getLsbD_append, if_neg (by omega), BitVec.getLsbD_eq_getElem (by omega)]
    congr 1
    omega
  · ext i hi
    rw [BitVec.getElem_extractLsb', BitVec.getLsbD_append, if_pos (by omega), BitVec.getLsbD_eq_getElem (by omega)]
    congr 1
    omega

theorem encodeS_immBitsS (w : Word) :
    encodeS (immBitsS w) (w.extractLsb' 20 5) (w.extractLsb' 15 5) (w.extractLsb' 12 3) (w.extractLsb' 0 7) = w := by
  conv_rhs => rw [← encodeR_fields w]
  rw [encodeS_eq, immBitsS]
  congr 1
  · ext i hi
    rw [BitVec.getElem_extractLsb', BitVec.getLsbD_append, if_neg (by omega), BitVec.getLsbD_eq_getElem (by omega)]
    congr 1
    omega
  · ext i hi
    rw [BitVec.getElem_extractLsb', BitVec.getLsbD_append, if_pos (by omega), BitVec.getLsbD_eq_getElem (by omega)]
    congr 1
    omega

theorem encodeB_immBitsB (w : Word) :
    encodeB (immBitsB w) (w.extractLsb' 20 5) (w.extractLsb' 15 5) (w.extractLsb' 12 3) (w.extractLsb' 0 7) = w := by
  conv_rhs => rw [← encodeR_fields w]
  rw [encodeB_eq]
  congr 1
  · ext i hi
    unfold immBitsB
    simp only [BitVec.getElem_append, BitVec.getElem_extractLsb', BitVec.getLsbD_append, BitVec.getLsbD_extractLsb']
    have : i = 0 ∨ i = 1 ∨ i = 2 ∨ i = 3 ∨ i = 4 ∨ i = 5 ∨ i = 6 := by omega
    rcases this with rfl | rfl | rfl | rfl | rfl | rfl | rfl <;> simp [BitVec.getLsbD_eq_getElem]
  · ext i hi
    unfold immBitsB
    simp only [BitVec.getElem_append, BitVec.getElem_extractLsb', BitVec.getLsbD_append, BitVec.getLsbD_extractLsb']
    have : i = 0 ∨ i = 1 ∨ i = 2 ∨ i = 3 ∨ i = 4 := by omega
    rcases this with rfl | rfl | rfl | rfl | rfl <;> simp [BitVec.getLsbD_eq_getElem]

theorem encodeU_immBitsU (w : Word) :
    encodeU (immBitsU w) (w.extractLsb' 7 5) (w.extractLsb' 0 7) = w := by
  conv_rhs => rw [← encodeR_fields w]
  rw [encodeU_eq, immBitsU]
  congr 1 <;>
  · ext i hi
    rw [BitVec.getElem_extractLsb', BitVec.getLsbD_extractLsb', BitVec.getElem_extractLsb']
    rw [decide_eq_true (by omega), Bool.true_and]
    congr 1; omega

theorem encodeJ_immBitsJ (w : Word) :
    encodeJ (immBitsJ w) (w.extractLsb' 7 5) (w.extractLsb' 0 7) = w := by
  conv_rhs => rw [← encodeU_immBitsU w]
  rw [encodeJ_eq]
  congr 1
  ext i hi
  unfold immBitsJ immBitsU
  simp only [BitVec.getElem_append, BitVec.getElem_extractLsb', BitVec.getLsbD_append, BitVec.getLsbD_extractLsb']
  interval_cases i <;> simp [BitVec.getLsbD_eq_getElem]

end Sys2Proof.Laws
end

