-- ==== Sys2Proof/Laws/Memory.lean ====
section
/-! SUPPORT. The laws of the list form of a memory: a read after a write, the canonical form kept by every operation, and the
bounds of the listed addresses. -/

namespace Sys2Proof.Laws

open Sys2Proof.Machine

/-! ## Bytes -/

@[simp] theorem readByte_nil (a : Nat) : Memory.readByte [] a = 0#8 := rfl

theorem readByte_cons (k : Nat) (c : Byte) (m : Memory) (a : Nat) :
    Memory.readByte ((k, c) :: m) a = if k = a then c else Memory.readByte m a := rfl

/-- A canonical list holds nothing below its lower bound. -/
theorem readByte_below {m : Memory} {low a : Nat} (h : Memory.risingFrom low m) (ha : a < low) :
    Memory.readByte m a = 0#8 := by
  induction m generalizing low with
  | nil => rfl
  | cons p m ih =>
    obtain ⟨k, c⟩ := p
    simp only [Memory.risingFrom, Bool.and_eq_true, decide_eq_true_eq] at h
    rw [readByte_cons, if_neg (by omega)]
    exact ih h.2 (by omega)

theorem risingFrom_mono {m : Memory} {low low' : Nat} (h : Memory.risingFrom low m) (hl : low' ≤ low) :
    Memory.risingFrom low' m := by
  cases m with
  | nil => rfl
  | cons p m =>
    simp only [Memory.risingFrom, Bool.and_eq_true, decide_eq_true_eq] at h ⊢
    exact ⟨⟨by omega, h.1.2⟩, h.2⟩

theorem readByte_consByte {m : Memory} {k : Nat} (c : Byte) (h : Memory.risingFrom (k + 1) m) (a : Nat) :
    Memory.readByte (Memory.consByte k c m) a = if a = k then c else Memory.readByte m a := by
  unfold Memory.consByte
  split
  · rename_i hc
    split
    · rename_i ha
      rw [readByte_below h (by omega), hc]
      rfl
    · rfl
  · rw [readByte_cons]
    exact if_congr eq_comm rfl rfl

theorem risingFrom_consByte {m : Memory} {low k : Nat} (c : Byte) (hk : low ≤ k) (h : Memory.risingFrom (k + 1) m) :
    Memory.risingFrom low (Memory.consByte k c m) := by
  unfold Memory.consByte
  split
  · exact risingFrom_mono h (by omega)
  · rename_i hc
    simp only [Memory.risingFrom, Bool.and_eq_true, decide_eq_true_eq, bne_iff_ne]
    exact ⟨⟨hk, hc⟩, h⟩

/-- Everything a byte write does: the canonical form is kept, and only the byte at its address changes. -/
theorem writeByte_spec {m : Memory} {low : Nat} (a : Nat) (b : Byte) (h : Memory.risingFrom low m) :
    Memory.risingFrom (min low a) (Memory.writeByte m a b) ∧
    ∀ a', Memory.readByte (Memory.writeByte m a b) a' = if a' = a then b else Memory.readByte m a' := by
  induction m generalizing low with
  | nil => exact ⟨risingFrom_consByte b (by omega) rfl, readByte_consByte b rfl⟩
  | cons p m ih =>
    obtain ⟨k, c⟩ := p
    have hc := h
    simp only [Memory.risingFrom, Bool.and_eq_true, decide_eq_true_eq] at hc
    obtain ⟨⟨hk, hc0⟩, hm⟩ := hc
    unfold Memory.writeByte
    split
    · rename_i hak
      have hr : Memory.risingFrom (a + 1) ((k, c) :: m) := by
        simp only [Memory.risingFrom, Bool.and_eq_true, decide_eq_true_eq]
        exact ⟨⟨by omega, hc0⟩, hm⟩
      exact ⟨risingFrom_consByte b (by omega) hr, readByte_consByte b hr⟩
    · split
      · rename_i hak
        subst hak
        refine ⟨risingFrom_consByte b (by omega) hm, fun a' => ?_⟩
        rw [readByte_consByte b hm, readByte_cons]
        split
        · rfl
        · rename_i hne
          rw [if_neg (fun e => hne e.symm)]
      · rename_i h1 h2
        obtain ⟨i1, i2⟩ := ih hm
        refine ⟨?_, fun a' => ?_⟩
        · simp only [Memory.risingFrom, Bool.and_eq_true, decide_eq_true_eq]
          exact ⟨⟨by omega, hc0⟩, risingFrom_mono i1 (by omega)⟩
        · rw [readByte_cons, readByte_cons, i2]
          split <;> split <;> first | rfl | omega

theorem writeByte_wf {m : Memory} (a : Nat) (b : Byte) (h : m.wf) : (Memory.writeByte m a b).wf :=
  risingFrom_mono (writeByte_spec a b h).1 (Nat.zero_le _)

theorem readByte_writeByte {m : Memory} (a : Nat) (b : Byte) (h : m.wf) (a' : Nat) :
    Memory.readByte (Memory.writeByte m a b) a' = if a' = a then b else Memory.readByte m a' :=
  (writeByte_spec a b h).2 a'

theorem writeByte_within {m : Memory} {words : Nat} (a : Nat) (b : Byte) (ha : a < 4 * words) (h : m.within words) :
    (Memory.writeByte m a b).within words := by
  have hcons : ∀ r : Memory, r.within words → (Memory.consByte a b r).within words := by
    intro r hr
    unfold Memory.consByte
    split
    · exact hr
    · simpa [Memory.within, ha] using hr
  induction m with
  | nil => exact hcons [] h
  | cons p m ih =>
    obtain ⟨k, c⟩ := p
    have hp : k < 4 * words ∧ Memory.within m words := by simpa [Memory.within] using h
    unfold Memory.writeByte
    split
    · exact hcons _ h
    · split
      · exact hcons _ hp.2
      · simpa [Memory.within, hp.1] using ih hp.2

/-! ## Runs of bytes and words -/

theorem writeBytes_wf {m : Memory} (a : Nat) (bs : List Byte) (h : m.wf) : (Memory.writeBytes m a bs).wf := by
  induction bs generalizing m a with
  | nil => exact h
  | cons b bs ih => exact ih (a + 1) (writeByte_wf a b h)

theorem writeBytes_within {m : Memory} {words : Nat} (a : Nat) (bs : List Byte) (ha : a + bs.length ≤ 4 * words)
    (h : m.within words) : (Memory.writeBytes m a bs).within words := by
  induction bs generalizing m a with
  | nil => exact h
  | cons b bs ih =>
    simp only [List.length_cons] at ha
    exact ih (a + 1) (by omega) (writeByte_within a b (by omega) h)

theorem writeWord_wf {m : Memory} (a : Nat) (v : Word) (h : m.wf) : (Memory.writeWord m a v).wf :=
  writeBytes_wf a _ h

theorem writeWord_within {m : Memory} {words : Nat} (a : Nat) (v : Word) (ha : a + 4 ≤ 4 * words)
    (h : m.within words) : (Memory.writeWord m a v).within words :=
  writeBytes_within a _ (by simpa [bytesOfWord] using ha) h

theorem writeWords_wf {m : Memory} (a : Nat) (ws : List Word) (h : m.wf) : (Memory.writeWords m a ws).wf := by
  induction ws generalizing m a with
  | nil => exact h
  | cons w ws ih => exact ih (a + 4) (writeWord_wf a w h)

theorem writeWords_within {m : Memory} {words : Nat} (a : Nat) (ws : List Word) (ha : a + 4 * ws.length ≤ 4 * words)
    (h : m.within words) : (Memory.writeWords m a ws).within words := by
  induction ws generalizing m a with
  | nil => exact h
  | cons w ws ih =>
    simp only [List.length_cons] at ha
    exact ih (a + 4) (by omega) (writeWord_within a w (by omega) h)

/-- Everything a word write does to the bytes. -/
theorem readByte_writeWord {m : Memory} (a : Nat) (v : Word) (h : m.wf) (a' : Nat) :
    Memory.readByte (Memory.writeWord m a v) a' =
      if a' = a then v.extractLsb' 0 8
      else if a' = a + 1 then v.extractLsb' 8 8
      else if a' = a + 2 then v.extractLsb' 16 8
      else if a' = a + 3 then v.extractLsb' 24 8
      else Memory.readByte m a' := by
  have h1 := writeByte_wf a (v.extractLsb' 0 8) h
  have h2 := writeByte_wf (a + 1) (v.extractLsb' 8 8) h1
  have h3 := writeByte_wf (a + 1 + 1) (v.extractLsb' 16 8) h2
  simp only [Memory.writeWord, bytesOfWord, Memory.writeBytes]
  rw [readByte_writeByte _ _ h3, readByte_writeByte _ _ h2, readByte_writeByte _ _ h1, readByte_writeByte _ _ h]
  repeat' split
  all_goals first | rfl | omega

/-- The four bytes of a word make up the word. -/
theorem wordOfBytes_bytes (v : Word) :
    wordOfBytes (v.extractLsb' 0 8) (v.extractLsb' 8 8) (v.extractLsb' 16 8) (v.extractLsb' 24 8) = v := by
  unfold wordOfBytes
  ext i hi
  simp only [BitVec.getElem_append, BitVec.getElem_extractLsb']
  repeat' split
  all_goals
    rw [← BitVec.getLsbD_eq_getElem]
    congr 1
    omega

theorem readWord_writeWord_self {m : Memory} (a : Nat) (v : Word) (h : m.wf) :
    Memory.readWord (Memory.writeWord m a v) a = v := by
  simp only [Memory.readWord, readByte_writeWord a v h]
  simpa using wordOfBytes_bytes v

theorem readWord_writeWord_ne {m : Memory} (a a' : Nat) (v : Word) (h : m.wf) (hd : a' + 4 ≤ a ∨ a + 4 ≤ a') :
    Memory.readWord (Memory.writeWord m a v) a' = Memory.readWord m a' := by
  simp only [Memory.readWord, readByte_writeWord a v h]
  repeat rw [if_neg (by omega)]

/-- A run of words changes no byte outside it. -/
theorem readByte_writeWords {m : Memory} (a : Nat) (ws : List Word) (h : m.wf) (b : Nat)
    (hb : b < a ∨ a + 4 * ws.length ≤ b) :
    Memory.readByte (Memory.writeWords m a ws) b = Memory.readByte m b := by
  induction ws generalizing m a with
  | nil => rfl
  | cons w ws ih =>
    simp only [List.length_cons] at hb
    rw [Memory.writeWords, ih (a + 4) (writeWord_wf a w h) (by omega), readByte_writeWord _ _ h]
    repeat rw [if_neg (by omega)]

/-- Each word of a run is read back from its own cell. -/
theorem readWord_writeWords {m : Memory} (a : Nat) (ws : List Word) (h : m.wf) (k : Nat) (hk : k < ws.length) :
    Memory.readWord (Memory.writeWords m a ws) (a + 4 * k) = ws[k] := by
  induction ws generalizing m a k with
  | nil => simp at hk
  | cons w ws ih =>
    cases k with
    | zero =>
      rw [Memory.writeWords]
      have := fun b hb => readByte_writeWords (a + 4) ws (writeWord_wf a w h) b hb
      simp only [Memory.readWord]
      rw [this _ (by omega), this _ (by omega), this _ (by omega), this _ (by omega)]
      exact readWord_writeWord_self a w h
    | succ k =>
      have := ih (a + 4) (writeWord_wf a w h) k (by simpa using hk)
      rw [show a + 4 * (k + 1) = a + 4 + 4 * k by omega]
      simpa [Memory.writeWords] using this

end Sys2Proof.Laws
end

