-- ==== Sys2Proof/Laws/State.lean ====
section
/-! SUPPORT. One lemma per field per update of a state, so that no proof unfolds a record update, and the register file's
reads after writes. -/

namespace Sys2Proof.Laws

open Sys2Proof.Machine

/-! ## commit -/

@[simp] theorem commit_pc (s : State) (next : Word) : (s.commit next).pc = next := rfl
@[simp] theorem commit_regs (s : State) (next : Word) : (s.commit next).regs = s.regs := rfl
@[simp] theorem commit_steps (s : State) (next : Word) : (s.commit next).steps = s.steps + 1 := rfl
@[simp] theorem commit_imem (s : State) (next : Word) : (s.commit next).imem = s.imem := rfl
@[simp] theorem commit_dmem (s : State) (next : Word) : (s.commit next).dmem = s.dmem := rfl
@[simp] theorem commit_cfg (s : State) (next : Word) : (s.commit next).cfg = s.cfg := rfl
@[simp] theorem commit_readReg (s : State) (next : Word) (i : RegIdx) : (s.commit next).readReg i = s.readReg i := rfl

/-! ## writeReg -/

/-- A register write is a new register vector, or nothing. -/
theorem writeReg_cases (s : State) (i : RegIdx) (v : Word) :
    (i = 0#5 ∧ s.writeReg i v = s) ∨
    (i ≠ 0#5 ∧ s.writeReg i v = { s with regs := s.regs.set i.toNat v i.isLt }) := by
  by_cases h : i = 0#5
  · exact .inl ⟨h, if_pos h⟩
  · exact .inr ⟨h, if_neg h⟩

@[simp] theorem writeReg_pc (s : State) (i : RegIdx) (v : Word) : (s.writeReg i v).pc = s.pc := by
  obtain ⟨_, h⟩ | ⟨_, h⟩ := writeReg_cases s i v <;> rw [h]

@[simp] theorem writeReg_steps (s : State) (i : RegIdx) (v : Word) : (s.writeReg i v).steps = s.steps := by
  obtain ⟨_, h⟩ | ⟨_, h⟩ := writeReg_cases s i v <;> rw [h]

@[simp] theorem writeReg_imem (s : State) (i : RegIdx) (v : Word) : (s.writeReg i v).imem = s.imem := by
  obtain ⟨_, h⟩ | ⟨_, h⟩ := writeReg_cases s i v <;> rw [h]

@[simp] theorem writeReg_dmem (s : State) (i : RegIdx) (v : Word) : (s.writeReg i v).dmem = s.dmem := by
  obtain ⟨_, h⟩ | ⟨_, h⟩ := writeReg_cases s i v <;> rw [h]

@[simp] theorem writeReg_cfg (s : State) (i : RegIdx) (v : Word) : (s.writeReg i v).cfg = s.cfg := by
  obtain ⟨_, h⟩ | ⟨_, h⟩ := writeReg_cases s i v <;> rw [h]

@[simp] theorem writeReg_zero (s : State) (v : Word) : s.writeReg 0#5 v = s := rfl

@[simp] theorem readReg_zero (s : State) : s.readReg 0#5 = 0#32 := rfl

theorem readReg_writeReg_self (s : State) (i : RegIdx) (v : Word) (h : i ≠ 0#5) : (s.writeReg i v).readReg i = v := by
  simp [State.writeReg, State.readReg, h]

theorem readReg_writeReg_ne (s : State) (i j : RegIdx) (v : Word) (h : j ≠ i) :
    (s.writeReg i v).readReg j = s.readReg j := by
  have hn : i.toNat ≠ j.toNat := fun e => h (BitVec.eq_of_toNat_eq e.symm)
  obtain ⟨_, hw⟩ | ⟨_, hw⟩ := writeReg_cases s i v <;> rw [hw]
  simp only [State.readReg, Vector.getElem_set_ne _ _ hn]

/-- No register write reaches slot 0. -/
theorem writeReg_slot_zero (s : State) (i : RegIdx) (v : Word) : (s.writeReg i v).regs[0] = s.regs[0] := by
  obtain ⟨_, hw⟩ | ⟨h, hw⟩ := writeReg_cases s i v <;> rw [hw]
  have hn : i.toNat ≠ 0 := fun e => h (BitVec.eq_of_toNat_eq e)
  simp only [Vector.getElem_set_ne _ _ hn]

/-! ## withInstrMemory -/

@[simp] theorem withInstrMemory_pc (s : State) (m : Memory) : (s.withInstrMemory m).pc = s.pc := by
  rw [State.withInstrMemory]; split <;> rfl

@[simp] theorem withInstrMemory_regs (s : State) (m : Memory) : (s.withInstrMemory m).regs = s.regs := by
  rw [State.withInstrMemory]; split <;> rfl

@[simp] theorem withInstrMemory_steps (s : State) (m : Memory) : (s.withInstrMemory m).steps = s.steps := by
  rw [State.withInstrMemory]; split <;> rfl

@[simp] theorem withInstrMemory_cfg (s : State) (m : Memory) : (s.withInstrMemory m).cfg = s.cfg := by
  rw [State.withInstrMemory]; split <;> rfl

@[simp] theorem withInstrMemory_instrWords (s : State) (m : Memory) : (s.withInstrMemory m).instrWords = s.instrWords := by
  simp only [State.instrWords, withInstrMemory_cfg]

@[simp] theorem withInstrMemory_instrMemory (s : State) (m : Memory) : (s.withInstrMemory m).instrMemory = m := by
  by_cases h : s.cfg.unified = true <;> simp [State.instrMemory, State.withInstrMemory, h]

/-! ## resetWith -/

@[simp] theorem resetWith_pc (c : Config) : (State.resetWith c).pc = 0#32 := rfl
@[simp] theorem resetWith_regs (c : Config) : (State.resetWith c).regs = Vector.replicate 32 0#32 := rfl
@[simp] theorem resetWith_steps (c : Config) : (State.resetWith c).steps = 0 := rfl
@[simp] theorem resetWith_imem (c : Config) : (State.resetWith c).imem = [] := rfl
@[simp] theorem resetWith_dmem (c : Config) : (State.resetWith c).dmem = [] := rfl
@[simp] theorem resetWith_cfg (c : Config) : (State.resetWith c).cfg = c := rfl

end Sys2Proof.Laws
end

