-- ==== Sys2Proof/Laws/Ops.lean ====
section
/-! SUPPORT. One lemma per shared operation, saying once everything it can answer; later proofs cite these and do not unfold the
operations. -/

namespace Sys2Proof.Laws

open Sys2Proof.Machine

/-! ## Memory accesses -/

theorem checkAccess_cases (words : Nat) (x : Access) (a : Word) :
    (a.toNat % 4 ≠ 0 ∧ checkAccess words x a = .error (.alignmentFault x a)) ∨
    (a.toNat % 4 = 0 ∧ words ≤ a.toNat / 4 ∧ checkAccess words x a = .error (.outOfRangeFault x a)) ∨
    (a.toNat % 4 = 0 ∧ a.toNat / 4 < words ∧ checkAccess words x a = .ok ()) := by
  unfold checkAccess
  by_cases h1 : a.toNat % 4 = 0
  · by_cases h2 : words ≤ a.toNat / 4
    · exact .inr (.inl ⟨h1, h2, by rw [if_neg (by omega), if_pos h2]⟩)
    · exact .inr (.inr ⟨h1, by omega, by rw [if_neg (by omega), if_neg h2]⟩)
  · exact .inl ⟨h1, if_pos h1⟩

theorem loadWord_cases (words : Nat) (m : Memory) (x : Access) (a : Word) :
    (a.toNat % 4 ≠ 0 ∧ loadWord words m x a = .error (.alignmentFault x a)) ∨
    (a.toNat % 4 = 0 ∧ words ≤ a.toNat / 4 ∧ loadWord words m x a = .error (.outOfRangeFault x a)) ∨
    (a.toNat % 4 = 0 ∧ a.toNat / 4 < words ∧ loadWord words m x a = .ok (Memory.readWord m a.toNat)) := by
  unfold loadWord
  obtain ⟨h1, h⟩ | ⟨h1, h2, h⟩ | ⟨h1, h2, h⟩ := checkAccess_cases words x a <;> rw [h]
  · exact .inl ⟨h1, rfl⟩
  · exact .inr (.inl ⟨h1, h2, rfl⟩)
  · exact .inr (.inr ⟨h1, h2, rfl⟩)

theorem storeWord_cases (words : Nat) (m : Memory) (x : Access) (a v : Word) :
    (a.toNat % 4 ≠ 0 ∧ storeWord words m x a v = .error (.alignmentFault x a)) ∨
    (a.toNat % 4 = 0 ∧ words ≤ a.toNat / 4 ∧ storeWord words m x a v = .error (.outOfRangeFault x a)) ∨
    (a.toNat % 4 = 0 ∧ a.toNat / 4 < words ∧ storeWord words m x a v = .ok (Memory.writeWord m a.toNat v)) := by
  unfold storeWord
  obtain ⟨h1, h⟩ | ⟨h1, h2, h⟩ | ⟨h1, h2, h⟩ := checkAccess_cases words x a <;> rw [h]
  · exact .inl ⟨h1, rfl⟩
  · exact .inr (.inl ⟨h1, h2, rfl⟩)
  · exact .inr (.inr ⟨h1, h2, rfl⟩)

theorem loadProgram_cases (words : Nat) (m : Memory) (ws : List Word) (base : Word) :
    (base.toNat % 4 ≠ 0 ∧ loadProgram words m ws base = .error (.alignmentFault .programLoad base)) ∨
    (base.toNat % 4 = 0 ∧ words < base.toNat / 4 + ws.length ∧
      loadProgram words m ws base = .error (.outOfRangeFault .programLoad base)) ∨
    (base.toNat % 4 = 0 ∧ base.toNat / 4 + ws.length ≤ words ∧
      loadProgram words m ws base = .ok (Memory.writeWords m base.toNat ws)) := by
  unfold loadProgram
  by_cases h1 : base.toNat % 4 = 0
  · by_cases h2 : base.toNat / 4 + ws.length > words
    · exact .inr (.inl ⟨h1, h2, by rw [if_neg (by omega), if_pos h2]⟩)
    · exact .inr (.inr ⟨h1, by omega, by rw [if_neg (by omega), if_neg h2]⟩)
  · exact .inl ⟨h1, if_pos h1⟩

/-- A data store that succeeds changes one word of the data memory and nothing else. -/
theorem dmemWrite_ok {s t : State} {a v : Word} (h : s.dmemWrite a v = .ok t) :
    a.toNat % 4 = 0 ∧ a.toNat / 4 < s.cfg.dmemWords ∧ t = { s with dmem := Memory.writeWord s.dmem a.toNat v } := by
  unfold State.dmemWrite at h
  obtain ⟨_, e⟩ | ⟨_, _, e⟩ | ⟨h1, h2, e⟩ := storeWord_cases s.cfg.dmemWords s.dmem .store a v <;> rw [e] at h
  · cases h
  · cases h
  · cases h; exact ⟨h1, h2, rfl⟩

theorem dmemWrite_error {s : State} {a v : Word} {f : Fault} (h : s.dmemWrite a v = .error f) :
    f = .alignmentFault .store a ∨ f = .outOfRangeFault .store a := by
  unfold State.dmemWrite at h
  obtain ⟨_, e⟩ | ⟨_, _, e⟩ | ⟨_, _, e⟩ := storeWord_cases s.cfg.dmemWords s.dmem .store a v <;> rw [e] at h <;>
    cases h <;> simp

theorem dmemRead_error {s : State} {a : Word} {f : Fault} (h : s.dmemRead a = .error f) :
    f = .alignmentFault .load a ∨ f = .outOfRangeFault .load a := by
  unfold State.dmemRead at h
  obtain ⟨_, e⟩ | ⟨_, _, e⟩ | ⟨_, _, e⟩ := loadWord_cases s.cfg.dmemWords s.dmem .load a <;> rw [e] at h <;>
    cases h <;> simp

theorem fetch_error {s : State} {f : Fault} (h : s.fetch = .error f) :
    f = .alignmentFault .fetch s.pc ∨ f = .outOfRangeFault .fetch s.pc := by
  unfold State.fetch State.imemRead at h
  obtain ⟨_, e⟩ | ⟨_, _, e⟩ | ⟨_, _, e⟩ := loadWord_cases s.instrWords s.instrMemory .fetch s.pc <;> rw [e] at h <;>
    cases h <;> simp

/-- A fetch succeeds only at an aligned program counter within the capacity. -/
theorem fetch_ok {s : State} {w : Word} (h : s.fetch = .ok w) :
    s.pc.toNat % 4 = 0 ∧ s.pc.toNat / 4 < s.instrWords ∧ w = Memory.readWord s.instrMemory s.pc.toNat := by
  unfold State.fetch State.imemRead at h
  obtain ⟨_, e⟩ | ⟨_, _, e⟩ | ⟨h1, h2, e⟩ := loadWord_cases s.instrWords s.instrMemory .fetch s.pc <;> rw [e] at h
  · cases h
  · cases h
  · cases h; exact ⟨h1, h2, rfl⟩

/-! ## The ends of a step -/

theorem go_eq (next : Word) (s : State) : go next s = .next (s.commit next) := rfl

theorem writeAndGo_eq (rd : RegIdx) (v next : Word) (s : State) :
    writeAndGo rd v next s = .next ((s.writeReg rd v).commit next) := rfl

theorem aluToReg_eq (op : AluOp) (rd : RegIdx) (a b : Word) (s : State) :
    aluToReg op rd a b s = .next ((s.writeReg rd (alu op a b).result).commit (s.pc + 4#32)) := rfl

/-- A step that ends without a register write ends as one that writes x0. -/
theorem go_eq_writeAndGo (next : Word) (s : State) : go next s = writeAndGo 0#5 0#32 next s := rfl

/-! ## What execution can do -/

/-- Everything an instruction that completes does to the state: at most one register write, the store of SW, and the commit. -/
theorem exec_next_cases {i : Instr} {s t : State} (h : exec i s = .next t) :
    (∃ rd v next, t = (s.writeReg rd v).commit next) ∨
    (∃ rs2 rs1 imm ea, i = .sw rs2 rs1 imm ∧ ea = effectiveAddress (s.readReg rs1) (immS imm) ∧
      ea.toNat % 4 = 0 ∧ ea.toNat / 4 < s.cfg.dmemWords ∧
      t = State.commit { s with dmem := Memory.writeWord s.dmem ea.toNat (s.readReg rs2) } (sequentialPc s.pc)) := by
  cases i
  case lw rd rs1 imm =>
    simp only [exec, execLw] at h
    split at h
    · cases h
    · cases h; exact .inl ⟨_, _, _, rfl⟩
  case sw rs2 rs1 imm =>
    simp only [exec, execSw] at h
    split at h
    · cases h
    · rename_i u hu
      obtain ⟨h1, h2, rfl⟩ := dmemWrite_ok hu
      cases h
      exact .inr ⟨rs2, rs1, imm, _, rfl, rfl, h1, h2, rfl⟩
  all_goals
    refine .inl ?_
    cases h
    first
      | exact ⟨_, _, _, rfl⟩
      | exact ⟨0#5, 0#32, _, rfl⟩

end Sys2Proof.Laws
end

