-- ==== Sys2Proof/Laws/PerInstr.lean ====
section
/-! SUPPORT. Laws made per instruction. OwnRow: the word the encoder writes for an instruction is covered by that instruction's own row of
the opcode table and by no other row (30_encoding.md R176). -/

namespace Sys2Proof.Laws

/-- The rows that cover the encoded word are the rows of the instruction's own name; for `unrecognized` there is none. -/
def OwnRow.Statement (i : Instr) : Prop :=
  i.wellFormed = true → ∀ r ∈ opcodeTable, r.covers (encode i) = decide (r.mnemonic = i.mnemonic)

theorem OwnRow.lui (rd : RegIdx) (imm20 : BitVec 20) : OwnRow.Statement (.lui rd imm20) := fun _ => by
  simp [opcodeTable, opcodeRowsTransferMemory, opcodeRowsOpImm, opcodeRowsOp, covers_mk, and_mask_opcode, and_mask_funct3,
    and_mask_funct7, encode, encodeU_eq, Instr.mnemonic]

theorem OwnRow.auipc (rd : RegIdx) (imm20 : BitVec 20) : OwnRow.Statement (.auipc rd imm20) := fun _ => by
  simp [opcodeTable, opcodeRowsTransferMemory, opcodeRowsOpImm, opcodeRowsOp, covers_mk, and_mask_opcode, and_mask_funct3,
    and_mask_funct7, encode, encodeU_eq, Instr.mnemonic]

theorem OwnRow.addi (rd rs1 : RegIdx) (imm : BitVec 12) : OwnRow.Statement (.addi rd rs1 imm) := fun _ => by
  simp [opcodeTable, opcodeRowsTransferMemory, opcodeRowsOpImm, opcodeRowsOp, covers_mk, and_mask_opcode, and_mask_funct3,
    and_mask_funct7, encode, encodeI_eq, Instr.mnemonic]

theorem OwnRow.slti (rd rs1 : RegIdx) (imm : BitVec 12) : OwnRow.Statement (.slti rd rs1 imm) := fun _ => by
  simp [opcodeTable, opcodeRowsTransferMemory, opcodeRowsOpImm, opcodeRowsOp, covers_mk, and_mask_opcode, and_mask_funct3,
    and_mask_funct7, encode, encodeI_eq, Instr.mnemonic]

theorem OwnRow.sltiu (rd rs1 : RegIdx) (imm : BitVec 12) : OwnRow.Statement (.sltiu rd rs1 imm) := fun _ => by
  simp [opcodeTable, opcodeRowsTransferMemory, opcodeRowsOpImm, opcodeRowsOp, covers_mk, and_mask_opcode, and_mask_funct3,
    and_mask_funct7, encode, encodeI_eq, Instr.mnemonic]

theorem OwnRow.xori (rd rs1 : RegIdx) (imm : BitVec 12) : OwnRow.Statement (.xori rd rs1 imm) := fun _ => by
  simp [opcodeTable, opcodeRowsTransferMemory, opcodeRowsOpImm, opcodeRowsOp, covers_mk, and_mask_opcode, and_mask_funct3,
    and_mask_funct7, encode, encodeI_eq, Instr.mnemonic]

theorem OwnRow.ori (rd rs1 : RegIdx) (imm : BitVec 12) : OwnRow.Statement (.ori rd rs1 imm) := fun _ => by
  simp [opcodeTable, opcodeRowsTransferMemory, opcodeRowsOpImm, opcodeRowsOp, covers_mk, and_mask_opcode, and_mask_funct3,
    and_mask_funct7, encode, encodeI_eq, Instr.mnemonic]

theorem OwnRow.andi (rd rs1 : RegIdx) (imm : BitVec 12) : OwnRow.Statement (.andi rd rs1 imm) := fun _ => by
  simp [opcodeTable, opcodeRowsTransferMemory, opcodeRowsOpImm, opcodeRowsOp, covers_mk, and_mask_opcode, and_mask_funct3,
    and_mask_funct7, encode, encodeI_eq, Instr.mnemonic]

theorem OwnRow.slli (rd rs1 : RegIdx) (funct7 : BitVec 7) (shamt : BitVec 5) : OwnRow.Statement (.slli rd rs1 funct7 shamt) := fun _ => by
  simp [opcodeTable, opcodeRowsTransferMemory, opcodeRowsOpImm, opcodeRowsOp, covers_mk, and_mask_opcode, and_mask_funct3,
    and_mask_funct7, encode, Instr.mnemonic]

theorem OwnRow.srli (rd rs1 : RegIdx) (shamt : BitVec 5) : OwnRow.Statement (.srli rd rs1 shamt) := fun _ => by
  simp [opcodeTable, opcodeRowsTransferMemory, opcodeRowsOpImm, opcodeRowsOp, covers_mk, and_mask_opcode, and_mask_funct3,
    and_mask_funct7, encode, Instr.mnemonic]

theorem OwnRow.srai (rd rs1 : RegIdx) (shamt : BitVec 5) : OwnRow.Statement (.srai rd rs1 shamt) := fun _ => by
  simp [opcodeTable, opcodeRowsTransferMemory, opcodeRowsOpImm, opcodeRowsOp, covers_mk, and_mask_opcode, and_mask_funct3,
    and_mask_funct7, encode, Instr.mnemonic]

theorem OwnRow.add (rd rs1 rs2 : RegIdx) : OwnRow.Statement (.add rd rs1 rs2) := fun _ => by
  simp [opcodeTable, opcodeRowsTransferMemory, opcodeRowsOpImm, opcodeRowsOp, covers_mk, and_mask_opcode, and_mask_funct3,
    and_mask_funct7, encode, Instr.mnemonic]

theorem OwnRow.sub (rd rs1 rs2 : RegIdx) : OwnRow.Statement (.sub rd rs1 rs2) := fun _ => by
  simp [opcodeTable, opcodeRowsTransferMemory, opcodeRowsOpImm, opcodeRowsOp, covers_mk, and_mask_opcode, and_mask_funct3,
    and_mask_funct7, encode, Instr.mnemonic]

theorem OwnRow.sll (rd rs1 rs2 : RegIdx) : OwnRow.Statement (.sll rd rs1 rs2) := fun _ => by
  simp [opcodeTable, opcodeRowsTransferMemory, opcodeRowsOpImm, opcodeRowsOp, covers_mk, and_mask_opcode, and_mask_funct3,
    and_mask_funct7, encode, Instr.mnemonic]

theorem OwnRow.slt (rd rs1 rs2 : RegIdx) : OwnRow.Statement (.slt rd rs1 rs2) := fun _ => by
  simp [opcodeTable, opcodeRowsTransferMemory, opcodeRowsOpImm, opcodeRowsOp, covers_mk, and_mask_opcode, and_mask_funct3,
    and_mask_funct7, encode, Instr.mnemonic]

theorem OwnRow.sltu (rd rs1 rs2 : RegIdx) : OwnRow.Statement (.sltu rd rs1 rs2) := fun _ => by
  simp [opcodeTable, opcodeRowsTransferMemory, opcodeRowsOpImm, opcodeRowsOp, covers_mk, and_mask_opcode, and_mask_funct3,
    and_mask_funct7, encode, Instr.mnemonic]

theorem OwnRow.xor (rd rs1 rs2 : RegIdx) : OwnRow.Statement (.xor rd rs1 rs2) := fun _ => by
  simp [opcodeTable, opcodeRowsTransferMemory, opcodeRowsOpImm, opcodeRowsOp, covers_mk, and_mask_opcode, and_mask_funct3,
    and_mask_funct7, encode, Instr.mnemonic]

theorem OwnRow.srl (rd rs1 rs2 : RegIdx) : OwnRow.Statement (.srl rd rs1 rs2) := fun _ => by
  simp [opcodeTable, opcodeRowsTransferMemory, opcodeRowsOpImm, opcodeRowsOp, covers_mk, and_mask_opcode, and_mask_funct3,
    and_mask_funct7, encode, Instr.mnemonic]

theorem OwnRow.sra (rd rs1 rs2 : RegIdx) : OwnRow.Statement (.sra rd rs1 rs2) := fun _ => by
  simp [opcodeTable, opcodeRowsTransferMemory, opcodeRowsOpImm, opcodeRowsOp, covers_mk, and_mask_opcode, and_mask_funct3,
    and_mask_funct7, encode, Instr.mnemonic]

theorem OwnRow.or (rd rs1 rs2 : RegIdx) : OwnRow.Statement (.or rd rs1 rs2) := fun _ => by
  simp [opcodeTable, opcodeRowsTransferMemory, opcodeRowsOpImm, opcodeRowsOp, covers_mk, and_mask_opcode, and_mask_funct3,
    and_mask_funct7, encode, Instr.mnemonic]

theorem OwnRow.and (rd rs1 rs2 : RegIdx) : OwnRow.Statement (.and rd rs1 rs2) := fun _ => by
  simp [opcodeTable, opcodeRowsTransferMemory, opcodeRowsOpImm, opcodeRowsOp, covers_mk, and_mask_opcode, and_mask_funct3,
    and_mask_funct7, encode, Instr.mnemonic]

theorem OwnRow.jal (rd : RegIdx) (offset : BitVec 21) : OwnRow.Statement (.jal rd offset) := fun _ => by
  simp [opcodeTable, opcodeRowsTransferMemory, opcodeRowsOpImm, opcodeRowsOp, covers_mk, and_mask_opcode, and_mask_funct3,
    and_mask_funct7, encode, encodeJ_eq, encodeU_eq, Instr.mnemonic]

theorem OwnRow.jalr (rd rs1 : RegIdx) (imm : BitVec 12) : OwnRow.Statement (.jalr rd rs1 imm) := fun _ => by
  simp [opcodeTable, opcodeRowsTransferMemory, opcodeRowsOpImm, opcodeRowsOp, covers_mk, and_mask_opcode, and_mask_funct3,
    and_mask_funct7, encode, encodeI_eq, Instr.mnemonic]

theorem OwnRow.beq (rs1 rs2 : RegIdx) (offset : BitVec 13) : OwnRow.Statement (.beq rs1 rs2 offset) := fun _ => by
  simp [opcodeTable, opcodeRowsTransferMemory, opcodeRowsOpImm, opcodeRowsOp, covers_mk, and_mask_opcode, and_mask_funct3,
    and_mask_funct7, encode, encodeB_eq, Instr.mnemonic]

theorem OwnRow.bne (rs1 rs2 : RegIdx) (offset : BitVec 13) : OwnRow.Statement (.bne rs1 rs2 offset) := fun _ => by
  simp [opcodeTable, opcodeRowsTransferMemory, opcodeRowsOpImm, opcodeRowsOp, covers_mk, and_mask_opcode, and_mask_funct3,
    and_mask_funct7, encode, encodeB_eq, Instr.mnemonic]

theorem OwnRow.blt (rs1 rs2 : RegIdx) (offset : BitVec 13) : OwnRow.Statement (.blt rs1 rs2 offset) := fun _ => by
  simp [opcodeTable, opcodeRowsTransferMemory, opcodeRowsOpImm, opcodeRowsOp, covers_mk, and_mask_opcode, and_mask_funct3,
    and_mask_funct7, encode, encodeB_eq, Instr.mnemonic]

theorem OwnRow.bge (rs1 rs2 : RegIdx) (offset : BitVec 13) : OwnRow.Statement (.bge rs1 rs2 offset) := fun _ => by
  simp [opcodeTable, opcodeRowsTransferMemory, opcodeRowsOpImm, opcodeRowsOp, covers_mk, and_mask_opcode, and_mask_funct3,
    and_mask_funct7, encode, encodeB_eq, Instr.mnemonic]

theorem OwnRow.bltu (rs1 rs2 : RegIdx) (offset : BitVec 13) : OwnRow.Statement (.bltu rs1 rs2 offset) := fun _ => by
  simp [opcodeTable, opcodeRowsTransferMemory, opcodeRowsOpImm, opcodeRowsOp, covers_mk, and_mask_opcode, and_mask_funct3,
    and_mask_funct7, encode, encodeB_eq, Instr.mnemonic]

theorem OwnRow.bgeu (rs1 rs2 : RegIdx) (offset : BitVec 13) : OwnRow.Statement (.bgeu rs1 rs2 offset) := fun _ => by
  simp [opcodeTable, opcodeRowsTransferMemory, opcodeRowsOpImm, opcodeRowsOp, covers_mk, and_mask_opcode, and_mask_funct3,
    and_mask_funct7, encode, encodeB_eq, Instr.mnemonic]

theorem OwnRow.lw (rd rs1 : RegIdx) (imm : BitVec 12) : OwnRow.Statement (.lw rd rs1 imm) := fun _ => by
  simp [opcodeTable, opcodeRowsTransferMemory, opcodeRowsOpImm, opcodeRowsOp, covers_mk, and_mask_opcode, and_mask_funct3,
    and_mask_funct7, encode, encodeI_eq, Instr.mnemonic]

theorem OwnRow.sw (rs2 rs1 : RegIdx) (imm : BitVec 12) : OwnRow.Statement (.sw rs2 rs1 imm) := fun _ => by
  simp [opcodeTable, opcodeRowsTransferMemory, opcodeRowsOpImm, opcodeRowsOp, covers_mk, and_mask_opcode, and_mask_funct3,
    and_mask_funct7, encode, encodeS_eq, Instr.mnemonic]

theorem OwnRow.unrecognized (word : Word) : OwnRow.Statement (.unrecognized word) := fun h r hr => by
  have hn : ∀ r ∈ opcodeTable, r.mnemonic ≠ .UNRECOGNIZED := by decide
  have hc : ∀ r ∈ opcodeTable, ¬ r.covers word = true := by simpa [Instr.wellFormed, recognized] using h
  simpa [encode, Instr.mnemonic, hn r hr] using hc r hr

end Sys2Proof.Laws
end

