-- ==== Sys2Proof/Machine/Pseudo.lean ====
section
/-! DEFINITION. The pseudo-instructions of 30_encoding.md R181 as the instructions they expand to. "They have no meaning to the
hardware beyond the instructions they expand to": nothing here decodes or runs. Targets are byte offsets from the
pseudo-instruction's own address. -/

namespace Sys2Proof.Machine

/-- lo = sext_12(v[11:0]), as the 12 bits (R181). -/
def splitLo (v : Word) : BitVec 12 := v.extractLsb' 0 12

/-- hi = (v - lo)[31:12] (R181). -/
def splitHi (v : Word) : BitVec 20 := (v - immI (splitLo v)).extractLsb' 12 20

/-- The pseudo-instructions of R181. -/
inductive Pseudo where
  | nop
  | mv (rd rs : RegIdx)
  | not (rd rs : RegIdx)
  | neg (rd rs : RegIdx)
  | seqz (rd rs : RegIdx)
  | snez (rd rs : RegIdx)
  | sltz (rd rs : RegIdx)
  | sgtz (rd rs : RegIdx)
  | li (rd : RegIdx) (imm : Word)
  | beqz (rs : RegIdx) (t : BitVec 13)
  | bnez (rs : RegIdx) (t : BitVec 13)
  | blez (rs : RegIdx) (t : BitVec 13)
  | bgez (rs : RegIdx) (t : BitVec 13)
  | bltz (rs : RegIdx) (t : BitVec 13)
  | bgtz (rs : RegIdx) (t : BitVec 13)
  | bgt (rs rt : RegIdx) (t : BitVec 13)
  | ble (rs rt : RegIdx) (t : BitVec 13)
  | bgtu (rs rt : RegIdx) (t : BitVec 13)
  | bleu (rs rt : RegIdx) (t : BitVec 13)
  | j (t : BitVec 21)
  | jal (t : BitVec 21)
  | jr (rs : RegIdx)
  | jalr (rs : RegIdx)
  | ret
  | call (t : Word)
  | tail (t : Word)
  | la (rd : RegIdx) (t : Word)
deriving DecidableEq, Repr

/-- The expansion of R181. `li` is one instruction when the immediate fits in 12 signed bits and two otherwise. -/
def Pseudo.expand : Pseudo → List Instr
  | .nop => [.addi 0 0 0]
  | .mv rd rs => [.addi rd rs 0]
  | .not rd rs => [.xori rd rs (-1)]
  | .neg rd rs => [.sub rd 0 rs]
  | .seqz rd rs => [.sltiu rd rs 1]
  | .snez rd rs => [.sltu rd 0 rs]
  | .sltz rd rs => [.slt rd rs 0]
  | .sgtz rd rs => [.slt rd 0 rs]
  | .li rd imm =>
    if -2048 ≤ imm.toInt ∧ imm.toInt ≤ 2047 then [.addi rd 0 (splitLo imm)]
    else [.lui rd (splitHi imm), .addi rd rd (splitLo imm)]
  | .beqz rs t => [.beq rs 0 t]
  | .bnez rs t => [.bne rs 0 t]
  | .blez rs t => [.bge 0 rs t]
  | .bgez rs t => [.bge rs 0 t]
  | .bltz rs t => [.blt rs 0 t]
  | .bgtz rs t => [.blt 0 rs t]
  | .bgt rs rt t => [.blt rt rs t]
  | .ble rs rt t => [.bge rt rs t]
  | .bgtu rs rt t => [.bltu rt rs t]
  | .bleu rs rt t => [.bgeu rt rs t]
  | .j t => [.jal 0 t]
  | .jal t => [.jal 1 t]
  | .jr rs => [.jalr 0 rs 0]
  | .jalr rs => [.jalr 1 rs 0]
  | .ret => [.jalr 0 1 0]
  | .call t => [.auipc 1 (splitHi t), .jalr 1 1 (splitLo t)]
  | .tail t => [.auipc 6 (splitHi t), .jalr 0 6 (splitLo t)]
  | .la rd t => [.auipc rd (splitHi t), .addi rd rd (splitLo t)]

end Sys2Proof.Machine
end

