-- ==== Sys2Proof/Tests/Slice0.lean ====
section
/-! SUPPORT. The model's own tests. Expected values are those of the spec: the examples of 46_alu_instructions.md to
49_unrecognized.md and the vectors of 95_test_vectors.md, whose rows the comments name. -/

namespace Sys2Proof.Tests

open Sys2Proof.Machine

/-! ## Helpers -/

/-- The reset state of a machine with 64 words in each memory, as 95_test_vectors.md has it. -/
def small : State := State.resetWith ⟨64, 64, false, 33⟩

/-- The same with one memory of 64 words. -/
def smallUnified : State := State.resetWith ⟨16, 64, true, 64⟩

/-- Write registers one after another. -/
def setRegs (s : State) : List (RegIdx × Word) → State
  | [] => s
  | (i, v) :: rest => setRegs (s.writeReg i v) rest

/-- A machine of 1024 words about to run the word `w` at `pc` with the named registers. -/
def about (pc : Word) (rs : List (RegIdx × Word)) (w : Word) : State :=
  State.withFetchWord { setRegs (State.resetWith ⟨1024, 1024, false, 33⟩) rs with pc := pc } 32 w.toNat

/-- The same machine with one data word put at an address. -/
def withData (s : State) (a : Nat) (v : Word) : State := { s with dmem := Memory.writeWord s.dmem a v }

/-- The state after an outcome, if it has one. -/
def nextOf : StepOutcome → Option State
  | .next t => some t
  | _ => none

/-- The fault of an outcome, if it is one. -/
def faultOf : StepOutcome → Option Fault
  | .fault f => some f
  | _ => none

theorem next_of {o : StepOutcome} (h : (nextOf o).isSome = true) : ∃ t, o = .next t := by
  cases o with
  | next t => exact ⟨t, rfl⟩
  | fault f => cases h
  | refused r => cases h

theorem next_with {o : StepOutcome} {p : State → Bool} (h : (nextOf o).any p = true) : ∃ t, o = .next t ∧ p t = true := by
  cases o with
  | next t => exact ⟨t, rfl, h⟩
  | fault f => cases h
  | refused r => cases h

theorem fault_of {o : StepOutcome} {f : Fault} (h : faultOf o = some f) : o = .fault f := by
  cases o with
  | next t => cases h
  | fault g => cases h; rfl
  | refused r => cases h

/-- pc and one register after the step. -/
def pcAndReg (s : State) (i : RegIdx) : Option (Word × Word) := (nextOf (step s)).map fun t => (t.pc, t.readReg i)

/-! ## Well-formedness: each check refuses an ill-formed term -/

theorem test_beq_odd_offset_refused : (Instr.beq 1 2 5).wellFormed = false := by decide

theorem test_bne_odd_offset_refused : (Instr.bne 1 2 5).wellFormed = false := by decide

theorem test_blt_odd_offset_refused : (Instr.blt 1 2 5).wellFormed = false := by decide

theorem test_bge_odd_offset_refused : (Instr.bge 1 2 5).wellFormed = false := by decide

theorem test_bltu_odd_offset_refused : (Instr.bltu 1 2 5).wellFormed = false := by decide

theorem test_bgeu_odd_offset_refused : (Instr.bgeu 1 2 5).wellFormed = false := by decide

theorem test_jal_odd_offset_refused : (Instr.jal 1 2049).wellFormed = false := by decide

/-- The word of `addi x1,x0,5` is not an unrecognized one. -/
theorem test_unrecognized_of_a_recognized_word_refused : (Instr.unrecognized 0x00500093#32).wellFormed = false := by decide

theorem test_well_formed_terms : (Instr.beq 1 2 4).wellFormed = true ∧ (Instr.jal 1 2048).wellFormed = true ∧
    (Instr.unrecognized 0#32).wellFormed = true := by decide

/-! ## Decoding: one word of every constructor, written out from the formats of 30_encoding.md R152 and the rows of R170 to R175 -/

theorem test_decode_lui : decode (0b00010010001101000101#20 ++ 0b00101#5 ++ 0b0110111#7 : Word) = .lui 5 0x12345 := by decide

theorem test_decode_auipc : decode (0b00000000000000000001#20 ++ 0b00110#5 ++ 0b0010111#7 : Word) = .auipc 6 1 := by decide

theorem test_decode_addi :
    decode (0b100000000000#12 ++ 0b00001#5 ++ 0b000#3 ++ 0b00001#5 ++ 0b0010011#7 : Word) =
      .addi 1 1 (-2048) := by decide

theorem test_decode_slti :
    decode (0b111111111111#12 ++ 0b00001#5 ++ 0b010#3 ++ 0b00011#5 ++ 0b0010011#7 : Word) =
      .slti 3 1 (-1) := by decide

theorem test_decode_sltiu :
    decode (0b111111111111#12 ++ 0b00001#5 ++ 0b011#3 ++ 0b00011#5 ++ 0b0010011#7 : Word) =
      .sltiu 3 1 (-1) := by decide

theorem test_decode_xori :
    decode (0b111111111111#12 ++ 0b00001#5 ++ 0b100#3 ++ 0b00100#5 ++ 0b0010011#7 : Word) =
      .xori 4 1 (-1) := by decide

theorem test_decode_ori :
    decode (0b000011110000#12 ++ 0b00001#5 ++ 0b110#3 ++ 0b00100#5 ++ 0b0010011#7 : Word) =
      .ori 4 1 0x0F0 := by decide

theorem test_decode_andi :
    decode (0b011111111111#12 ++ 0b00001#5 ++ 0b111#3 ++ 0b00100#5 ++ 0b0010011#7 : Word) =
      .andi 4 1 0x7FF := by decide

theorem test_decode_slli :
    decode (0b0100000#7 ++ 0b00011#5 ++ 0b00001#5 ++ 0b001#3 ++ 0b00101#5 ++ 0b0010011#7 : Word) =
      .slli 5 1 0b0100000 3 := by decide

theorem test_decode_srli :
    decode (0b0000000#7 ++ 0b00100#5 ++ 0b00001#5 ++ 0b101#3 ++ 0b00101#5 ++ 0b0010011#7 : Word) =
      .srli 5 1 4 := by decide

theorem test_decode_srai :
    decode (0b0100000#7 ++ 0b00100#5 ++ 0b00001#5 ++ 0b101#3 ++ 0b00101#5 ++ 0b0010011#7 : Word) =
      .srai 5 1 4 := by decide

theorem test_decode_add :
    decode (0b0000000#7 ++ 0b00010#5 ++ 0b00001#5 ++ 0b000#3 ++ 0b00011#5 ++ 0b0110011#7 : Word) =
      .add 3 1 2 := by decide

theorem test_decode_sub :
    decode (0b0100000#7 ++ 0b00001#5 ++ 0b00010#5 ++ 0b000#3 ++ 0b00100#5 ++ 0b0110011#7 : Word) =
      .sub 4 2 1 := by decide

theorem test_decode_sll :
    decode (0b0000000#7 ++ 0b00010#5 ++ 0b00001#5 ++ 0b001#3 ++ 0b00011#5 ++ 0b0110011#7 : Word) =
      .sll 3 1 2 := by decide

theorem test_decode_slt :
    decode (0b0000000#7 ++ 0b00010#5 ++ 0b00001#5 ++ 0b010#3 ++ 0b00011#5 ++ 0b0110011#7 : Word) =
      .slt 3 1 2 := by decide

theorem test_decode_sltu :
    decode (0b0000000#7 ++ 0b00010#5 ++ 0b00001#5 ++ 0b011#3 ++ 0b00011#5 ++ 0b0110011#7 : Word) =
      .sltu 3 1 2 := by decide

theorem test_decode_xor :
    decode (0b0000000#7 ++ 0b00010#5 ++ 0b00001#5 ++ 0b100#3 ++ 0b00011#5 ++ 0b0110011#7 : Word) =
      .xor 3 1 2 := by decide

theorem test_decode_srl :
    decode (0b0000000#7 ++ 0b00010#5 ++ 0b00001#5 ++ 0b101#3 ++ 0b00011#5 ++ 0b0110011#7 : Word) =
      .srl 3 1 2 := by decide

theorem test_decode_sra :
    decode (0b0100000#7 ++ 0b00010#5 ++ 0b00001#5 ++ 0b101#3 ++ 0b00011#5 ++ 0b0110011#7 : Word) =
      .sra 3 1 2 := by decide

theorem test_decode_or :
    decode (0b0000000#7 ++ 0b00010#5 ++ 0b00001#5 ++ 0b110#3 ++ 0b00011#5 ++ 0b0110011#7 : Word) =
      .or 3 1 2 := by decide

theorem test_decode_and :
    decode (0b0000000#7 ++ 0b00010#5 ++ 0b00001#5 ++ 0b111#3 ++ 0b00011#5 ++ 0b0110011#7 : Word) =
      .and 3 1 2 := by decide

theorem test_decode_jal :
    decode (0b1#1 ++ 0b0000000000#10 ++ 0b0#1 ++ 0b00000000#8 ++ 0b00001#5 ++ 0b1101111#7 : Word) =
      .jal 1 (-1048576) := by decide

theorem test_decode_jalr :
    decode (0b000000000100#12 ++ 0b00101#5 ++ 0b000#3 ++ 0b00001#5 ++ 0b1100111#7 : Word) =
      .jalr 1 5 4 := by decide

theorem test_decode_beq :
    decode (0b1#1 ++ 0b000000#6 ++ 0b00000#5 ++ 0b00000#5 ++ 0b000#3 ++ 0b0000#4 ++ 0b0#1 ++ 0b1100011#7 : Word) =
      .beq 0 0 (-4096) := by decide

theorem test_decode_bne :
    decode (0b0#1 ++ 0b111111#6 ++ 0b00001#5 ++ 0b00000#5 ++ 0b001#3 ++ 0b1111#4 ++ 0b1#1 ++ 0b1100011#7 : Word) =
      .bne 0 1 4094 := by decide

theorem test_decode_blt :
    decode (0b1#1 ++ 0b111111#6 ++ 0b00010#5 ++ 0b00001#5 ++ 0b100#3 ++ 0b1110#4 ++ 0b1#1 ++ 0b1100011#7 : Word) =
      .blt 1 2 (-4) := by decide

theorem test_decode_bge :
    decode (0b0#1 ++ 0b000000#6 ++ 0b00010#5 ++ 0b00001#5 ++ 0b101#3 ++ 0b1000#4 ++ 0b0#1 ++ 0b1100011#7 : Word) =
      .bge 1 2 16 := by decide

theorem test_decode_bltu :
    decode (0b0#1 ++ 0b000000#6 ++ 0b00010#5 ++ 0b00001#5 ++ 0b110#3 ++ 0b1000#4 ++ 0b0#1 ++ 0b1100011#7 : Word) =
      .bltu 1 2 16 := by decide

theorem test_decode_bgeu :
    decode (0b0#1 ++ 0b000000#6 ++ 0b00010#5 ++ 0b00001#5 ++ 0b111#3 ++ 0b1000#4 ++ 0b0#1 ++ 0b1100011#7 : Word) =
      .bgeu 1 2 16 := by decide

theorem test_decode_lw :
    decode (0b000000001000#12 ++ 0b00101#5 ++ 0b010#3 ++ 0b00111#5 ++ 0b0000011#7 : Word) =
      .lw 7 5 8 := by decide

theorem test_decode_sw :
    decode (0b1111111#7 ++ 0b00110#5 ++ 0b00101#5 ++ 0b010#3 ++ 0b11100#5 ++ 0b0100011#7 : Word) =
      .sw 6 5 (-4) := by decide

theorem test_decode_unrecognized :
    decode (0b0000001#7 ++ 0b00010#5 ++ 0b00001#5 ++ 0b000#3 ++ 0b00011#5 ++ 0b0110011#7 : Word) =
      .unrecognized 0x022081B3#32 := by decide

/-- The bytes of a word, lowest address first (20_memory.md R105). -/
theorem test_decode_bytes :
    decodeBytes [0x93#8, 0x00#8, 0x50#8, 0x00#8] = .ok (.addi 1 0 5, []) ∧
    decodeBytes [0x93#8, 0x00#8, 0x50#8] = .error .fewerThanFourBytes := by decide

theorem test_decode_table_word : decodeTableWord 32 0x00500093 = some (.addi 1 0 5) := by decide

/-- A SYSTEM word, a compressed one, a zero word and an M-extension word (R651). -/
theorem test_unrecognized_opcodes : decode 0x300110F3#32 = .unrecognized 0x300110F3#32 ∧
    decode 0x00000001#32 = .unrecognized 0x00000001#32 ∧ decode 0x00000000#32 = .unrecognized 0x00000000#32 ∧
    decode 0x022081B3#32 = .unrecognized 0x022081B3#32 := by decide

/-- A shift with funct7 0000001, a branch with funct3 010, a byte load, a byte store and a jump with funct3 001 (R651). -/
theorem test_unrecognized_functs : decode 0x0240D293#32 = .unrecognized 0x0240D293#32 ∧
    decode 0x00002463#32 = .unrecognized 0x00002463#32 ∧ decode 0x00828383#32 = .unrecognized 0x00828383#32 ∧
    decode 0x00628423#32 = .unrecognized 0x00628423#32 ∧ decode 0x004290E7#32 = .unrecognized 0x004290E7#32 := by decide

/-! ## One step of every instruction: the examples of 46_alu_instructions.md to 49_unrecognized.md -/

theorem test_step_lui :
    pcAndReg (about 0x00000000#32 [] 0x123452B7#32) 5 = some (0x00000004#32, 0x12345000#32) := by decide

theorem test_step_auipc :
    pcAndReg (about 0x00000008#32 [] 0x00001317#32) 6 = some (0x0000000C#32, 0x00001008#32) := by decide

theorem test_step_auipc_wraps :
    pcAndReg (about 0x00000000#32 [] 0xFFFFF297#32) 5 = some (0x00000004#32, 0xFFFFF000#32) := by decide

theorem test_step_addi :
    pcAndReg (about 0x00000000#32 [] 0x00500093#32) 1 = some (0x00000004#32, 0x00000005#32) := by decide

/-- Worked example W1. -/
theorem test_step_addi_to_x0 :
    pcAndReg (about 0x00000000#32 [(1, 0x00000009#32)] 0x00108013#32) 0 = some (0x00000004#32, 0x00000000#32) := by decide

theorem test_step_slti :
    pcAndReg (about 0x00000000#32 [(1, 0xFFFFFFFE#32)] 0xFFF0A193#32) 3 = some (0x00000004#32, 0x00000001#32) := by decide

theorem test_step_sltiu :
    pcAndReg (about 0x00000000#32 [(1, 0xFFFFFFFE#32)] 0xFFF0B193#32) 3 = some (0x00000004#32, 0x00000001#32) := by decide

theorem test_step_sltiu_equal :
    pcAndReg (about 0x00000000#32 [(1, 0xFFFFFFFF#32)] 0xFFF0B193#32) 3 = some (0x00000004#32, 0x00000000#32) := by decide

theorem test_step_xori :
    pcAndReg (about 0x00000000#32 [(1, 0x0000FFFF#32)] 0xFFF0C213#32) 4 = some (0x00000004#32, 0xFFFF0000#32) := by decide

theorem test_step_ori :
    pcAndReg (about 0x00000000#32 [(1, 0x00000F00#32)] 0x0F00E213#32) 4 = some (0x00000004#32, 0x00000FF0#32) := by decide

theorem test_step_andi :
    pcAndReg (about 0x00000000#32 [(1, 0xFFFFFFFF#32)] 0x7FF0F213#32) 4 = some (0x00000004#32, 0x000007FF#32) := by decide

theorem test_step_slli :
    pcAndReg (about 0x00000000#32 [(1, 0x00000001#32)] 0x01F09293#32) 5 = some (0x00000004#32, 0x80000000#32) := by decide

theorem test_step_slli_any_funct7 :
    pcAndReg (about 0x00000000#32 [(1, 0x00000001#32)] 0x40309293#32) 5 = some (0x00000004#32, 0x00000008#32) := by decide

theorem test_step_srli :
    pcAndReg (about 0x00000000#32 [(1, 0x80000000#32)] 0x0040D293#32) 5 = some (0x00000004#32, 0x08000000#32) := by decide

theorem test_step_srai :
    pcAndReg (about 0x00000000#32 [(1, 0x80000000#32)] 0x4040D293#32) 5 = some (0x00000004#32, 0xF8000000#32) := by decide

theorem test_step_add :
    pcAndReg (about 0x00000000#32 [(1, 0x00000005#32), (2, 0x00000007#32)] 0x002081B3#32) 3 = some (0x00000004#32, 0x0000000C#32) := by decide

theorem test_step_add_wraps :
    pcAndReg (about 0x00000000#32 [(1, 0xFFFFFFFF#32), (2, 0x00000001#32)] 0x002081B3#32) 3 = some (0x00000004#32, 0x00000000#32) := by decide

theorem test_step_sub :
    pcAndReg (about 0x00000000#32 [(1, 0x00000005#32), (2, 0x00000007#32)] 0x40110233#32) 4 = some (0x00000004#32, 0x00000002#32) := by decide

theorem test_step_sll :
    pcAndReg (about 0x00000000#32 [(1, 0x12345678#32), (2, 0xFFFFFFE4#32)] 0x002091B3#32) 3 = some (0x00000004#32, 0x23456780#32) := by decide

theorem test_step_slt :
    pcAndReg (about 0x00000000#32 [(1, 0xFFFFFFFF#32), (2, 0x00000001#32)] 0x0020A1B3#32) 3 = some (0x00000004#32, 0x00000001#32) := by decide

theorem test_step_sltu :
    pcAndReg (about 0x00000000#32 [(1, 0xFFFFFFFF#32), (2, 0x00000001#32)] 0x0020B1B3#32) 3 = some (0x00000004#32, 0x00000000#32) := by decide

theorem test_step_xor :
    pcAndReg (about 0x00000000#32 [(1, 0xFFFFFFFF#32), (2, 0x12345678#32)] 0x0020C1B3#32) 3 = some (0x00000004#32, 0xEDCBA987#32) := by decide

theorem test_step_srl :
    pcAndReg (about 0x00000000#32 [(1, 0x80000000#32), (2, 0x00000021#32)] 0x0020D1B3#32) 3 = some (0x00000004#32, 0x40000000#32) := by decide

theorem test_step_sra :
    pcAndReg (about 0x00000000#32 [(1, 0x80000000#32), (2, 0x00000004#32)] 0x4020D1B3#32) 3 = some (0x00000004#32, 0xF8000000#32) := by decide

theorem test_step_or :
    pcAndReg (about 0x00000000#32 [(1, 0xF0F0F0F0#32), (2, 0x0F0F0F0F#32)] 0x0020E1B3#32) 3 = some (0x00000004#32, 0xFFFFFFFF#32) := by decide

theorem test_step_and :
    pcAndReg (about 0x00000000#32 [(1, 0xF0F0F0F0#32), (2, 0xFF00FF00#32)] 0x0020F1B3#32) 3 = some (0x00000004#32, 0xF000F000#32) := by decide

theorem test_step_jal :
    pcAndReg (about 0x00000100#32 [] 0x001000EF#32) 1 = some (0x00000900#32, 0x00000104#32) := by decide

theorem test_step_jalr :
    pcAndReg (about 0x00000020#32 [(5, 0x00000101#32)] 0x004280E7#32) 1 = some (0x00000104#32, 0x00000024#32) := by decide

/-- R552: the target uses the old x1, the link overwrites it. -/
theorem test_step_jalr_same_register :
    pcAndReg (about 0x00000004#32 [(1, 0x0000000D#32)] 0x000080E7#32) 1 = some (0x0000000C#32, 0x00000008#32) := by decide

theorem test_step_beq_taken :
    pcAndReg (about 0x00000000#32 [(1, 0x00000007#32), (2, 0x00000007#32)] 0x00208863#32) 0 = some (0x00000010#32, 0x00000000#32) := by decide

theorem test_step_beq_wraps :
    pcAndReg (about 0x00000000#32 [] 0x80000063#32) 0 = some (0xFFFFF000#32, 0x00000000#32) := by decide

theorem test_step_bne :
    pcAndReg (about 0x00000000#32 [(1, 0x00000007#32), (2, 0x00000007#32)] 0x00209863#32) 0 = some (0x00000004#32, 0x00000000#32) := by decide

theorem test_step_blt :
    pcAndReg (about 0x00000000#32 [(1, 0xFFFFFFFF#32), (2, 0x00000001#32)] 0x0020C863#32) 0 = some (0x00000010#32, 0x00000000#32) := by decide

theorem test_step_blt_backwards :
    pcAndReg (about 0x0000000C#32 [(1, 0x00000001#32), (2, 0x00000005#32)] 0xFE20CEE3#32) 0 = some (0x00000008#32, 0x00000000#32) := by decide

theorem test_step_bge :
    pcAndReg (about 0x00000000#32 [(1, 0xFFFFFFFF#32), (2, 0x00000001#32)] 0x0020D863#32) 0 = some (0x00000004#32, 0x00000000#32) := by decide

theorem test_step_bltu :
    pcAndReg (about 0x00000000#32 [(1, 0xFFFFFFFF#32), (2, 0x00000001#32)] 0x0020E863#32) 0 = some (0x00000004#32, 0x00000000#32) := by decide

theorem test_step_bgeu :
    pcAndReg (about 0x00000000#32 [(1, 0xFFFFFFFF#32), (2, 0x00000001#32)] 0x0020F863#32) 0 = some (0x00000010#32, 0x00000000#32) := by decide

theorem test_step_unrecognized :
    pcAndReg (about 0x00000010#32 [] 0x00000000#32) 0 = some (0x00000014#32, 0x00000000#32) := by decide

theorem test_step_mul_is_a_no_op :
    pcAndReg (about 0x00000000#32 [(1, 0x00000006#32), (2, 0x00000007#32)] 0x022081B3#32) 3 = some (0x00000004#32, 0x00000000#32) := by decide

theorem test_step_lw :
    pcAndReg (withData (about 0#32 [(5, 0x40#32)] 0x0082A383#32) 0x48 0x12345678#32) 7 =
      some (4#32, 0x12345678#32) := by decide

theorem test_step_sw :
    (nextOf (step (about 0#32 [(5, 0x40#32), (6, 0xFFFFFFFF#32)] 0x0062A423#32))).map
      (fun t => (t.pc, Memory.readWord t.dmem 0x48, t.dmem)) =
      some (4#32, 0xFFFFFFFF#32, [(0x48, 0xFF#8), (0x49, 0xFF#8), (0x4A, 0xFF#8), (0x4B, 0xFF#8)]) := by decide

/-- R559: a target 2 modulo 4 commits, and the next step faults on its fetch. -/
theorem test_target_two_modulo_four :
    (nextOf (step (about 0#32 [] 0x00000363#32))).bind (fun t => faultOf (step t)) =
      some (.alignmentFault .fetch 6#32) := by decide

/-- Misaligned and out of range at once reports the alignment (20_memory.md R113). -/
theorem test_lw_faults :
    faultOf (exec (.lw 7 0 2) small) = some (.alignmentFault .load 2#32) ∧
    faultOf (exec (.lw 7 0 (-2)) small) = some (.alignmentFault .load 0xFFFFFFFE#32) ∧
    faultOf (exec (.lw 7 0 256) small) = some (.outOfRangeFault .load 0x100#32) := by decide

/-! ## The units behind ports of their own (95_test_vectors.md sections 1 and 4 to 7) -/

/-- W8. -/
theorem test_alu_add_flags : alu .add 0x7FFFFFFF#32 1#32 = ⟨0x80000000#32, ⟨true, false, false, true⟩, true⟩ := by decide

/-- R262: b = 0 gives C = 0. -/
theorem test_alu_sub_zero_flags : alu .sub 5#32 0#32 = ⟨5#32, ⟨false, false, false, false⟩, true⟩ := by decide

theorem test_alu_copy_b : (alu .copyB 1#32 2#32).result = 2#32 := by decide

/-- W2. -/
theorem test_ripple_add : rippleAdd 0xFFFFFFFF#32 1#32 = (0#32, true) ∧
    rippleAdd 0x12345678#32 0x11111111#32 = (0x23456789#32, false) := by decide

/-- W3. -/
theorem test_negate : negate 5#32 = 0xFFFFFFFB#32 ∧ negate 0x80000000#32 = 0x80000000#32 := by decide

/-- W5 to W7. -/
theorem test_mdu_fixed_results : mdu .divs 0xFFFFFFF9#32 0#32 = (0xFFFFFFFF#32, 0xFFFFFFF9#32) ∧
    mdu .divs 0x80000000#32 0xFFFFFFFF#32 = (0x80000000#32, 0#32) ∧ mdu .divu 7#32 0#32 = (0xFFFFFFFF#32, 7#32) := by decide

set_option maxRecDepth 4000 in
/-- Section 5. -/
theorem test_mdu_multiply : mdu .mulu 0x12345678#32 0x9ABCDEF0#32 = (0x0B00EA4E#32, 0x242D2080#32) ∧
    mdu .muls 0x12345678#32 0x9ABCDEF0#32 = (0xF8CC93D6#32, 0x242D2080#32) := by decide

/-- Section 5. -/
theorem test_mdu_divide : mdu .divu 0xFFFFFFEC#32 6#32 = (0x2AAAAAA7#32, 2#32) ∧
    mdu .divs 0xFFFFFFEC#32 6#32 = (0xFFFFFFFD#32, 0xFFFFFFFE#32) ∧
    mdu .divs 0x14#32 0xFFFFFFFA#32 = (0xFFFFFFFD#32, 2#32) := by decide

/-- W9 and section 6. -/
theorem test_fadd : fadd 0x3FC00000#32 0x40100000#32 = 0x40700000#32 ∧ fadd 0x3F800000#32 0x3F7FFFFF#32 = 0x3FFFFFFF#32 ∧
    fadd 0x3F800000#32 0xBFC00000#32 = 0xBF000000#32 ∧ fadd 0x80000000#32 0x80000000#32 = 0#32 := by decide

/-- Section 6: an exponent overflow is the free value. -/
theorem test_fadd_exponent_overflow :
    fadd 0x7F800000#32 0x7F800000#32 = Config.faddExpOverflow 0x7F800000#32 0x7F800000#32 := by rfl

/-- Section 6. -/
theorem test_fsub : fsub 0x40400000#32 0x3F800000#32 = 0x40000000#32 ∧ fsub 0x3FC00000#32 0x3FC00000#32 = 0#32 := by decide

/-- W10 and section 6. -/
theorem test_fmul : fmul 0x3FC00000#32 0x40000000#32 = 0x40400000#32 ∧ fmul 0x20000000#32 0x1F800000#32 = 0#32 ∧
    fmul 0x71800000#32 0x71800000#32 = 0x7F800000#32 ∧ fmul 0x00000000#32 0x71800000#32 = 0x32000000#32 := by decide

/-- W4. -/
theorem test_codec : codecEncode (-2147483648) = (0x80000000#32, false) ∧ codecEncode 2147483648 = (0x80000000#32, true) ∧
    codecDecode 0x80000000#32 = -2147483648 := by decide

/-- W4 and section 7 again, at the port of the narrowest input width, 33 bits. -/
theorem test_codec_port : codecEncodePort small.cfg 0x080000000#33 = (0x80000000#32, true) ∧
    codecEncodePort small.cfg 0x1FFFFFFFF#33 = (0xFFFFFFFF#32, false) ∧
    codecEncodePort small.cfg 0x100000000#33 = (0#32, true) := by decide

/-- Section 7. -/
theorem test_codec_widening : codecSignExtend 0b1010#4 8 = .ok 0b11111010#8 ∧
    codecZeroExtend 0b1010#4 8 = .ok 0b00001010#8 ∧ codecSignExtend 0b1010#4 3 = .error (.codecNarrowing 4 3) := by decide

/-- The datapath and the decoded meanings agree on the examples of a load-free step (46_alu_instructions.md R513). -/
theorem test_datapath_sub :
    (nextOf (datapathStep (about 0#32 [(1, 5#32), (2, 7#32)] 0x40110233#32))).map (fun t => (t.pc, t.readReg 4)) =
      some (4#32, 2#32) := by decide

/-- R83, R54: the register port. -/
theorem test_register_port : (serve (.writeRegister 31#32 7#32) small).2.readReg 31 = 7#32 ∧
    (serve (.writeRegister 0#32 7#32) small).2.readReg 0 = 0#32 ∧
    (serve (.readRegister 32#32) small).1 = .fault (.outOfRangeFault .register 32#32) := by decide

/-- R181: the low part of 0x12345FFF is negative, so the high part is one more. -/
theorem test_pseudo_li : Pseudo.expand (.li 5 0x12345FFF#32) = [.lui 5 0x12346, .addi 5 5 (-1)] ∧
    Pseudo.expand (.li 5 (-2048)) = [.addi 5 0 (-2048)] ∧ Pseudo.expand .ret = [.jalr 0 1 0] := by decide

/-- The canonical form: writing 0 takes the entries away. -/
theorem test_memory_canonical : Memory.writeWord (Memory.writeWord [] 8 0xAB#32) 8 0#32 = [] := by decide

/-! ## Witnesses: for every statement with hypotheses, states and operands that meet them -/

theorem witness_EncodeThenDecode : (Instr.jal 31 1048574).wellFormed = true ∧ (Instr.bgeu 31 31 (-4096)).wellFormed = true ∧
    (Instr.unrecognized 0xFFFFFFFF#32).wellFormed = true ∧ (Instr.sw 31 0 (-2048)).wellFormed = true := by decide

theorem witness_DecoderFollowsOpcodeTable :
    (⟨.SRAI, 0xFE00707F#32, 0x40005013#32⟩ : OpcodeRow) ∈ opcodeTable ∧ 0x4040D293#32 &&& 0xFE00707F#32 = 0x40005013#32 ∧
    ∀ r ∈ opcodeTable, 0x022081B3#32 &&& r.mask ≠ r.pattern := by decide

theorem witness_OpcodeRowsDoNotOverlap :
    (⟨.LUI, 0x0000007F#32, 0x00000037#32⟩ : OpcodeRow) ∈ opcodeTable ∧ 0x123452B7#32 &&& 0x0000007F#32 = 0x00000037#32 := by
  decide

theorem witness_StepRunsDecodedInstruction : (about 0xFFC#32 [] 0x00500093#32).fetchable ∧
    decodeBytes [Memory.readByte (about 0xFFC#32 [] 0x00500093#32).instrMemory 0xFFC,
      Memory.readByte (about 0xFFC#32 [] 0x00500093#32).instrMemory (0xFFC + 1),
      Memory.readByte (about 0xFFC#32 [] 0x00500093#32).instrMemory (0xFFC + 2),
      Memory.readByte (about 0xFFC#32 [] 0x00500093#32).instrMemory (0xFFC + 3)] = .ok (.addi 1 0 5, []) := by decide

/-- Misaligned, and misaligned and out of range at once. -/
theorem witness_FetchFaultsStopTheStep_misaligned :
    ({ small with pc := 2#32 } : State).pc.toNat % 4 ≠ 0 ∧ ({ small with pc := 0xFFFFFFFE#32 } : State).pc.toNat % 4 ≠ 0 := by
  decide

/-- The first address beyond each of the two bounds. -/
theorem witness_FetchFaultsStopTheStep_out_of_range :
    (256#32).toNat % 4 = 0 ∧ (if small.cfg.unified then small.cfg.dmemWords else small.cfg.imemWords) ≤ (256#32).toNat / 4 ∧
    (if smallUnified.cfg.unified then smallUnified.cfg.dmemWords else smallUnified.cfg.imemWords) ≤ (256#32).toNat / 4 := by
  decide

theorem witness_PlacedWordRunsNext : ({ small with pc := 252#32 } : State).fetchable ∧ small.instrMemory.wf = true ∧
    ({ smallUnified with pc := 252#32 } : State).fetchable ∧ smallUnified.instrMemory.wf = true := by decide

theorem witness_ResetMeetsInvariant : Config.legal ⟨1, 1, true, 33⟩ ∧ Config.legal ⟨2 ^ 30, 2 ^ 30, false, 64⟩ := by decide

theorem witness_StepKeepsInvariant : (about 0x20#32 [(5, 0x101#32)] 0x004280E7#32).Inv ∧
    ∃ t, step (about 0x20#32 [(5, 0x101#32)] 0x004280E7#32) = .next t :=
  ⟨by decide, next_of (by decide)⟩

/-- A store in a machine with one memory. -/
theorem witness_StepKeepsInvariant_store : (smallUnified.withFetchWord 32 0x00002423).Inv ∧
    ∃ t, step (smallUnified.withFetchWord 32 0x00002423) = .next t :=
  ⟨by decide, next_of (by decide)⟩

theorem witness_PortsKeepInvariant : small.Inv ∧ smallUnified.Inv := by decide

theorem witness_StepCounterCountsCommittedSteps :
    (∃ t, step small = .next t) ∧ (∃ t, Host.Core.run Sys2Proof.core 2 small = .next t) ∧
    ∃ f t, stepPort { small with pc := 2#32 } = (.fault f, t) :=
  ⟨next_of (by decide), next_of (o := Host.Core.run Sys2Proof.core 2 small) (by decide), ⟨_, _, rfl⟩⟩

theorem witness_FaultsArePrecise : ∃ t,
    stepPort (small.withFetchWord 32 0x10002383) = (.fault (.outOfRangeFault .load 256#32), t) :=
  ⟨(stepPort (small.withFetchWord 32 0x10002383)).2, by decide⟩

theorem witness_FaultedCoreStaysStuck : step { small with pc := 256#32 } = .fault (.outOfRangeFault .fetch 256#32) :=
  fault_of (by decide)

/-- A fetch, a load and a store that fault, each misaligned and each one cell beyond the capacity. -/
theorem witness_OnlyFetchLoadAndStoreFault :
    (step { small with pc := 6#32 } = .fault (.alignmentFault .fetch 6#32) ∧
      step { small with pc := 256#32 } = .fault (.outOfRangeFault .fetch 256#32)) ∧
    (step (small.withFetchWord 32 0x00202383) = .fault (.alignmentFault .load 2#32) ∧
      step (small.withFetchWord 32 0x10002383) = .fault (.outOfRangeFault .load 256#32)) ∧
    step (small.withFetchWord 32 0x00002123) = .fault (.alignmentFault .store 2#32) ∧
    step (small.withFetchWord 32 0x10002023) = .fault (.outOfRangeFault .store 256#32) :=
  ⟨⟨fault_of (by decide), fault_of (by decide)⟩, ⟨fault_of (by decide), fault_of (by decide)⟩,
    fault_of (by decide), fault_of (by decide)⟩

theorem witness_OnlyStoresChangeMemory : (about 0#32 [(5, 0x40#32), (6, 0xFF#32)] 0x0062A423#32).cfg.unified = false ∧
    ∃ t, step (about 0#32 [(5, 0x40#32), (6, 0xFF#32)] 0x0062A423#32) = .next t ∧
      (Memory.readByte t.dmem 0x48 !=
        Memory.readByte (about 0#32 [(5, 0x40#32), (6, 0xFF#32)] 0x0062A423#32).dmem 0x48) = true :=
  ⟨by decide, next_with (by decide)⟩

theorem witness_OnlyRdChanges : (about 0#32 [] 0x00500093#32).fetch = .ok 0x00500093#32 ∧
    ∃ t, step (about 0#32 [] 0x00500093#32) = .next t ∧
      (t.readReg 1 != (about 0#32 [] 0x00500093#32).readReg 1) = true :=
  ⟨by decide, next_with (by decide)⟩

theorem witness_CommittedPcIsEven : ∃ t, step (about 0#32 [] 0x00000363#32) = .next t ∧ (t.pc.toNat % 4 == 2) = true :=
  next_with (by decide)

theorem witness_StoresAndFetches_unified : smallUnified.dmem.wf = true ∧ smallUnified.cfg.unified = true ∧
    ∃ t, exec (.sw 0 0 252) smallUnified = .next t :=
  ⟨by decide, by decide, next_of (by decide)⟩

theorem witness_StoresAndFetches_separate : small.dmem.wf = true ∧ small.cfg.unified = false ∧
    ∃ t, exec (.sw 0 0 252) small = .next t :=
  ⟨by decide, by decide, next_of (by decide)⟩

theorem witness_ShiftRightImmediateResults : (1#7 ≠ 0b0000000#7 ∧ 1#7 ≠ 0b0100000#7) ∧
    0b1100000#7 ≠ 0b0000000#7 ∧ 0b1100000#7 ≠ 0b0100000#7 := by decide

theorem witness_JumpAndLinkRegisterResult : 0b001#3 ≠ 0b000#3 := by decide

/-- The three clauses: the last cell, one past it, and a misaligned address. -/
theorem witness_LoadWordResult :
    ((effectiveAddress (small.readReg 0) (immI 252)).toNat % 4 = 0 ∧
      (effectiveAddress (small.readReg 0) (immI 252)).toNat / 4 < small.cfg.dmemWords) ∧
    (effectiveAddress (small.readReg 0) (immI 253)).toNat % 4 ≠ 0 ∧
    (effectiveAddress (small.readReg 0) (immI 256)).toNat % 4 = 0 ∧
    small.cfg.dmemWords ≤ (effectiveAddress (small.readReg 0) (immI 256)).toNat / 4 := by decide

/-- The three clauses: the last cell, one past it, and a misaligned address. -/
theorem witness_StoreWordResult : small.dmem.wf = true ∧
    ((effectiveAddress (small.readReg 0) (immS (0b0000111#7 ++ 0b11100#5))).toNat % 4 = 0 ∧
      (effectiveAddress (small.readReg 0) (immS (0b0000111#7 ++ 0b11100#5))).toNat / 4 < small.cfg.dmemWords) ∧
    (effectiveAddress (small.readReg 0) (immS (0b0000111#7 ++ 0b11110#5))).toNat % 4 ≠ 0 ∧
    (effectiveAddress (small.readReg 0) (immS (0b0001000#7 ++ 0b00000#5))).toNat % 4 = 0 ∧
    small.cfg.dmemWords ≤ (effectiveAddress (small.readReg 0) (immS (0b0001000#7 ++ 0b00000#5))).toNat / 4 := by decide

theorem witness_NamedGroupsAreNoOps_fetch : (about 0#32 [] 0x022081B3#32).fetch = .ok 0x022081B3#32 ∧
    (about 0#32 [] 0x00000001#32).fetch = .ok 0x00000001#32 := by decide

/-- One word for each group of the statement, in its order; `about` fetches any of them. -/
theorem witness_NamedGroupsAreNoOps :
    ((0x022081B3#32).extractLsb' 0 7 = 0b0110011#7 ∧ (0x022081B3#32).extractLsb' 25 7 = 0b0000001#7) ∧
    (0x0000A087#32).extractLsb' 0 7 = 0b0000111#7 ∧ (0x003170D3#32).extractLsb' 0 7 = 0b1010011#7 ∧
    (0x300110F3#32).extractLsb' 0 7 = 0b1110011#7 ∧ (0x0FF0000F#32).extractLsb' 0 7 = 0b0001111#7 ∧
    (0x0020A1AF#32).extractLsb' 0 7 = 0b0101111#7 ∧
    ((0x00828383#32).extractLsb' 0 7 = 0b0000011#7 ∧ (0x00828383#32).extractLsb' 12 3 ≠ 0b010#3) ∧
    ((0x00628423#32).extractLsb' 0 7 = 0b0100011#7 ∧ (0x00628423#32).extractLsb' 12 3 ≠ 0b010#3) ∧
    (0x00000001#32).extractLsb' 0 2 ≠ 0b11#2 ∧ (0x0000000B#32).extractLsb' 0 7 = 0b0001011#7 ∧
    (0x0000001F#32).extractLsb' 0 6 = 0b011111#6 := by decide

theorem witness_RegisterFileContract : (1#5 : RegIdx) ≠ 0 ∧ (2#5 : RegIdx) ≠ 1 ∧ (0#5 : RegIdx) ≠ 31 := by decide

theorem witness_RegisterPortChecksIndex : (31#32).toNat < 32 ∧ 32 ≤ (32#32).toNat ∧ 32 ≤ (0xFFFFFFFF#32).toNat := by decide

theorem witness_LoadAfterStore : small.dmem.wf = true ∧ (small.dmemWrite 252#32 7#32).isOk = true ∧ 248#32 ≠ 252#32 := by
  decide

theorem witness_AccessChecks : (255#32).toNat % 4 ≠ 0 ∧ ((256#32).toNat % 4 = 0 ∧ 64 ≤ (256#32).toNat / 4) ∧
    allowed 64 252#32 := by decide

/-- A run that ends exactly at the capacity, one that goes one word beyond it, and a misaligned base, for both requests; the
capacities of the unified machine differ, so its bound is the data memory's in both. -/
theorem witness_LoadProgramFillsCells : small.instrMemory.wf = true ∧ small.dmem.wf = true ∧ (250#32).toNat % 4 ≠ 0 ∧
    ((248#32).toNat % 4 = 0 ∧ small.instrWords < (248#32).toNat / 4 + ([1#32, 2#32, 3#32] : List Word).length ∧
      small.cfg.dmemWords < (248#32).toNat / 4 + ([1#32, 2#32, 3#32] : List Word).length) ∧
    (248#32).toNat / 4 + ([1#32, 2#32] : List Word).length ≤ small.instrWords ∧
    (248#32).toNat / 4 + ([1#32, 2#32] : List Word).length ≤ small.cfg.dmemWords ∧
    small.cfg.unified = false ∧ smallUnified.cfg.unified = true ∧
    (248#32).toNat / 4 + ([1#32, 2#32] : List Word).length ≤ smallUnified.instrWords := by decide

/-- R120, R755: a word preloaded into the data memory is what LW reads, and the program memory does not hold it. -/
theorem test_load_data : (serve (.loadData [7#32, 8#32] 8#32) small).2.dmemRead 12#32 = .ok 8#32 ∧
    (serve (.loadData [7#32, 8#32] 8#32) small).2.imemRead 12#32 = .ok 0#32 := by decide

theorem witness_ControlTableInvariants : (controlUnit 0b1100011#7 0b000#3 0#7).branch ≠ .none ∧
    (controlUnit 0b1100011#7 0b001#3 0#7).branch ≠ .none ∧ (controlUnit 0b1100011#7 0b100#3 0#7).branch ≠ .none ∧
    (controlUnit 0b0000011#7 0b010#3 0#7).memRead = true ∧ (controlUnit 0b1101111#7 0#3 0#7).wbSrc = .link ∧
    (controlUnit 0b1100111#7 0#3 0#7).wbSrc = .link := by decide

theorem witness_ShiftFormulas : (32 ≤ 32 ∧ 32 ≤ 31 + 1) ∧ (0x80000000#32).msb = true ∧ (0x7FFFFFFF#32).msb = false := by decide

theorem witness_AluSubtractionFlags : (0x7FFFFFFF#32 : Word) ≠ 0x80000000 ∧ (0x80000000#32 : Word) = 0x80000000 := by decide

theorem witness_UnsignedDivision : (1#32 : Word) ≠ 0 := by decide

/-- Each operand of the overflow alone does not make it. -/
theorem witness_SignedDivision : ((0xFFFFFFFF#32 : Word) ≠ 0 ∧
    ¬ ((0x80000001#32 : Word) = 0x80000000 ∧ (0xFFFFFFFF#32 : Word) = 0xFFFFFFFF)) ∧
    (1#32 : Word) ≠ 0 ∧ ¬ ((0x80000000#32 : Word) = 0x80000000 ∧ (1#32 : Word) = 0xFFFFFFFF) := by decide

/-- The ends of the 32-bit range, and both ends of the narrowest input width. -/
theorem witness_CodecRoundTrip : ((-2147483648 : Int) ≤ -2147483648 ∧ (2147483647 : Int) ≤ 2147483647) ∧
    small.cfg.legal ∧ small.cfg.codecTakes (-4294967296) ∧ small.cfg.codecTakes 4294967295 ∧
    ((-2147483649 : Int) ≤ -2147483649 ∧ (2147483648 : Int) ≤ 2147483648) := by decide

theorem witness_CodecWidening : 4 ≤ 4 ∧ 4 ≤ 8 ∧ 0 ≤ 8 := by decide

theorem witness_CodecNarrowingRefused : 3 < 4 ∧ 0 < 1 := by decide

end Sys2Proof.Tests
end

section
/-! The register file and its read-only view, the snapshot (10_state.md). -/

namespace Sys2Proof.Proofs.RegisterFile

open Sys2Proof.Machine Sys2Proof.Laws

/-! ## The register file -/

/-- Settles O35: each clause is one of the read-after-write laws, and a write to x0 is no write at all. -/
theorem registerFileContract : Obligations.RegisterFileContract := by
  intro s i j v
  have x0_after_write : (s.writeReg i v).readReg 0 = 0 := readReg_zero (s.writeReg i v)
  exact ⟨readReg_zero s, x0_after_write, readReg_writeReg_self s i v, readReg_writeReg_ne s i j v, writeReg_zero s v⟩

/-! ## The snapshot -/

@[simp] theorem serve_snapshot (s : State) : serve .snapshot s = (.snapshot s.snapshot, s) := rfl

@[simp] theorem snapshot_pc (s : State) : s.snapshot.pc = s.pc := rfl

@[simp] theorem snapshot_steps (s : State) : s.snapshot.steps = s.steps := rfl

/-- Entry `k` of the snapshot is what the read port gives, not the stored slot, which differ at register 0. -/
@[simp] theorem snapshot_regs_getElem (s : State) (k : Nat) (hk : k < 32) :
    s.snapshot.regs[k] = s.readReg (BitVec.ofNat 5 k) := by
  have index_eq : BitVec.ofFin (⟨k, hk⟩ : Fin (2 ^ 5)) = BitVec.ofNat 5 k :=
    BitVec.eq_of_toNat_eq (by simp [Nat.mod_eq_of_lt hk])
  rw [← index_eq]
  exact Vector.getElem_ofFn hk

/-- Settles O41: entry 0 is the read of x0, so it is 0 whatever slot 0 holds. -/
theorem snapshotShowsState : Obligations.SnapshotShowsState := by
  intro s
  have entry_zero : s.snapshot.regs[0] = 0#32 := (snapshot_regs_getElem s 0 (by decide)).trans (readReg_zero s)
  exact ⟨s.snapshot, serve_snapshot s, snapshot_pc s, snapshot_steps s, entry_zero, snapshot_regs_getElem s⟩

end Sys2Proof.Proofs.RegisterFile
end

section
/-! The five immediates of a word (30_encoding.md R153 to R157): their ranges, and that a branch or jump offset is even. -/

namespace Sys2Proof.Proofs.Immediates

open Sys2Proof.Machine Sys2Proof.Laws

/-! ## The signed value of an immediate is that of its bits -/

@[simp] theorem immI_toInt (imm : BitVec 12) : (immI imm).toInt = imm.toInt := by
  rw [immI_eq, BitVec.toInt_signExtend_of_le (by decide)]

@[simp] theorem immS_toInt (imm : BitVec 12) : (immS imm).toInt = imm.toInt := by
  rw [immS_eq, BitVec.toInt_signExtend_of_le (by decide)]

@[simp] theorem immB_toInt (offset : BitVec 13) : (immB offset).toInt = offset.toInt := by
  rw [immB_eq, BitVec.toInt_signExtend_of_le (by decide)]

@[simp] theorem immJ_toInt (offset : BitVec 21) : (immJ offset).toInt = offset.toInt := by
  rw [immJ_eq, BitVec.toInt_signExtend_of_le (by decide)]

/-! ## The range and the evenness of the bits -/

theorem toInt_range_12 (imm : BitVec 12) : -2048 ≤ imm.toInt ∧ imm.toInt ≤ 2047 :=
  ⟨BitVec.le_toInt imm, BitVec.toInt_le⟩

/-- The implicit zero bit doubles the signed value of the bits above it, so the greatest offset is 2 short of a power of two. -/
theorem toInt_append_zero_bit {n : Nat} (x : BitVec (n + 1)) :
    -2 ^ (n + 1) ≤ (x ++ 0#1).toInt ∧ (x ++ 0#1).toInt ≤ 2 ^ (n + 1) - 2 ∧ (x ++ 0#1).toInt % 2 = 0 := by
  have doubled : (x ++ 0#1).toInt = 2 * x.toInt := BitVec.toInt_append_zero
  have lower : -2 ^ (n + 1) ≤ 2 * x.toInt := BitVec.le_two_mul_toInt
  have upper : x.toInt ≤ 2 ^ n - 1 := BitVec.toInt_le
  rw [doubled]
  exact ⟨lower, by omega, by omega⟩

theorem immBitsB_append_zero_bit (w : Word) : ∃ x : BitVec 12, immBitsB w = x ++ 0#1 := ⟨_, rfl⟩

theorem immBitsJ_append_zero_bit (w : Word) : ∃ x : BitVec 20, immBitsJ w = x ++ 0#1 := ⟨_, rfl⟩

theorem immB_immBitsB_range (w : Word) :
    -4096 ≤ (immB (immBitsB w)).toInt ∧ (immB (immBitsB w)).toInt ≤ 4094 ∧ (immB (immBitsB w)).toInt % 2 = 0 := by
  obtain ⟨x, hx⟩ := immBitsB_append_zero_bit w
  rw [immB_toInt, hx]
  exact toInt_append_zero_bit x

theorem immJ_immBitsJ_range (w : Word) :
    -1048576 ≤ (immJ (immBitsJ w)).toInt ∧ (immJ (immBitsJ w)).toInt ≤ 1048574 ∧
      (immJ (immBitsJ w)).toInt % 2 = 0 := by
  obtain ⟨x, hx⟩ := immBitsJ_append_zero_bit w
  rw [immJ_toInt, hx]
  exact toInt_append_zero_bit x

/-! ## The U-format mask -/

/-- The mask keeps the upper 20 bits of the word and clears the lower 12. -/
theorem immU_immBitsU_eq_and (w : Word) : immU (immBitsU w) = w &&& 0xFFFFF000#32 := by
  have parts : w = w.extractLsb' 12 20 ++ w.extractLsb' 0 12 := (BitVec.extractLsb'_append_extractLsb' (w := 20) (len := 12)).symm
  have mask : 0xFFFFF000#32 = BitVec.allOnes 20 ++ 0#12 := by decide
  calc immU (immBitsU w)
    _ = (w.extractLsb' 12 20 &&& BitVec.allOnes 20) ++ (w.extractLsb' 0 12 &&& 0#12) := by
      rw [BitVec.and_allOnes, BitVec.and_zero, immU, immBitsU]
    _ = w &&& 0xFFFFF000#32 := by rw [← BitVec.and_append, ← parts, ← mask]

/-- Settles O6: sign extension keeps the signed value, so each range is that of the format's own bits. -/
theorem immediateFormats : Obligations.ImmediateFormats := by
  intro w
  have rangeI : -2048 ≤ (immI (immBitsI w)).toInt ∧ (immI (immBitsI w)).toInt ≤ 2047 := by
    rw [immI_toInt]; exact toInt_range_12 _
  have rangeS : -2048 ≤ (immS (immBitsS w)).toInt ∧ (immS (immBitsS w)).toInt ≤ 2047 := by
    rw [immS_toInt]; exact toInt_range_12 _
  exact ⟨⟨immI_eq _, rangeI⟩, ⟨immS_eq _, rangeS⟩, ⟨immB_eq _, immB_immBitsB_range w⟩,
    ⟨rfl, immU_immBitsU_eq_and w⟩, ⟨immJ_eq _, immJ_immBitsJ_range w⟩⟩

end Sys2Proof.Proofs.Immediates
end

section
/-! The bit-vector primitives of any width: the adder's carry, negation, and the three shifts (41_alu.md section 1). -/

namespace Sys2Proof.Proofs.BitPrimitives

open Sys2Proof.Machine Sys2Proof.Laws

/-! ## The ripple-carry adder -/

/-- The chain loses nothing: its carry out is the bit of weight 2^n of the sum of the operands. -/
theorem rippleAdd_value {n : Nat} (a b : BitVec n) :
    (rippleAdd a b).1.toNat + (rippleAdd a b).2.toNat * 2 ^ n = a.toNat + b.toNat := by
  have chain := rippleTo_value a b n
  rw [Nat.mod_eq_of_lt a.isLt, Nat.mod_eq_of_lt b.isLt] at chain
  simp only [rippleAdd, BitVec.toNat_ofNat, Nat.mod_eq_of_lt (rippleTo_lt a b n)]
  exact chain

/-- The sum bits alone stay below 2^n, so the carry out says whether the sum of the operands does. -/
theorem rippleAdd_snd_iff {n : Nat} (a b : BitVec n) :
    (rippleAdd a b).2 = true ↔ 2 ^ n ≤ a.toNat + b.toNat := by
  have sum_lt : (rippleAdd a b).1.toNat < 2 ^ n := (rippleAdd a b).1.isLt
  rw [← rippleAdd_value a b]
  cases (rippleAdd a b).2 with
  | false => simpa using sum_lt
  | true => simp

theorem rippleAdd_fst_toNat {n : Nat} (a b : BitVec n) :
    (rippleAdd a b).1.toNat = (a.toNat + b.toNat) % 2 ^ n := by
  rw [rippleAdd_fst, BitVec.toNat_add]

/-- Settles O44: sum bits and carry together are the exact sum, from the chain's value after all n bits. -/
theorem rippleCarryAdds : Obligations.RippleCarryAdds := by
  intro n a b
  exact ⟨rippleAdd_fst_toNat a b, rippleAdd_snd_iff a b⟩

/-! ## Negation -/

theorem negate_toNat {n : Nat} (x : BitVec n) : (negate x).toNat = (2 ^ n - x.toNat) % 2 ^ n := by
  rw [negate_eq_neg, BitVec.toNat_neg]

theorem negate_negate {n : Nat} (x : BitVec n) : negate (negate x) = x := by
  rw [negate_eq_neg, negate_eq_neg, BitVec.neg_neg]

theorem negate_zero (n : Nat) : negate (0#n) = 0#n := by
  rw [negate_eq_neg, BitVec.neg_zero]

theorem negate_smallest_word : negate 0x80000000#32 = 0x80000000#32 := by
  rw [negate_eq_neg]
  decide

/-- Settles O45: inverting and adding one is two's-complement negation. -/
theorem negationLaws : Obligations.NegationLaws :=
  ⟨fun n x => ⟨rfl, negate_toNat x, negate_negate x, negate_zero n⟩, negate_smallest_word⟩

/-! ## The shifts -/

theorem shiftLeftLogical_toNat {n : Nat} (x : BitVec n) (k : Nat) :
    (shiftLeftLogical x k).toNat = x.toNat * 2 ^ k % 2 ^ n := by
  rw [shiftLeftLogical, BitVec.toNat_shiftLeft, Nat.shiftLeft_eq]

theorem shiftLeftLogical_of_width_le {n : Nat} (x : BitVec n) (k : Nat) (hk : n ≤ k) : shiftLeftLogical x k = 0#n :=
  BitVec.shiftLeft_eq_zero hk

theorem shiftRightLogical_toNat {n : Nat} (x : BitVec n) (k : Nat) :
    (shiftRightLogical x k).toNat = x.toNat / 2 ^ k := by
  rw [shiftRightLogical, BitVec.toNat_ushiftRight, Nat.shiftRight_eq_div_pow]

theorem shiftRightLogical_of_width_le {n : Nat} (x : BitVec n) (k : Nat) (hk : n ≤ k) :
    shiftRightLogical x k = 0#n :=
  BitVec.ushiftRight_eq_zero hk

/-- `Int` division by a positive divisor rounds down, as the arithmetic shift does. -/
theorem shiftRightArithmetic_eq_ofInt {n : Nat} (x : BitVec n) (k : Nat) :
    shiftRightArithmetic x k = BitVec.ofInt n (x.toInt / 2 ^ k) := by
  rw [shiftRightArithmetic, BitVec.sshiftRight, Int.shiftRight_eq_div_pow, Nat.cast_pow, Nat.cast_ofNat]

/-- From k = n - 1 on, the only bit of the operand that can still be in the result is its top bit. -/
theorem shiftRightArithmetic_getElem_of_width_le {n : Nat} (x : BitVec n) (k : Nat) (hk : n ≤ k + 1) (i : Nat)
    (hi : i < n) : (shiftRightArithmetic x k)[i] = x.msb := by
  rw [shiftRightArithmetic, BitVec.getElem_sshiftRight]
  split
  next inside =>
    have top : k + i = n - 1 := by omega
    rw [BitVec.msb_eq_getLsbD_last, ← top, BitVec.getLsbD_eq_getElem inside]
  next => rfl

theorem shiftRightArithmetic_of_width_le {n : Nat} (x : BitVec n) (k : Nat) (hk : n ≤ k + 1) :
    shiftRightArithmetic x k = if x.msb then BitVec.allOnes n else 0#n := by
  ext i hi
  rw [shiftRightArithmetic_getElem_of_width_le x k hk i hi]
  cases x.msb with
  | false => simp
  | true => simp

/-- Settles O46: the three formulas, and the fill that is all that is left of a long shift. -/
theorem shiftFormulas : Obligations.ShiftFormulas := by
  intro n x k
  exact ⟨shiftLeftLogical_toNat x k, shiftLeftLogical_of_width_le x k,
    shiftRightLogical_toNat x k, shiftRightLogical_of_width_le x k,
    shiftRightArithmetic_eq_ofInt x k, shiftRightArithmetic_of_width_le x k⟩

end Sys2Proof.Proofs.BitPrimitives
end

section
/-! The multiply-divide unit (42_mdu.md): the exact unsigned product (R301), and unsigned division with its fixed result for a
zero divisor (R303, R304). -/

namespace Sys2Proof.Proofs.MultiplyDivide

open Sys2Proof.Machine Sys2Proof.Laws

/-! ## Shifts of a vector given by its value -/

theorem ofNat_shiftLeft (n v k : Nat) : BitVec.ofNat n v <<< k = BitVec.ofNat n (v * 2 ^ k) := by
  apply BitVec.eq_of_toNat_eq
  simp [Nat.shiftLeft_eq]

/-- Shifting a bit in at the bottom doubles the value and adds the bit. -/
theorem ofNat_shift_or_bit (n v : Nat) (c : Bool) :
    (BitVec.ofNat n v <<< 1) ||| (BitVec.ofBool c).zeroExtend n = BitVec.ofNat n (2 * v + c.toNat) := by
  have no_carry : 2 * v + c.toNat = 2 * v ||| c.toNat := Nat.two_pow_add_eq_or_of_lt (i := 1) (Bool.toNat_lt c) v
  have bit : (BitVec.ofBool c).zeroExtend n = BitVec.ofNat n c.toNat := by
    rw [BitVec.zeroExtend, ← BitVec.ofNat_toNat, BitVec.toNat_ofBool]
  rw [bit, ofNat_shiftLeft, Nat.pow_one, Nat.mul_comm, no_carry, BitVec.ofNat_or]

/-! ## Shift-and-add multiplication (R301) -/

/-- An iteration adds the partial product of bit i, which is 0 when the bit is clear. -/
theorem muluStep_eq_add (a b : Word) (p : BitVec 64) (i : Nat) :
    muluStep a b p i = p + BitVec.ofNat 64 (a.toNat * ((b.getLsbD i).toNat * 2 ^ i)) := by
  rw [muluStep]
  cases b.getLsbD i with
  | false => simp
  | true =>
    have shifted : a.zeroExtend 64 <<< i = BitVec.ofNat 64 (a.toNat * 2 ^ i) := by
      rw [BitVec.zeroExtend, ← BitVec.ofNat_toNat, ofNat_shiftLeft]
    simp [shifted]

/-- After k iterations the sum is the product of the multiplicand and the multiplier's low k bits. -/
theorem foldl_muluStep_range (a b : Word) (k : Nat) :
    (List.range k).foldl (muluStep a b) 0#64 = BitVec.ofNat 64 (a.toNat * (b.toNat % 2 ^ k)) := by
  induction k with
  | zero => simp [Nat.mod_one]
  | succ k ih =>
    rw [List.range_succ, List.foldl_append, ih, List.foldl_cons, List.foldl_nil, muluStep_eq_add,
      BitVec.ofNat_add_ofNat, ← Nat.mul_add, ← mod_two_pow_succ_getLsbD]

/-- The product of two words fits in 64 bits, so nothing is lost. -/
theorem muluProduct_toNat (a b : Word) : (muluProduct a b).toNat = a.toNat * b.toNat := by
  have fits : a.toNat * b.toNat < 2 ^ 64 := Nat.mul_lt_mul'' (c := 2 ^ 32) (d := 2 ^ 32) a.isLt b.isLt
  rw [muluProduct, bitsUp, foldl_muluStep_range, Nat.mod_eq_of_lt b.isLt, BitVec.toNat_ofNat, Nat.mod_eq_of_lt fits]

theorem splitWords_value (p : BitVec 64) :
    (splitWords p).1.toNat * 2 ^ 32 + (splitWords p).2.toNat = p.toNat := by
  have bound : p.toNat < 2 ^ 64 := p.isLt
  simp only [splitWords, BitVec.extractLsb'_toNat, Nat.shiftRight_eq_div_pow]
  omega

/-- Settles O50: the two words hold the 64-bit sum of the partial products, which is the whole product. -/
theorem unsignedMultiplyExact : Obligations.UnsignedMultiplyExact := by
  intro a b
  exact (splitWords_value (muluProduct a b)).trans (muluProduct_toNat a b)

/-! ## Restoring division (R303) -/

/-- The dividend's bits from i up are those from i + 1 up with bit i shifted in. -/
theorem div_two_pow_eq_shift_bit (a : Word) (i : Nat) :
    a.toNat / 2 ^ i = 2 * (a.toNat / 2 ^ (i + 1)) + (a.getLsbD i).toNat := by
  rw [BitVec.getLsbD, Nat.toNat_testBit, Nat.pow_succ, ← Nat.div_div_eq_div_mul, Nat.div_add_mod]

/-- The pair that the loop carries, by the values of the running remainder and the quotient. -/
def divuState (r q : Nat) : BitVec 33 × Word := (BitVec.ofNat 33 r, BitVec.ofNat 32 q)

/-- One iteration. A remainder that fits in a word loses nothing when a bit is shifted in, since its vector has 33 bits. -/
theorem divuStep_divuState (a b : Word) (r q i : Nat) (hr : r < 2 ^ 32) :
    divuStep a b (divuState r q) i =
      if b.toNat ≤ 2 * r + (a.getLsbD i).toNat then divuState (2 * r + (a.getLsbD i).toNat - b.toNat) (2 * q + 1)
      else divuState (2 * r + (a.getLsbD i).toNat) (2 * q) := by
  have hb : b.toNat < 2 ^ 33 := Nat.lt_trans b.isLt (by decide)
  have fits : 2 * r + (a.getLsbD i).toNat < 2 ^ 33 := by have := Bool.toNat_lt (a.getLsbD i); omega
  have divisor : b.zeroExtend 33 = BitVec.ofNat 33 b.toNat := (BitVec.ofNat_toNat 33 b).symm
  have set_bit : (BitVec.ofNat 32 q <<< 1) ||| 1#32 = BitVec.ofNat 32 (2 * q + 1) := ofNat_shift_or_bit 32 q true
  simp only [divuStep, divuState, ofNat_shift_or_bit, divisor, BitVec.toNat_ofNat, Nat.mod_eq_of_lt hb,
    Nat.mod_eq_of_lt fits, set_bit]
  split
  next le => rw [BitVec.ofNat_sub_ofNat_of_le _ _ hb le]
  next => rw [ofNat_shiftLeft, Nat.pow_one, Nat.mul_comm q]

/-- The loop from bit n - 1 down to bit 0, where each iteration leads from one named state to the next. -/
theorem foldl_divuStep_reverse_range (a b : Word) (r q : Nat → Nat) (n : Nat)
    (hstep : ∀ i < n, divuStep a b (divuState (r (i + 1)) (q (i + 1))) i = divuState (r i) (q i)) :
    (List.range n).reverse.foldl (divuStep a b) (divuState (r n) (q n)) = divuState (r 0) (q 0) := by
  induction n with
  | zero => rfl
  | succ n ih =>
    rw [List.range_succ, List.reverse_append, List.reverse_singleton, List.singleton_append, List.foldl_cons,
      hstep n (Nat.lt_succ_self n)]
    exact ih fun i hi => hstep i (Nat.lt_succ_of_lt hi)

/-- Only the low word of the 33-bit remainder is returned. -/
theorem ofNat_extract_low_word (v : Nat) : (BitVec.ofNat 33 v).extractLsb' 0 32 = BitVec.ofNat 32 v := by
  apply BitVec.eq_of_toNat_eq
  simp only [BitVec.extractLsb'_toNat, BitVec.toNat_ofNat, Nat.shiftRight_zero]
  omega

/-- What the loop answers, from a remainder and a quotient for every bit that start at 0 and that each iteration joins. -/
theorem divuLoop_of_states (a b : Word) (r q : Nat → Nat) (hr : r 32 = 0) (hq : q 32 = 0)
    (hstep : ∀ i < 32, divuStep a b (divuState (r (i + 1)) (q (i + 1))) i = divuState (r i) (q i)) :
    divuLoop a b = (BitVec.ofNat 32 (q 0), BitVec.ofNat 32 (r 0)) := by
  have start : divuState (r 32) (q 32) = (0#33, 0#32) := by rw [hr, hq, divuState]
  have run : bitsUp.reverse.foldl (divuStep a b) (0#33, 0#32) = divuState (r 0) (q 0) :=
    start ▸ foldl_divuStep_reverse_range a b r q 32 hstep
  rw [← ofNat_extract_low_word (r 0), divuLoop, run, divuState]

/-- No bit of a word lies above bit 31. -/
theorem div_two_pow_32_eq_zero (a : Word) : a.toNat / 2 ^ 32 = 0 := Nat.div_eq_of_lt a.isLt

/-! ### A divisor other than 0 -/

/-- A digit of long division where the divisor fits into the remainder with the next bit. -/
theorem div_mod_shift_bit_of_le (x b d : Nat) (hb : 0 < b) (hd : d < 2) (le : b ≤ 2 * (x % b) + d) :
    (2 * x + d) / b = 2 * (x / b) + 1 ∧ (2 * x + d) % b = 2 * (x % b) + d - b := by
  have parts : b * (x / b) + x % b = x := Nat.div_add_mod x b
  have remainder_lt : x % b < b := Nat.mod_lt x hb
  rw [Nat.div_mod_unique hb, Nat.mul_add, Nat.mul_left_comm]
  omega

/-- A digit of long division where it does not. -/
theorem div_mod_shift_bit_of_lt (x b d : Nat) (lt : 2 * (x % b) + d < b) :
    (2 * x + d) / b = 2 * (x / b) ∧ (2 * x + d) % b = 2 * (x % b) + d := by
  have parts : b * (x / b) + x % b = x := Nat.div_add_mod x b
  rw [Nat.div_mod_unique (Nat.zero_lt_of_lt lt), Nat.mul_left_comm]
  omega

/-- An iteration leads from the division of the dividend's bits above bit i to that of its bits from i up. -/
theorem divuStep_long_division (a b : Word) (hb : 0 < b.toNat) (i : Nat) :
    divuStep a b (divuState (a.toNat / 2 ^ (i + 1) % b.toNat) (a.toNat / 2 ^ (i + 1) / b.toNat)) i =
      divuState (a.toNat / 2 ^ i % b.toNat) (a.toNat / 2 ^ i / b.toNat) := by
  have fits : a.toNat / 2 ^ (i + 1) % b.toNat < 2 ^ 32 := Nat.lt_trans (Nat.mod_lt _ hb) b.isLt
  rw [divuStep_divuState _ _ _ _ _ fits, div_two_pow_eq_shift_bit a i]
  split
  next le =>
    obtain ⟨quotient, remainder⟩ := div_mod_shift_bit_of_le _ _ _ hb (Bool.toNat_lt (a.getLsbD i)) le
    rw [quotient, remainder]
  next not_le =>
    obtain ⟨quotient, remainder⟩ := div_mod_shift_bit_of_lt _ _ _ (Nat.lt_of_not_le not_le)
    rw [quotient, remainder]

theorem divuLoop_eq_div_mod (a b : Word) (hb : 0 < b.toNat) :
    divuLoop a b = (BitVec.ofNat 32 (a.toNat / b.toNat), BitVec.ofNat 32 (a.toNat % b.toNat)) := by
  have run := divuLoop_of_states a b (fun k => a.toNat / 2 ^ k % b.toNat) (fun k => a.toNat / 2 ^ k / b.toNat)
    (by rw [div_two_pow_32_eq_zero, Nat.zero_mod]) (by rw [div_two_pow_32_eq_zero, Nat.zero_div])
    fun i _ => divuStep_long_division a b hb i
  rwa [Nat.pow_zero, Nat.div_one] at run

theorem divuLoop_toNat (a b : Word) (hb : 0 < b.toNat) :
    (divuLoop a b).1.toNat = a.toNat / b.toNat ∧ (divuLoop a b).2.toNat = a.toNat % b.toNat := by
  have quotient_lt : a.toNat / b.toNat < 2 ^ 32 := Nat.lt_of_le_of_lt (Nat.div_le_self _ _) a.isLt
  have remainder_lt : a.toNat % b.toNat < 2 ^ 32 := Nat.lt_of_le_of_lt (Nat.mod_le _ _) a.isLt
  rw [divuLoop_eq_div_mod a b hb]
  exact ⟨(BitVec.toNat_ofNat _ _).trans (Nat.mod_eq_of_lt quotient_lt),
    (BitVec.toNat_ofNat _ _).trans (Nat.mod_eq_of_lt remainder_lt)⟩

/-! ### A zero divisor (R304) -/

/-- With a zero divisor every trial subtraction succeeds and takes nothing away: the remainder is the dividend's bits seen so
far, and the quotient is all ones. -/
theorem divuStep_zero_divisor (a : Word) (i : Nat) (hi : i < 32) :
    divuStep a 0#32 (divuState (a.toNat / 2 ^ (i + 1)) (2 ^ (32 - (i + 1)) - 1)) i =
      divuState (a.toNat / 2 ^ i) (2 ^ (32 - i) - 1) := by
  have fits : a.toNat / 2 ^ (i + 1) < 2 ^ 32 := Nat.lt_of_le_of_lt (Nat.div_le_self _ _) a.isLt
  have one_more : 2 * (2 ^ (32 - (i + 1)) - 1) + 1 = 2 ^ (32 - i) - 1 := by
    have positive : 0 < 2 ^ (32 - (i + 1)) := Nat.two_pow_pos _
    have double : 2 ^ (32 - i) = 2 * 2 ^ (32 - (i + 1)) := by rw [← Nat.pow_succ']; congr 1; omega
    omega
  have zero : (0#32).toNat = 0 := rfl
  rw [divuStep_divuState _ _ _ _ _ fits, zero, if_pos (Nat.zero_le _), Nat.sub_zero, ← div_two_pow_eq_shift_bit, one_more]

theorem divuLoop_zero_divisor (a : Word) : divuLoop a 0#32 = (0xFFFFFFFF#32, a) := by
  have run := divuLoop_of_states a 0#32 (fun k => a.toNat / 2 ^ k) (fun k => 2 ^ (32 - k) - 1)
    (div_two_pow_32_eq_zero a) rfl (divuStep_zero_divisor a)
  rwa [Nat.pow_zero, Nat.div_one, BitVec.ofNat_toNat, BitVec.setWidth_eq] at run

/-! ### The operation -/

theorem divu_of_ne_zero (a b : Word) (hb : b ≠ 0#32) : divu a b = divuLoop a b := if_neg hb

theorem divu_zero_divisor (a : Word) : divu a 0#32 = (0xFFFFFFFF#32, a) := if_pos rfl

/-- Settles O52: the loop is long division by one bit at a time, and with a zero divisor it collects ones. -/
theorem unsignedDivision : Obligations.UnsignedDivision := by
  intro a b
  refine ⟨fun hb => ?_, divu_zero_divisor a, divuLoop_zero_divisor a⟩
  have positive : 0 < b.toNat := Nat.pos_of_ne_zero fun h => hb (BitVec.eq_of_toNat_eq h)
  rw [mdu, divu_of_ne_zero a b hb]
  exact divuLoop_toNat a b positive

end Sys2Proof.Proofs.MultiplyDivide
end

section
/-! The floating-point unit (43_fpu.md): packing and unpacking (R352, R353), sums that are +0 (R357, R361), and the product
(R362 to R364). -/

namespace Sys2Proof.Proofs.FloatingPoint

open Sys2Proof.Machine

/-! ## Packing and unpacking (R352, R353) -/

/-- Bits put above `n` others add their value times 2^n. -/
theorem append_toNat {m n : Nat} (x : BitVec m) (y : BitVec n) : (x ++ y).toNat = x.toNat * 2 ^ n + y.toNat := by
  rw [BitVec.toNat_append, ← Nat.shiftLeft_add_eq_or_of_lt y.isLt, Nat.shiftLeft_eq]

theorem top_bit_iff {n : Nat} (x : BitVec (n + 1)) : x.getLsbD n = true ↔ 2 ^ n ≤ x.toNat := by
  have msb : x.msb = x.getLsbD n := BitVec.msb_eq_getLsbD_last x
  rw [← msb, BitVec.msb_eq_decide, decide_eq_true_iff, Nat.add_sub_cancel]

/-- The three fields in a word, each cut to its own width. -/
theorem fpuPack_toNat (s e f : Nat) :
    (fpuPack s e f).toNat = s % 2 * 2 ^ 31 + (e % 2 ^ 8 * 2 ^ 23 + f % 2 ^ 23) := by
  simp only [fpuPack, append_toNat, BitVec.toNat_ofNat]
  omega

theorem fpuPack_bool_toNat (s : Bool) {e f : Nat} (he : e < 2 ^ 8) (hf : f < 2 ^ 23) :
    (fpuPack s.toNat e f).toNat = s.toNat * 2 ^ 31 + (e * 2 ^ 23 + f) := by
  rw [fpuPack_toNat, Nat.mod_eq_of_lt (Bool.toNat_lt s), Nat.mod_eq_of_lt he, Nat.mod_eq_of_lt hf]

theorem fpuPack_fields (w : Word) :
    fpuPack (w.toNat / 2 ^ 31) (w.toNat / 2 ^ 23 % 2 ^ 8) (w.toNat % 2 ^ 23) = w := by
  have bound : w.toNat < 2 ^ 32 := w.isLt
  apply BitVec.eq_of_toNat_eq
  rw [fpuPack_toNat]
  omega

theorem fpuUnpack_sign_iff (w : Word) : (fpuUnpack w).sign = true ↔ 2 ^ 31 ≤ w.toNat := top_bit_iff w

theorem fpuUnpack_exp_toNat (w : Word) : (fpuUnpack w).exp.toNat = w.toNat / 2 ^ 23 % 2 ^ 8 := by
  rw [fpuUnpack, BitVec.extractLsb'_toNat, Nat.shiftRight_eq_div_pow]

theorem fpuUnpack_sig_toNat (w : Word) :
    (fpuUnpack w).sig.toNat = w.toNat % 2 ^ 23 + (if w.toNat / 2 ^ 23 % 2 ^ 8 = 0 then 0 else 2 ^ 23) := by
  have fraction : (w.extractLsb' 0 23).toNat = w.toNat % 2 ^ 23 := by rw [BitVec.extractLsb'_toNat, Nat.shiftRight_zero]
  have exp_zero : w.extractLsb' 23 8 = 0#8 ↔ w.toNat / 2 ^ 23 % 2 ^ 8 = 0 := by
    rw [← fpuUnpack_exp_toNat, BitVec.toNat_eq]; rfl
  simp only [fpuUnpack, exp_zero]
  split
  next => rw [append_toNat, fraction]; exact Nat.add_comm _ _
  next => rw [append_toNat, fraction]; exact Nat.add_comm _ _

/-- Settles O54: each field is a slice of the word, and the slices put together are the word. -/
theorem floatUnpack : Obligations.FloatUnpack := by
  intro w
  exact ⟨fpuUnpack_sign_iff w, fpuUnpack_exp_toNat w, fpuUnpack_sig_toNat w, fpuPack_fields w⟩

/-! ## Sums of opposite values (R357, R361) -/

/-- Flipping bit 31 flips the sign and keeps the exponent and the significand. -/
theorem fpuUnpack_flip_sign (w : Word) :
    fpuUnpack (w ^^^ 0x80000000#32) = { fpuUnpack w with sign := !(fpuUnpack w).sign } := by
  have exp : (w ^^^ 0x80000000#32).extractLsb' 23 8 = w.extractLsb' 23 8 := by simp [BitVec.extractLsb'_xor]
  have fraction : (w ^^^ 0x80000000#32).extractLsb' 0 23 = w.extractLsb' 0 23 := by simp [BitVec.extractLsb'_xor]
  have sign : (w ^^^ 0x80000000#32).getLsbD 31 = !w.getLsbD 31 := by simp
  simp only [fpuUnpack, exp, fraction, sign]

/-- Operands of one exponent need no shift. -/
theorem faddAlign_of_exp_eq (x y : Unpacked) (h : x.exp = y.exp) : faddAlign x y = (x.sig.toNat, y.sig.toNat, x.exp.toNat) := by
  simp [faddAlign, h, shiftRightLogical]

theorem faddCombine_opposite (s : Bool) (m : Nat) : faddCombine s (!s) m m = (s, 0) := by
  simp [faddCombine]

/-- R357: a magnitude of 0 gives +0, whatever sign it comes with. -/
theorem fadd_eq_zero_of_combine (a b : Word) {m1 m2 e : Nat} {s : Bool}
    (align : faddAlign (fpuUnpack a) (fpuUnpack b) = (m1, m2, e))
    (combine : faddCombine (fpuUnpack a).sign (fpuUnpack b).sign m1 m2 = (s, 0)) : fadd a b = 0#32 := by
  simp only [fadd, align, combine, if_true]

theorem fadd_flip_sign (x : Word) : fadd x (x ^^^ 0x80000000#32) = 0#32 := by
  have flipped := fpuUnpack_flip_sign x
  have align := faddAlign_of_exp_eq (fpuUnpack x) (fpuUnpack (x ^^^ 0x80000000#32)) (by rw [flipped])
  apply fadd_eq_zero_of_combine x _ align (s := (fpuUnpack x).sign)
  rw [flipped, faddCombine_opposite]

theorem fadd_negative_zeros : fadd 0x80000000#32 0x80000000#32 = 0#32 :=
  fadd_eq_zero_of_combine _ _ (m1 := 0) (m2 := 0) (e := 0) (s := true) (by decide) (by decide)

/-- Settles O56: x and x with its sign flipped align without a shift and their magnitudes cancel; the difference x - x is
that sum. -/
theorem floatZeroAndSubtract : Obligations.FloatZeroAndSubtract :=
  ⟨fadd_flip_sign, fadd_negative_zeros, fun _ _ => rfl, fadd_flip_sign⟩

/-! ## The product (R362 to R364) -/

/-- The product of two 24-bit significands fits in 48 bits, so nothing is lost. -/
theorem significand_product_toNat (m n : BitVec 24) : (m.zeroExtend 48 * n.zeroExtend 48).toNat = m.toNat * n.toNat := by
  have fits : m.toNat * n.toNat < 2 ^ 48 := Nat.mul_lt_mul'' (c := 2 ^ 24) (d := 2 ^ 24) m.isLt n.isLt
  rw [BitVec.toNat_mul, BitVec.toNat_setWidth_of_le (by decide), BitVec.toNat_setWidth_of_le (by decide),
    Nat.mod_eq_of_lt fits]

theorem fmulWindow_snd (p : BitVec 48) (e : Int) : (fmulWindow p e).2 = e + (if 2 ^ 47 ≤ p.toNat then 1 else 0) := by
  simp only [fmulWindow, top_bit_iff]
  split
  next => rfl
  next => exact (Int.add_zero e).symm

/-- The fraction is the 23 bits below the window's top bit. -/
theorem fmulWindow_fraction_toNat (p : BitVec 48) (e : Int) :
    ((fmulWindow p e).1.extractLsb' 0 23).toNat =
      (if 2 ^ 47 ≤ p.toNat then p.toNat / 2 ^ 24 else p.toNat / 2 ^ 23) % 2 ^ 23 := by
  have cut (i : Nat) : ((p.extractLsb' i 24).extractLsb' 0 23).toNat = p.toNat / 2 ^ i % 2 ^ 23 := by
    rw [BitVec.extractLsb'_toNat, BitVec.extractLsb'_toNat, Nat.shiftRight_zero, Nat.shiftRight_eq_div_pow,
      Nat.mod_mod_of_dvd _ (Nat.pow_dvd_pow 2 (by decide))]
  simp only [fmulWindow, top_bit_iff]
  split
  next => exact cut 24
  next => exact cut 23

/-- The window and the exponent of the product of two unpacked operands, before underflow and overflow are looked at. -/
def fmulFields (x y : Unpacked) : BitVec 24 × Int :=
  fmulWindow (x.sig.zeroExtend 48 * y.sig.zeroExtend 48) (x.exp.toNat + y.exp.toNat - 127)

theorem fmulFields_exponent (x y : Unpacked) :
    (fmulFields x y).2 = x.exp.toNat + y.exp.toNat - 127 + (if 2 ^ 47 ≤ x.sig.toNat * y.sig.toNat then 1 else 0) := by
  rw [fmulFields, fmulWindow_snd, significand_product_toNat]

theorem fmulFields_fraction_toNat (x y : Unpacked) :
    ((fmulFields x y).1.extractLsb' 0 23).toNat =
      (if 2 ^ 47 ≤ x.sig.toNat * y.sig.toNat then x.sig.toNat * y.sig.toNat / 2 ^ 24
        else x.sig.toNat * y.sig.toNat / 2 ^ 23) % 2 ^ 23 := by
  rw [fmulFields, fmulWindow_fraction_toNat, significand_product_toNat]

theorem fmul_eq_pack_fields (a b : Word) :
    fmul a b =
      if (fmulFields (fpuUnpack a) (fpuUnpack b)).2 ≤ 0 then
        fpuPack ((fpuUnpack a).sign ^^ (fpuUnpack b).sign).toNat 0 0
      else if 255 ≤ (fmulFields (fpuUnpack a) (fpuUnpack b)).2 then
        fpuPack ((fpuUnpack a).sign ^^ (fpuUnpack b).sign).toNat 0xFF 0
      else
        fpuPack ((fpuUnpack a).sign ^^ (fpuUnpack b).sign).toNat (fmulFields (fpuUnpack a) (fpuUnpack b)).2.toNat
          ((fmulFields (fpuUnpack a) (fpuUnpack b)).1.extractLsb' 0 23).toNat := rfl

/-- Between an underflow and an overflow (R363, R364) the exponent fits its 8 bits, so packing cuts nothing. -/
theorem fmul_toNat (a b : Word) :
    (fmul a b).toNat = ((fpuUnpack a).sign ^^ (fpuUnpack b).sign).toNat * 2 ^ 31 +
      (if (fmulFields (fpuUnpack a) (fpuUnpack b)).2 ≤ 0 then 0
        else if 255 ≤ (fmulFields (fpuUnpack a) (fpuUnpack b)).2 then 0xFF * 2 ^ 23
        else (fmulFields (fpuUnpack a) (fpuUnpack b)).2.toNat * 2 ^ 23 +
          ((fmulFields (fpuUnpack a) (fpuUnpack b)).1.extractLsb' 0 23).toNat) := by
  rw [fmul_eq_pack_fields]
  split
  next => exact fpuPack_bool_toNat _ (by decide) (by decide)
  next =>
    split
    next => exact fpuPack_bool_toNat _ (by decide) (by decide)
    next => exact fpuPack_bool_toNat _ (by omega) (BitVec.isLt _)

/-- Settles O57: the product is exact, its window gives the exponent and the fraction, and they are packed. -/
theorem floatMultiply : Obligations.FloatMultiply := by
  intro a b
  rw [fmul_toNat, fmulFields_exponent, fmulFields_fraction_toNat]

end Sys2Proof.Proofs.FloatingPoint
end

section
/-! The two's-complement codec (44_codec.md): decoding (R402), and widening to at least the same width (R404 to R406). -/

namespace Sys2Proof.Proofs.Codec

open Sys2Proof.Machine Sys2Proof.Laws

/-! ## Decoding (R402) -/

/-- With the sign bit set, the value is minus the magnitude that inverting and adding one leaves. -/
theorem codecDecode_eq_toInt {n : Nat} (x : BitVec n) : codecDecode x = x.toInt := by
  rw [codecDecode, ← BitVec.msb_eq_getMsbD_zero, negate_eq_neg]
  split
  next negative => exact (BitVec.toInt_eq_neg_toNat_neg_of_msb_true negative).symm
  next nonnegative => exact (BitVec.toInt_eq_toNat_of_msb (Bool.eq_false_of_not_eq_true nonnegative)).symm

/-! ## Widening (R404 to R406) -/

theorem codecSignExtend_of_le {n m : Nat} (x : BitVec n) (hnm : n ≤ m) : codecSignExtend x m = .ok (x.signExtend m) :=
  if_neg (Nat.not_lt.mpr hnm)

theorem codecZeroExtend_of_le {n m : Nat} (x : BitVec n) (hnm : n ≤ m) : codecZeroExtend x m = .ok (x.zeroExtend m) :=
  if_neg (Nat.not_lt.mpr hnm)

theorem codecDecode_signExtend {n m : Nat} (x : BitVec n) (hnm : n ≤ m) :
    codecDecode (x.signExtend m) = codecDecode x := by
  rw [codecDecode_eq_toInt, codecDecode_eq_toInt, BitVec.toInt_signExtend_of_le hnm]

theorem signExtend_getLsbD_of_lt {n m : Nat} (x : BitVec n) (i : Nat) (hi : i < m) :
    (x.signExtend m).getLsbD i = if i < n then x.getLsbD i else x.msb := by
  rw [BitVec.getLsbD_signExtend, decide_eq_true hi, Bool.true_and]

/-- Reading `x` at or above its own width already answers 0, so the new bits are 0. -/
theorem zeroExtend_getLsbD_of_lt {n m : Nat} (x : BitVec n) (i : Nat) (hi : i < m) :
    (x.zeroExtend m).getLsbD i = if i < n then x.getLsbD i else false := by
  rw [BitVec.zeroExtend, BitVec.getLsbD_setWidth, decide_eq_true hi, Bool.true_and]
  split
  next => rfl
  next new_bit => exact BitVec.getLsbD_of_ge x i (Nat.not_lt.mp new_bit)

/-- Settles O59: neither request is refused, and each result has the value and the bits that its extension gives. -/
theorem codecWidening : Obligations.CodecWidening := by
  intro n m x hnm
  exact ⟨⟨x.signExtend m, codecSignExtend_of_le x hnm, codecDecode_signExtend x hnm, signExtend_getLsbD_of_lt x⟩,
    ⟨x.zeroExtend m, codecZeroExtend_of_le x hnm, BitVec.toNat_setWidth_of_le hnm, zeroExtend_getLsbD_of_lt x⟩⟩

end Sys2Proof.Proofs.Codec
end

section
/-! The step as the single-cycle datapath (45_sequencer.md R451): what the datapath does for each signal set of the control
table (40_control_unit.md R201, R202), and which signal set and which immediate the word of each instruction selects. -/

namespace Sys2Proof.Proofs.Datapath

open Sys2Proof.Machine Sys2Proof.Laws

/-! ## The stages of the datapath, by the signal that enables each -/

section
variable {c : ControlSignals}

theorem datapathRead_of_memRead (enabled : c.memRead = true) (a : Word) (s : State) : datapathRead c a s = s.dmemRead a :=
  if_pos enabled

theorem datapathRead_of_not_memRead (disabled : c.memRead = false) (a : Word) (s : State) :
    datapathRead c a s = .ok 0#32 :=
  if_neg (Bool.eq_false_iff.mp disabled)

theorem datapathWrite_of_memWrite (enabled : c.memWrite = true) (a v : Word) (s : State) :
    datapathWrite c a v s = s.dmemWrite a v :=
  if_pos enabled

theorem datapathWrite_of_not_memWrite (disabled : c.memWrite = false) (a v : Word) (s : State) :
    datapathWrite c a v s = .ok s :=
  if_neg (Bool.eq_false_iff.mp disabled)

/-- The datapath's own test of rd against x0 is the one that a register write makes anyway. -/
theorem datapathWriteback_of_regWrite (enabled : c.regWrite = true) (rd : RegIdx) (v : Word) (s : State) :
    datapathWriteback c rd v s = s.writeReg rd v := by
  by_cases x0 : rd = 0#5
  · subst x0
    exact if_neg fun h => h.2 rfl
  · exact if_pos ⟨enabled, x0⟩

theorem datapathWriteback_of_not_regWrite (disabled : c.regWrite = false) (rd : RegIdx) (v : Word) (s : State) :
    datapathWriteback c rd v s = s :=
  if_neg fun h => Bool.eq_false_iff.mp disabled h.1

end

/-- Without a jump signal, the pc is selected by the branch condition; NONE never holds. -/
theorem selectNext_controlBranch (c : BrCond) (v1 v2 imm pc : Word) :
    selectNext (controlBranch c) v1 v2 imm pc =
      if branchHolds c v1 v2 then relativeTarget pc imm else sequentialPc pc := by
  have taken : (c ≠ .none ∧ branchHolds c v1 v2) ∨ (controlBranch c).jump ↔ branchHolds c v1 v2 := by
    cases c <;> simp [controlBranch, controlDefault, branchHolds]
  exact (if_neg Bool.false_ne_true).trans (if_congr taken rfl rfl)

/-- The ALU makes the effective address of LW and SW. -/
theorem alu_eq_effectiveAddress {c : ControlSignals} (op : c.aluOp = .add) (a : c.aSrc = .reg) (b : c.bSrc = .imm)
    (pc v1 v2 imm upper : Word) :
    (alu c.aluOp (selectA c.aSrc pc v1) (selectB c.bSrc v2 imm upper)).result = effectiveAddress v1 imm := by
  rw [op, a, b]
  exact alu_add_result v1 imm

/-! ## What the datapath does for each signal set -/

section
variable {w : Word}

/-- With both memory signals off nothing can fault, and the step ends at the selected pc. -/
theorem datapath_of_no_access {c : ControlSignals} (signals : controlOf (decodeFields w) = c) (no_read : c.memRead = false)
    (no_write : c.memWrite = false) (s : State) :
    datapath w s =
      go (selectNext c (s.readReg (decodeFields w).rs1) (s.readReg (decodeFields w).rs2) (immediate w) s.pc)
        (datapathWriteback c (decodeFields w).rd (selectWriteback c 0#32
          (alu c.aluOp (selectA c.aSrc s.pc (s.readReg (decodeFields w).rs1))
            (selectB c.bSrc (s.readReg (decodeFields w).rs2) (immediate w) (immU (immBitsU w)))).result s.pc) s) := by
  simp only [datapath, signals, datapathRead_of_not_memRead no_read, datapathWrite_of_not_memWrite no_write]

theorem datapath_of_regWrite {c : ControlSignals} (signals : controlOf (decodeFields w) = c) (no_read : c.memRead = false)
    (no_write : c.memWrite = false) (enabled : c.regWrite = true) (s : State) :
    datapath w s = writeAndGo (decodeFields w).rd
      (selectWriteback c 0#32
        (alu c.aluOp (selectA c.aSrc s.pc (s.readReg (decodeFields w).rs1))
          (selectB c.bSrc (s.readReg (decodeFields w).rs2) (immediate w) (immU (immBitsU w)))).result s.pc)
      (selectNext c (s.readReg (decodeFields w).rs1) (s.readReg (decodeFields w).rs2) (immediate w) s.pc) s := by
  rw [datapath_of_no_access signals no_read no_write, datapathWriteback_of_regWrite enabled]
  rfl

theorem datapath_of_controlAlu {op : AluOp} (signals : controlOf (decodeFields w) = controlAlu op) (s : State) :
    datapath w s =
      aluToReg op (decodeFields w).rd (s.readReg (decodeFields w).rs1) (s.readReg (decodeFields w).rs2) s :=
  datapath_of_regWrite signals rfl rfl rfl s

theorem datapath_of_controlAluImm {op : AluOp} (signals : controlOf (decodeFields w) = controlAluImm op) (s : State) :
    datapath w s = aluToReg op (decodeFields w).rd (s.readReg (decodeFields w).rs1) (immediate w) s :=
  datapath_of_regWrite signals rfl rfl rfl s

/-- Operand A is x[rs1] here and reaches no result, so 0 may stand for it (R201). -/
theorem datapath_of_controlLui (signals : controlOf (decodeFields w) = controlLui) (s : State) :
    datapath w s = aluToReg .copyB (decodeFields w).rd 0#32 (immU (immBitsU w)) s :=
  datapath_of_regWrite signals rfl rfl rfl s

theorem datapath_of_controlAuipc (signals : controlOf (decodeFields w) = controlAuipc) (s : State) :
    datapath w s = aluToReg .add (decodeFields w).rd s.pc (immediate w) s :=
  datapath_of_regWrite signals rfl rfl rfl s

theorem datapath_of_controlJal (signals : controlOf (decodeFields w) = controlJal) (s : State) :
    datapath w s =
      writeAndGo (decodeFields w).rd (sequentialPc s.pc) (relativeTarget s.pc (immediate w)) s :=
  datapath_of_regWrite signals rfl rfl rfl s

theorem datapath_of_controlJalr (signals : controlOf (decodeFields w) = controlJalr) (s : State) :
    datapath w s = writeAndGo (decodeFields w).rd (sequentialPc s.pc)
      (indirectTarget (s.readReg (decodeFields w).rs1) (immediate w)) s :=
  datapath_of_regWrite signals rfl rfl rfl s

theorem datapath_of_controlBranch {c : BrCond} (signals : controlOf (decodeFields w) = controlBranch c) (s : State) :
    datapath w s = go (if branchHolds c (s.readReg (decodeFields w).rs1) (s.readReg (decodeFields w).rs2)
      then relativeTarget s.pc (immediate w) else sequentialPc s.pc) s := by
  rw [datapath_of_no_access signals rfl rfl, datapathWriteback_of_not_regWrite rfl, selectNext_controlBranch]

/-- The default signal set is a branch that is never taken. -/
theorem datapath_of_controlDefault (signals : controlOf (decodeFields w) = controlDefault) (s : State) :
    datapath w s = go (sequentialPc s.pc) s :=
  datapath_of_controlBranch (c := .none) signals s

theorem datapath_of_controlLoad (signals : controlOf (decodeFields w) = controlLoad) {imm : BitVec 12}
    (operand : immediate w = immI imm) (s : State) :
    datapath w s = execLw (decodeFields w).rd (decodeFields w).rs1 imm s := by
  simp only [datapath, signals, operand, alu_eq_effectiveAddress (c := controlLoad) rfl rfl rfl,
    datapathRead_of_memRead (c := controlLoad) rfl, datapathWrite_of_not_memWrite (c := controlLoad) rfl,
    datapathWriteback_of_regWrite (c := controlLoad) rfl]
  rfl

theorem datapath_of_controlStore (signals : controlOf (decodeFields w) = controlStore) {imm : BitVec 12}
    (operand : immediate w = immS imm) (s : State) :
    datapath w s = execSw (decodeFields w).rs2 (decodeFields w).rs1 imm s := by
  simp only [datapath, signals, operand, alu_eq_effectiveAddress (c := controlStore) rfl rfl rfl,
    datapathRead_of_not_memRead (c := controlStore) rfl, datapathWrite_of_memWrite (c := controlStore) rfl,
    datapathWriteback_of_not_regWrite (c := controlStore) rfl]
  rfl

end

/-! ## The signal set and the immediate that a word selects -/

/-- The I-immediate of a shift is its funct7 above its shamt (30_encoding.md R160). -/
theorem immBitsI_eq_append (w : Word) : immBitsI w = w.extractLsb' 25 7 ++ w.extractLsb' 20 5 := by
  rw [← immBitsI_encodeR, encodeR_fields]

section
variable {w : Word}

theorem controlOf_eq {opcode : BitVec 7} (h : w.extractLsb' 0 7 = opcode) :
    controlOf (decodeFields w) = controlUnit opcode (w.extractLsb' 12 3) (w.extractLsb' 25 7) := by
  subst h
  rfl

/-- An opcode of no row selects the default signals (R202). -/
theorem controlUnit_of_other_opcode {opcode : BitVec 7} (lui : opcode ≠ 0b0110111#7) (auipc : opcode ≠ 0b0010111#7)
    (jal : opcode ≠ 0b1101111#7) (jalr : opcode ≠ 0b1100111#7) (branch : opcode ≠ 0b1100011#7)
    (load : opcode ≠ 0b0000011#7) (store : opcode ≠ 0b0100011#7) (opImm : opcode ≠ 0b0010011#7)
    (op : opcode ≠ 0b0110011#7) (funct3 : BitVec 3) (funct7 : BitVec 7) :
    controlUnit opcode funct3 funct7 = controlDefault := by
  unfold controlUnit
  split
  next h => exact absurd (BitVec.eq_of_toNat_eq h) lui
  next h => exact absurd (BitVec.eq_of_toNat_eq h) auipc
  next h => exact absurd (BitVec.eq_of_toNat_eq h) jal
  next h => exact absurd (BitVec.eq_of_toNat_eq h) jalr
  next h => exact absurd (BitVec.eq_of_toNat_eq h) branch
  next h => exact absurd (BitVec.eq_of_toNat_eq h) load
  next h => exact absurd (BitVec.eq_of_toNat_eq h) store
  next h => exact absurd (BitVec.eq_of_toNat_eq h) opImm
  next h => exact absurd (BitVec.eq_of_toNat_eq h) op
  next => rfl

theorem controlOpImm_of_other_funct7 {funct7 : BitVec 7} (zero : funct7 ≠ 0b0000000#7)
    (alternate : funct7 ≠ 0b0100000#7) : controlOpImm 0b101#3 funct7 = controlDefault := by
  unfold controlOpImm
  split
  case h_8 _ h => exact absurd (BitVec.eq_of_toNat_eq h) zero
  case h_9 _ h => exact absurd (BitVec.eq_of_toNat_eq h) alternate
  case h_10 => rfl
  all_goals exact absurd ‹(5#3).toNat = _› (by decide)

theorem controlOp_of_other_funct7 {funct3 : BitVec 3} {funct7 : BitVec 7} (zero : funct7 ≠ 0b0000000#7)
    (alternate : ¬ (funct7 = 0b0100000#7 ∧ (funct3 = 0b000#3 ∨ funct3 = 0b101#3))) :
    controlOp funct3 funct7 = controlDefault := by
  unfold controlOp
  split
  case h_2 h3 h7 => exact absurd ⟨BitVec.eq_of_toNat_eq h7, .inl (BitVec.eq_of_toNat_eq h3)⟩ alternate
  case h_8 h3 h7 => exact absurd ⟨BitVec.eq_of_toNat_eq h7, .inr (BitVec.eq_of_toNat_eq h3)⟩ alternate
  case h_11 => rfl
  all_goals exact absurd (BitVec.eq_of_toNat_eq ‹funct7.toNat = 0›) zero

theorem immediate_of_immI
    (opcode : w.extractLsb' 0 7 = 0b0010011#7 ∨ w.extractLsb' 0 7 = 0b0000011#7 ∨ w.extractLsb' 0 7 = 0b1100111#7) :
    immediate w = immI (immBitsI w) :=
  if_pos opcode

theorem immediate_of_store (opcode : w.extractLsb' 0 7 = 0b0100011#7) : immediate w = immS (immBitsS w) := by
  simp [immediate, decodeFields, opcode]

theorem immediate_of_branch (opcode : w.extractLsb' 0 7 = 0b1100011#7) : immediate w = immB (immBitsB w) := by
  simp [immediate, decodeFields, opcode]

theorem immediate_of_auipc (opcode : w.extractLsb' 0 7 = 0b0010111#7) : immediate w = immU (immBitsU w) := by
  simp [immediate, decodeFields, opcode]

theorem immediate_of_jal (opcode : w.extractLsb' 0 7 = 0b1101111#7) : immediate w = immJ (immBitsJ w) := by
  simp [immediate, decodeFields, opcode]

/-! ## The families of instructions that share an opcode -/

theorem datapath_of_op (opcode : w.extractLsb' 0 7 = 0b0110011#7) {op : AluOp}
    (signals : controlOp (w.extractLsb' 12 3) (w.extractLsb' 25 7) = controlAlu op) (s : State) :
    datapath w s = aluToReg op (w.extractLsb' 7 5) (s.readReg (w.extractLsb' 15 5)) (s.readReg (w.extractLsb' 20 5)) s :=
  datapath_of_controlAlu ((controlOf_eq opcode).trans signals) s

theorem datapath_of_opImm (opcode : w.extractLsb' 0 7 = 0b0010011#7) {op : AluOp}
    (signals : controlOpImm (w.extractLsb' 12 3) (w.extractLsb' 25 7) = controlAluImm op) (s : State) :
    datapath w s = aluToReg op (w.extractLsb' 7 5) (s.readReg (w.extractLsb' 15 5)) (immI (immBitsI w)) s := by
  rw [datapath_of_controlAluImm ((controlOf_eq opcode).trans signals), immediate_of_immI (.inl opcode)]
  rfl

theorem datapath_of_shiftImm (opcode : w.extractLsb' 0 7 = 0b0010011#7) {funct7 : BitVec 7}
    (shift_kind : w.extractLsb' 25 7 = funct7) {op : AluOp}
    (signals : controlOpImm (w.extractLsb' 12 3) funct7 = controlAluImm op) (s : State) :
    datapath w s =
      aluToReg op (w.extractLsb' 7 5) (s.readReg (w.extractLsb' 15 5)) (immI (funct7 ++ w.extractLsb' 20 5)) s := by
  subst shift_kind
  rw [datapath_of_opImm opcode signals, immBitsI_eq_append]

theorem datapath_of_branch (opcode : w.extractLsb' 0 7 = 0b1100011#7) {c : BrCond}
    (signals : controlBranches (w.extractLsb' 12 3) = controlBranch c) (s : State) :
    datapath w s = branchOn c (w.extractLsb' 15 5) (w.extractLsb' 20 5) (immBitsB w) s := by
  rw [datapath_of_controlBranch ((controlOf_eq opcode).trans signals), immediate_of_branch opcode]
  rfl

end

/-! ## The step -/

/-- Every word does in the datapath what its instruction means. -/
theorem datapath_eq_exec_decode (w : Word) (s : State) : datapath w s = exec (decode w) s := by
  have decodes := decode_spec w
  generalize decode w = i at decodes ⊢
  cases decodes
  case lui opcode => exact datapath_of_controlLui (controlOf_eq opcode) s
  case auipc opcode =>
    rw [datapath_of_controlAuipc (controlOf_eq opcode), immediate_of_auipc opcode]
    rfl
  case jal opcode =>
    rw [datapath_of_controlJal (controlOf_eq opcode), immediate_of_jal opcode]
    rfl
  case jalr opcode funct3 =>
    have signals := (controlOf_eq opcode).trans (if_pos (congrArg BitVec.toNat funct3))
    rw [datapath_of_controlJalr signals, immediate_of_immI (.inr (.inr opcode))]
    rfl
  case lw opcode funct3 =>
    have signals := (controlOf_eq opcode).trans (if_pos (congrArg BitVec.toNat funct3))
    exact datapath_of_controlLoad signals (immediate_of_immI (.inr (.inl opcode))) s
  case sw opcode funct3 =>
    have signals := (controlOf_eq opcode).trans (if_pos (congrArg BitVec.toNat funct3))
    exact datapath_of_controlStore signals (immediate_of_store opcode) s
  case beq opcode funct3 | bne opcode funct3 | blt opcode funct3 | bge opcode funct3 | bltu opcode funct3
      | bgeu opcode funct3 =>
    exact datapath_of_branch opcode (by rw [funct3]; rfl) s
  case add opcode funct3 funct7 | sub opcode funct3 funct7 | sll opcode funct3 funct7 | slt opcode funct3 funct7
      | sltu opcode funct3 funct7 | xor opcode funct3 funct7 | srl opcode funct3 funct7 | sra opcode funct3 funct7
      | or opcode funct3 funct7 | and opcode funct3 funct7 =>
    exact datapath_of_op opcode (by rw [funct3, funct7]; rfl) s
  case addi opcode funct3 | slti opcode funct3 | sltiu opcode funct3 | xori opcode funct3 | ori opcode funct3
      | andi opcode funct3 =>
    exact datapath_of_opImm opcode (by rw [funct3]; rfl) s
  case slli opcode funct3 => exact datapath_of_shiftImm opcode rfl (by rw [funct3]; rfl) s
  case srli opcode funct3 funct7 | srai opcode funct3 funct7 =>
    exact datapath_of_shiftImm opcode funct7 (by rw [funct3]; rfl) s
  case jalrFunct3 opcode funct3 | loadFunct3 opcode funct3 | storeFunct3 opcode funct3 =>
    have signals := (controlOf_eq opcode).trans (if_neg fun h => funct3 (BitVec.eq_of_toNat_eq h))
    exact datapath_of_controlDefault signals s
  case branchFunct3 opcode funct3 =>
    have signals : controlBranches (w.extractLsb' 12 3) = controlDefault := by
      obtain h | h := funct3 <;> rw [h] <;> rfl
    exact datapath_of_controlDefault ((controlOf_eq opcode).trans signals) s
  case opImmFunct7 opcode funct3 zero alternate =>
    have signals := (controlOf_eq opcode).trans (funct3 ▸ controlOpImm_of_other_funct7 zero alternate)
    exact datapath_of_controlDefault signals s
  case opFunct7 opcode zero alternate =>
    exact datapath_of_controlDefault ((controlOf_eq opcode).trans (controlOp_of_other_funct7 zero alternate)) s
  case opcode lui auipc jal jalr branch load store opImm op =>
    exact datapath_of_controlDefault
      (controlUnit_of_other_opcode lui auipc jal jalr branch load store opImm op _ _) s

/-- Settles O10: both steps fetch the same word or stop with the same fault, and every word then does the same in both. -/
theorem stepIsTheDatapath : Obligations.StepIsTheDatapath := by
  intro s
  unfold step datapathStep
  cases s.fetch with
  | error f => rfl
  | ok w => exact (datapath_eq_exec_decode w s).symm

end Sys2Proof.Proofs.Datapath
end

section
/-! The computational instructions (46_alu_instructions.md): what a write to rd leaves of a state, the results of the shifts, and
what the words of OP, OP-IMM, LUI and AUIPC decode to. -/

namespace Sys2Proof.Proofs.AluInstructions

open Sys2Proof.Machine Sys2Proof.Laws Sys2Proof.Proofs.BitPrimitives

/-! ## The state that a write to rd leaves -/

theorem readReg_writeReg (s : State) (rd i : RegIdx) (v : Word) :
    (s.writeReg rd v).readReg i = if i = rd ∧ rd ≠ 0#5 then v else s.readReg i := by
  split
  next h =>
    obtain ⟨rfl, nonzero⟩ := h
    exact readReg_writeReg_self s i v nonzero
  next h =>
    by_cases x0 : rd = 0#5
    · subst x0
      rw [writeReg_zero]
    · exact readReg_writeReg_ne s rd i v fun same => h ⟨same, x0⟩

theorem sameMemories_writeReg_commit (s : State) (rd : RegIdx) (v next : Word) :
    SameMemories s ((s.writeReg rd v).commit next) := by
  simp [SameMemories]

theorem writes_writeAndGo (s : State) (rd : RegIdx) (v next : Word) : Writes s rd v next (writeAndGo rd v next s) :=
  ⟨(s.writeReg rd v).commit next, writeAndGo_eq rd v next s, commit_pc (s.writeReg rd v) next,
    congrArg (· + 1) (writeReg_steps s rd v), sameMemories_writeReg_commit s rd v next, fun i => readReg_writeReg s rd i v⟩

section
variable {op : AluOp} {a v : Word} (rd : RegIdx) (s : State)

theorem writes_aluToReg {b : Word} (result : (alu op a b).result = v) :
    Writes s rd v (s.pc + 4) (aluToReg op rd a b s) := by
  subst result
  exact writes_writeAndGo s rd (alu op a b).result (s.pc + 4)

theorem writes_aluToReg_immI {imm : BitVec 12} (result : (alu op a (imm.signExtend 32)).result = v) :
    Writes s rd v (s.pc + 4) (aluToReg op rd a (immI imm) s) :=
  writes_aluToReg rd s (by rw [immI_eq, result])

end

/-! ## The ALU's shifts as arithmetic -/

theorem alu_sll_eq_ofNat (a b : Word) : (alu .sll a b).result = BitVec.ofNat 32 (a.toNat * 2 ^ shiftAmount b) :=
  BitVec.eq_of_toNat_eq (shiftLeftLogical_toNat a (shiftAmount b))

theorem alu_srl_eq_ofNat (a b : Word) : (alu .srl a b).result = BitVec.ofNat 32 (a.toNat / 2 ^ shiftAmount b) := by
  rw [← shiftRightLogical_toNat, BitVec.ofNat_toNat, BitVec.setWidth_eq]
  rfl

theorem alu_sra_eq_ofInt (a b : Word) : (alu .sra a b).result = BitVec.ofInt 32 (a.toInt / 2 ^ shiftAmount b) :=
  shiftRightArithmetic_eq_ofInt a (shiftAmount b)

/-! ## The words of OP and OP-IMM -/

/-- The R-format as the statements lay it out is the encoder's. -/
theorem wordR_eq_encodeR : wordR = encodeR := rfl

theorem wordI_eq_encodeR (imm : BitVec 12) (rs1 : RegIdx) (funct3 : BitVec 3) (rd : RegIdx) (opcode : BitVec 7) :
    wordI imm rs1 funct3 rd opcode = encodeR (imm.extractLsb' 5 7) (imm.extractLsb' 0 5) rs1 funct3 rd opcode :=
  encodeI_eq imm rs1 funct3 rd opcode

@[simp] theorem immBitsI_wordI (imm : BitVec 12) (rs1 : RegIdx) (funct3 : BitVec 3) (rd : RegIdx) (opcode : BitVec 7) :
    immBitsI (wordI imm rs1 funct3 rd opcode) = imm := by
  rw [wordI_eq_encodeR, immBitsI_encodeR, append_parts_12]

theorem decode_of_opcode_op {w : Word} (opcode : (decodeFields w).opcode = 0b0110011#7) :
    decode w = decodeOp (decodeFields w) := by
  simp [decode, opcode]

theorem decode_of_opcode_opImm {w : Word} (opcode : (decodeFields w).opcode = 0b0010011#7) :
    decode w = decodeOpImm (decodeFields w) := by
  simp [decode, opcode]

theorem decode_wordR_op (funct7 : BitVec 7) (rs2 rs1 : RegIdx) (funct3 : BitVec 3) (rd : RegIdx) :
    decode (wordR funct7 rs2 rs1 funct3 rd 0b0110011#7) =
      decodeOp ⟨wordR funct7 rs2 rs1 funct3 rd 0b0110011#7, 0b0110011#7, rd, rs1, rs2, funct3, funct7⟩ := by
  rw [wordR_eq_encodeR, decode_of_opcode_op (by rw [decodeFields_encodeR]), decodeFields_encodeR]

theorem decode_wordR_opImm (funct7 : BitVec 7) (shamt rs1 : RegIdx) (funct3 : BitVec 3) (rd : RegIdx) :
    decode (wordR funct7 shamt rs1 funct3 rd 0b0010011#7) =
      decodeOpImm ⟨wordR funct7 shamt rs1 funct3 rd 0b0010011#7, 0b0010011#7, rd, rs1, shamt, funct3, funct7⟩ := by
  rw [wordR_eq_encodeR, decode_of_opcode_opImm (by rw [decodeFields_encodeR]), decodeFields_encodeR]

/-- An I-format word of OP-IMM that is no shift is read by its funct3, and its immediate is the one it was made of. -/
theorem decode_wordI_opImm {funct3 : BitVec 3} {instr : RegIdx → RegIdx → BitVec 12 → Instr}
    (row : ∀ d : DecodedInstruction, d.funct3 = funct3 → decodeOpImm d = instr d.rd d.rs1 (immBitsI d.raw))
    (imm : BitVec 12) (rs1 rd : RegIdx) :
    decode (wordI imm rs1 funct3 rd 0b0010011#7) = instr rd rs1 imm := by
  have fields := decodeFields_encodeR (imm.extractLsb' 5 7) (imm.extractLsb' 0 5) rs1 funct3 rd 0b0010011#7
  rw [← wordI_eq_encodeR] at fields
  rw [decode_of_opcode_opImm (by rw [fields]), row _ (by rw [fields]), fields, immBitsI_wordI]

/-! ## The register-register instructions -/

/-- Settles O23: the fields of the word pick the row, and `rd` gets the ALU's result, a shift's amount being the low five
bits of the second operand. -/
theorem registerRegisterResults : Obligations.RegisterRegisterResults := by
  intro rd rs1 rs2 s
  exact ⟨⟨decode_wordR_op 0b0000000 rs2 rs1 0b000 rd, writes_aluToReg rd s (alu_add_result _ _)⟩,
    ⟨decode_wordR_op 0b0100000 rs2 rs1 0b000 rd, writes_aluToReg rd s (alu_sub_result _ _)⟩,
    ⟨decode_wordR_op 0b0000000 rs2 rs1 0b001 rd, writes_aluToReg rd s (alu_sll_eq_ofNat _ _)⟩,
    ⟨decode_wordR_op 0b0000000 rs2 rs1 0b100 rd, writes_aluToReg rd s (alu_xor_result _ _)⟩,
    ⟨decode_wordR_op 0b0000000 rs2 rs1 0b101 rd, writes_aluToReg rd s (alu_srl_eq_ofNat _ _)⟩,
    ⟨decode_wordR_op 0b0100000 rs2 rs1 0b101 rd, writes_aluToReg rd s (alu_sra_eq_ofInt _ _)⟩,
    ⟨decode_wordR_op 0b0000000 rs2 rs1 0b110 rd, writes_aluToReg rd s (alu_or_result _ _)⟩,
    ⟨decode_wordR_op 0b0000000 rs2 rs1 0b111 rd, writes_aluToReg rd s (alu_and_result _ _)⟩⟩

/-! ## The register-immediate instructions -/

theorem decode_slli_word (funct7 : BitVec 7) (shamt rs1 rd : RegIdx) :
    decode (wordR funct7 shamt rs1 0b001 rd 0b0010011) = .slli rd rs1 funct7 shamt :=
  decode_wordR_opImm funct7 shamt rs1 0b001 rd

theorem alu_sll_immI (a : Word) (funct7 : BitVec 7) (shamt : BitVec 5) :
    (alu .sll a (immI (funct7 ++ shamt))).result = BitVec.ofNat 32 (a.toNat * 2 ^ shamt.toNat) := by
  rw [alu_sll_eq_ofNat, shiftAmount_immI]

/-- Settles O25: the row is picked by funct3 alone, so SLLI's funct7 is free, and it falls outside the shift amount. -/
theorem registerImmediateResults : Obligations.RegisterImmediateResults := by
  intro rd rs1 imm funct7 shamt s
  refine ⟨⟨decode_wordI_opImm ?addi imm rs1 rd, writes_aluToReg_immI rd s (alu_add_result _ _)⟩,
    ⟨decode_wordI_opImm ?xori imm rs1 rd, writes_aluToReg_immI rd s (alu_xor_result _ _)⟩,
    ⟨decode_wordI_opImm ?ori imm rs1 rd, writes_aluToReg_immI rd s (alu_or_result _ _)⟩,
    ⟨decode_wordI_opImm ?andi imm rs1 rd, writes_aluToReg_immI rd s (alu_and_result _ _)⟩,
    ⟨decode_slli_word funct7 shamt rs1 rd, writes_aluToReg rd s (alu_sll_immI _ funct7 shamt)⟩⟩
  all_goals
    intro d funct3
    simp [decodeOpImm, funct3]

/-! ## The upper-immediate instructions -/

theorem immU_eq_ofNat (imm20 : BitVec 20) : immU imm20 = BitVec.ofNat 32 (imm20.toNat * 2 ^ 12) := by
  have value : (immU imm20).toNat = imm20.toNat * 2 ^ 12 := by
    rw [immU, FloatingPoint.append_toNat, BitVec.toNat_zero, Nat.add_zero]
  rw [← value, BitVec.ofNat_toNat, BitVec.setWidth_eq]

/-- The fields of a U-format word that its decoding reads. -/
theorem decodeFields_encodeU_opcode_rd (imm20 : BitVec 20) (rd : RegIdx) (opcode : BitVec 7) :
    (decodeFields (encodeU imm20 rd opcode)).opcode = opcode ∧ (decodeFields (encodeU imm20 rd opcode)).rd = rd := by
  rw [encodeU_eq, decodeFields_encodeR]
  exact ⟨rfl, rfl⟩

theorem decode_encodeU_lui (imm20 : BitVec 20) (rd : RegIdx) :
    decode (encodeU imm20 rd 0b0110111#7) = .lui rd imm20 := by
  obtain ⟨opcode, rd_eq⟩ := decodeFields_encodeU_opcode_rd imm20 rd 0b0110111#7
  simp [decode, opcode, rd_eq]

theorem decode_encodeU_auipc (imm20 : BitVec 20) (rd : RegIdx) :
    decode (encodeU imm20 rd 0b0010111#7) = .auipc rd imm20 := by
  obtain ⟨opcode, rd_eq⟩ := decodeFields_encodeU_opcode_rd imm20 rd 0b0010111#7
  simp [decode, opcode, rd_eq]

/-- Settles O27: LUI passes the upper immediate through the ALU and AUIPC adds the pc to it. -/
theorem upperImmediateResults : Obligations.UpperImmediateResults := by
  intro rd imm20 s
  rw [← immU_eq_ofNat]
  exact ⟨⟨decode_encodeU_lui imm20 rd, writes_aluToReg rd s (alu_copyB_result _ _)⟩,
    ⟨decode_encodeU_auipc imm20 rd, writes_aluToReg rd s (alu_add_result _ _)⟩⟩

end Sys2Proof.Proofs.AluInstructions
end

section
/-! The control transfers (47_control_transfer.md): what their words decode to, when each branch is taken, and the state that a
step without a register write leaves. -/

namespace Sys2Proof.Proofs.ControlTransfer

open Sys2Proof.Machine Sys2Proof.Laws Sys2Proof.Proofs.AluInstructions

/-! ## The words of JAL and of the branches -/

/-- The J-format as the statement lays it out is the encoder's: each part of the offset comes back once the parts below it are
dropped. -/
theorem encodeJ_offsetJ (b20 b11 : BitVec 1) (b19to12 : BitVec 8) (b10to1 : BitVec 10) (rd : RegIdx) (opcode : BitVec 7) :
    encodeJ (offsetJ b20 b19to12 b11 b10to1) rd opcode = wordJ b20 b10to1 b11 b19to12 rd opcode := by
  unfold encodeJ wordJ offsetJ
  congr
  all_goals repeat rw [BitVec.extractLsb'_append_eq_of_le (by decide)]
  exacts [BitVec.extractLsb'_eq_self, BitVec.extractLsb'_append_eq_right, BitVec.extractLsb'_append_eq_right,
    BitVec.extractLsb'_append_eq_right]

/-- The B-format as the statement lays it out is the encoder's, by the same argument. -/
theorem encodeB_offsetB (b12 b11 : BitVec 1) (b10to5 : BitVec 6) (b4to1 : BitVec 4) (rs2 rs1 : RegIdx) (funct3 : BitVec 3)
    (opcode : BitVec 7) :
    encodeB (offsetB b12 b11 b10to5 b4to1) rs2 rs1 funct3 opcode = wordB b12 b10to5 rs2 rs1 funct3 b4to1 b11 opcode := by
  unfold encodeB wordB offsetB
  congr
  all_goals repeat rw [BitVec.extractLsb'_append_eq_of_le (by decide)]
  exacts [BitVec.extractLsb'_eq_self, BitVec.extractLsb'_append_eq_right, BitVec.extractLsb'_append_eq_right,
    BitVec.extractLsb'_append_eq_right]

theorem offsetJ_even (b20 b11 : BitVec 1) (b19to12 : BitVec 8) (b10to1 : BitVec 10) :
    (offsetJ b20 b19to12 b11 b10to1).getLsbD 0 = false :=
  BitVec.getLsbD_append

theorem offsetB_even (b12 b11 : BitVec 1) (b10to5 : BitVec 6) (b4to1 : BitVec 4) :
    (offsetB b12 b11 b10to5 b4to1).getLsbD 0 = false :=
  BitVec.getLsbD_append

theorem decode_encodeJ_jal (rd : RegIdx) {offset : BitVec 21} (even : offset.getLsbD 0 = false) :
    decode (encodeJ offset rd 0b1101111#7) = .jal rd offset := by
  obtain ⟨opcode, rd_eq⟩ : (decodeFields (encodeJ offset rd 0b1101111#7)).opcode = 0b1101111#7 ∧
      (decodeFields (encodeJ offset rd 0b1101111#7)).rd = rd := decodeFields_encodeU_opcode_rd _ rd _
  simp [decode, opcode, rd_eq, immBitsJ_encodeJ _ _ _ even]

theorem decode_of_opcode_branch {w : Word} (opcode : (decodeFields w).opcode = 0b1100011#7) :
    decode w = decodeBranch (decodeFields w) := by
  simp [decode, opcode]

/-- A B-format word of BRANCH is read by its funct3, and its offset is the even one it was made of. -/
theorem decode_encodeB_branch {funct3 : BitVec 3} {instr : RegIdx → RegIdx → BitVec 13 → Instr}
    (row : ∀ d : DecodedInstruction, d.funct3 = funct3 → decodeBranch d = instr d.rs1 d.rs2 (immBitsB d.raw))
    (rs1 rs2 : RegIdx) {offset : BitVec 13} (even : offset.getLsbD 0 = false) :
    decode (encodeB offset rs2 rs1 funct3 0b1100011#7) = instr rs1 rs2 offset := by
  have fields := decodeFields_encodeR (offset.extractLsb' 12 1 ++ offset.extractLsb' 5 6) rs2 rs1 funct3
    (offset.extractLsb' 1 4 ++ offset.extractLsb' 11 1) 0b1100011#7
  rw [← encodeB_eq] at fields
  rw [decode_of_opcode_branch (by rw [fields]), row _ (by rw [fields]), fields, immBitsB_encodeB _ _ _ _ _ even]

/-! ## The condition of each branch -/

section
variable (a b : Word)

theorem branchHolds_eq_iff : branchHolds .eq a b ↔ a = b := beq_iff_eq

theorem branchHolds_ne_iff : branchHolds .ne a b ↔ a ≠ b := bne_iff_ne

theorem branchHolds_lt_iff : branchHolds .lt a b ↔ a.toInt < b.toInt := decide_eq_true_iff

theorem branchHolds_ge_iff : branchHolds .ge a b ↔ b.toInt ≤ a.toInt := by
  simp [branchHolds, lessSigned]

theorem branchHolds_ltu_iff : branchHolds .ltu a b ↔ a.toNat < b.toNat := decide_eq_true_iff

theorem branchHolds_geu_iff : branchHolds .geu a b ↔ b.toNat ≤ a.toNat := by
  simp [branchHolds, lessUnsigned]

end

/-! ## The state that a branch leaves -/

theorem moves_go (s : State) (next : Word) : Moves s next (go next s) :=
  ⟨s.commit next, go_eq next s, commit_pc s next, commit_steps s next, sameMemories_writeReg_commit s 0#5 0#32 next,
    commit_readReg s next⟩

/-- A branch goes by the proposition its condition decides. -/
theorem moves_branchOn {c : BrCond} {rs1 rs2 : RegIdx} {s : State} {p : Prop} [Decidable p]
    (condition : branchHolds c (s.readReg rs1) (s.readReg rs2) ↔ p) (offset : BitVec 13) :
    Moves s (if p then s.pc + offset.signExtend 32 else s.pc + 4) (branchOn c rs1 rs2 offset s) := by
  simp only [← condition, ← immB_eq]
  exact moves_go s _

/-! ## The two statements -/

/-- Settles O28: the word carries every bit of an even offset, and the step writes the link and goes to the target. -/
theorem jumpAndLinkResult : Obligations.JumpAndLinkResult := by
  intro rd b20 b11 b19to12 b10to1 s offset
  rw [← encodeJ_offsetJ, ← immJ_eq]
  exact ⟨decode_encodeJ_jal rd (offsetJ_even b20 b11 b19to12 b10to1),
    writes_writeAndGo s rd (s.pc + 4) (s.pc + immJ offset)⟩

/-- Settles O30: funct3 picks the row, and the step goes by the comparison that the row's condition stands for. -/
theorem branchResults : Obligations.BranchResults := by
  intro rs1 rs2 b12 b11 b10to5 b4to1 s offset a b taken word
  have even : offset.getLsbD 0 = false := offsetB_even b12 b11 b10to5 b4to1
  have word_eq (funct3 : BitVec 3) : word funct3 = encodeB offset rs2 rs1 funct3 0b1100011#7 :=
    (encodeB_offsetB b12 b11 b10to5 b4to1 rs2 rs1 funct3 0b1100011#7).symm
  have bne_moves : Moves s (if a = b then s.pc + 4 else taken) (exec (.bne rs1 rs2 offset) s) := by
    rw [← ite_not]
    exact moves_branchOn (branchHolds_ne_iff a b) offset
  simp only [word_eq]
  refine ⟨⟨decode_encodeB_branch ?beq rs1 rs2 even, moves_branchOn (branchHolds_eq_iff a b) offset⟩,
    ⟨decode_encodeB_branch ?bne rs1 rs2 even, bne_moves⟩,
    ⟨decode_encodeB_branch ?blt rs1 rs2 even, moves_branchOn (branchHolds_lt_iff a b) offset⟩,
    ⟨decode_encodeB_branch ?bge rs1 rs2 even, moves_branchOn (branchHolds_ge_iff a b) offset⟩,
    ⟨decode_encodeB_branch ?bltu rs1 rs2 even, moves_branchOn (branchHolds_ltu_iff a b) offset⟩,
    ⟨decode_encodeB_branch ?bgeu rs1 rs2 even, moves_branchOn (branchHolds_geu_iff a b) offset⟩⟩
  all_goals
    intro d funct3
    simp [decodeBranch, funct3]

end Sys2Proof.Proofs.ControlTransfer
end

section
/-! The store (48_load_store.md R601): the word of SW, what a data store answers for each kind of address, and the state that a
completed store leaves. -/

namespace Sys2Proof.Proofs.LoadStore

open Sys2Proof.Machine Sys2Proof.Laws

/-! ## The word of SW -/

/-- The S-format as the statement lays it out is the R-format with the immediate's two parts in place of funct7 and rd. -/
theorem wordS_eq_encodeR : wordS = encodeR := rfl

theorem decode_wordS_sw (hi : BitVec 7) (rs2 rs1 : RegIdx) (lo : BitVec 5) :
    decode (wordS hi rs2 rs1 0b010#3 lo 0b0100011#7) = .sw rs2 rs1 (hi ++ lo) := by
  rw [wordS_eq_encodeR]
  simp [decode]

/-! ## The data store and the step that makes it -/

theorem dmemWrite_cases (s : State) (a v : Word) :
    (a.toNat % 4 ≠ 0 ∧ s.dmemWrite a v = .error (.alignmentFault .store a)) ∨
    (a.toNat % 4 = 0 ∧ s.cfg.dmemWords ≤ a.toNat / 4 ∧ s.dmemWrite a v = .error (.outOfRangeFault .store a)) ∨
    (a.toNat % 4 = 0 ∧ a.toNat / 4 < s.cfg.dmemWords ∧
      s.dmemWrite a v = .ok { s with dmem := Memory.writeWord s.dmem a.toNat v }) := by
  unfold State.dmemWrite
  obtain ⟨misaligned, h⟩ | ⟨aligned, beyond, h⟩ | ⟨aligned, inside, h⟩ :=
    storeWord_cases s.cfg.dmemWords s.dmem .store a v <;> rw [h]
  · exact .inl ⟨misaligned, rfl⟩
  · exact .inr (.inl ⟨aligned, beyond, rfl⟩)
  · exact .inr (.inr ⟨aligned, inside, rfl⟩)

section
variable {s : State} {rs2 rs1 : RegIdx} {imm : BitVec 12}

theorem exec_sw_of_dmemWrite_error {f : Fault}
    (h : s.dmemWrite (effectiveAddress (s.readReg rs1) (immS imm)) (s.readReg rs2) = .error f) :
    exec (.sw rs2 rs1 imm) s = .fault f := by
  simp only [exec, execSw, h]
  rfl

theorem exec_sw_of_dmemWrite_ok {t : State}
    (h : s.dmemWrite (effectiveAddress (s.readReg rs1) (immS imm)) (s.readReg rs2) = .ok t) :
    exec (.sw rs2 rs1 imm) s = go (s.pc + 4) t := by
  simp only [exec, execSw, h]
  rfl

end

/-! ## The state that a store leaves -/

/-- One word is a run of one word, so its write changes no byte outside its four. -/
theorem readByte_writeWord_outside {m : Memory} (canonical : m.wf) (a : Nat) (v : Word) (b : Nat)
    (outside : b < a ∨ a + 4 ≤ b) : Memory.readByte (Memory.writeWord m a v) b = Memory.readByte m b :=
  readByte_writeWords a [v] canonical b outside

theorem stores_go {s : State} (canonical : s.dmem.wf) (a v next : Word) :
    Stores s a v next (go next { s with dmem := Memory.writeWord s.dmem a.toNat v }) :=
  ⟨_, go_eq _ _, commit_pc _ _, commit_steps _ _, commit_cfg _ _, commit_imem _ _,
    readWord_writeWord_self a.toNat v canonical, readByte_writeWord_outside canonical a.toNat v, fun _ => rfl⟩

/-! ## The statement -/

/-- Settles O32: the step answers what the data store answers, and the three kinds of address exclude one another. -/
theorem storeWordResult : Obligations.StoreWordResult := by
  intro rs2 rs1 hi lo s canonical imm ea
  have address : ea = s.readReg rs1 + imm.signExtend 32 := congrArg (s.readReg rs1 + ·) (immS_eq imm)
  refine ⟨decode_wordS_sw hi rs2 rs1 lo, address, ?_⟩
  obtain ⟨misaligned, write⟩ | ⟨aligned, beyond, write⟩ | ⟨aligned, inside, write⟩ :=
    dmemWrite_cases s ea (s.readReg rs2)
  · exact ⟨fun aligned => absurd aligned misaligned, fun _ => exec_sw_of_dmemWrite_error write,
      fun aligned => absurd aligned misaligned⟩
  · exact ⟨fun _ inside => absurd inside (Nat.not_lt.mpr beyond), fun misaligned => absurd aligned misaligned,
      fun _ _ => exec_sw_of_dmemWrite_error write⟩
  · rw [exec_sw_of_dmemWrite_ok write]
    exact ⟨fun _ _ => stores_go canonical ea (s.readReg rs2) (s.pc + 4), fun misaligned => absurd aligned misaligned,
      fun _ beyond => absurd inside (Nat.not_lt.mpr beyond)⟩

end Sys2Proof.Proofs.LoadStore
end

section
/-! The step port when the step faults (60_exceptions.md R704): what the port answers for each outcome of the step, and which
state a fault answer leaves. -/

namespace Sys2Proof.Proofs.Faults

open Sys2Proof.Machine

/-! ## What the step port answers for each outcome of the step -/

section
variable {s : State}

theorem stepPort_of_next {t : State} (h : step s = .next t) : stepPort s = (.ok, t) := by
  simp [stepPort, h]

theorem stepPort_of_fault {f : Fault} (h : step s = .fault f) : stepPort s = (.fault f, s) := by
  simp [stepPort, h]

theorem stepPort_of_refused {r : Refusal} (h : step s = .refused r) : stepPort s = (.refused r, s) := by
  simp [stepPort, h]

end

/-! ## The fault answer -/

/-- Only a step that faults makes the port answer a fault, and the state beside that answer is the one the step began in. -/
theorem stepPort_eq_fault_iff (s t : State) (f : Fault) :
    stepPort s = (.fault f, t) ↔ step s = .fault f ∧ t = s := by
  cases outcome : step s with
  | next u => simp [stepPort_of_next outcome]
  | fault g => simp [stepPort_of_fault outcome, eq_comm]
  | refused r => simp [stepPort_of_refused outcome]

/-- Settles O16: a fault outcome holds no state, so the port answers it with the state from before the step. -/
theorem faultsArePrecise : Obligations.FaultsArePrecise := by
  intro s t f answer
  obtain ⟨-, rfl⟩ := (stepPort_eq_fault_iff s t f).mp answer
  exact ⟨rfl, fun _ => rfl, rfl, rfl, rfl⟩

end Sys2Proof.Proofs.Faults
end

section
/-! The decoder against the encoder and against the opcode table (30_encoding.md): the two round trips, the rows of a word, and
the words of no row. -/

namespace Sys2Proof.Proofs.Encoding

open Sys2Proof.Laws Sys2Proof.Proofs.AluInstructions Sys2Proof.Proofs.ControlTransfer Sys2Proof.Proofs.LoadStore

/-! ## The words of no row -/

theorem decodes_unrecognized_word {w v : Word} (h : Decodes w (.unrecognized v)) : v = w := by
  cases h <;> rfl

/-- Each way of being unrecognized contradicts the fields that every row names. -/
theorem recognized_eq_false {w : Word} (h : Decodes w (.unrecognized w)) : recognized w = false := by
  simp only [recognized, opcodeTable, opcodeRowsTransferMemory, opcodeRowsOpImm, opcodeRowsOp, List.cons_append,
    List.nil_append, List.any_cons, List.any_nil, covers_mk, and_mask_opcode, and_mask_funct3, and_mask_funct7,
    BitVec.reduceAnd, BitVec.reduceExtractLsb']
  cases h
  case jalrFunct3 opcode funct3 | loadFunct3 opcode funct3 | storeFunct3 opcode funct3 => simp [opcode, funct3]
  case branchFunct3 opcode funct3 => obtain funct3 | funct3 := funct3 <;> simp [opcode, funct3]
  case opImmFunct7 opcode funct3 zero alternate => simp [opcode, funct3, zero, alternate]
  case opFunct7 opcode zero alternate =>
    by_cases sub_sra : w.extractLsb' 25 7 = 0b0100000#7
    · obtain ⟨not_sub, not_sra⟩ := not_or.mp fun funct3 => alternate ⟨sub_sra, funct3⟩
      simp [opcode, sub_sra, not_sub, not_sra]
    · simp [opcode, zero, sub_sra]
  case opcode lui auipc jal jalr branch load store opImm op =>
    simp [lui, auipc, jal, jalr, branch, load, store, opImm, op]

/-! ## From a word to its instruction and back -/

theorem immBitsB_even (w : Word) : (immBitsB w).getLsbD 0 = false := BitVec.getLsbD_append

theorem immBitsJ_even (w : Word) : (immBitsJ w).getLsbD 0 = false := BitVec.getLsbD_append

theorem wellFormed_unrecognized {w : Word} (h : Decodes w (.unrecognized w)) : (Instr.unrecognized w).wellFormed = true := by
  rw [Instr.wellFormed, recognized_eq_false h, Bool.not_false]

theorem wellFormed_of_decodes {w : Word} {i : Instr} (h : Decodes w i) : i.wellFormed = true := by
  have branch : (!(immBitsB w).getLsbD 0) = true := by rw [immBitsB_even, Bool.not_false]
  have jump : (!(immBitsJ w).getLsbD 0) = true := by rw [immBitsJ_even, Bool.not_false]
  have decodes := h
  cases h
  case jal => exact jump
  case beq | bne | blt | bge | bltu | bgeu => exact branch
  case jalrFunct3 | branchFunct3 | loadFunct3 | storeFunct3 | opImmFunct7 | opFunct7 | opcode =>
    exact wellFormed_unrecognized decodes
  all_goals rfl

/-- The fields that pick the row and the operands are all the bits of the word. -/
theorem encode_of_decodes {w : Word} {i : Instr} (h : Decodes w i) : encode i = w := by
  cases h
  case lui opcode | auipc opcode =>
    simpa only [encode, opcode] using encodeU_immBitsU w
  case jal opcode =>
    simpa only [encode, opcode] using encodeJ_immBitsJ w
  case jalr opcode funct3 | lw opcode funct3 | addi opcode funct3 | slti opcode funct3 | sltiu opcode funct3
      | xori opcode funct3 | ori opcode funct3 | andi opcode funct3 =>
    simpa only [encode, opcode, funct3] using encodeI_immBitsI w
  case sw opcode funct3 =>
    simpa only [encode, opcode, funct3] using encodeS_immBitsS w
  case beq opcode funct3 | bne opcode funct3 | blt opcode funct3 | bge opcode funct3 | bltu opcode funct3
      | bgeu opcode funct3 =>
    simpa only [encode, opcode, funct3] using encodeB_immBitsB w
  case slli opcode funct3 =>
    simpa only [encode, opcode, funct3] using encodeR_fields w
  case srli opcode funct3 funct7 | srai opcode funct3 funct7 | add opcode funct3 funct7 | sub opcode funct3 funct7
      | sll opcode funct3 funct7 | slt opcode funct3 funct7 | sltu opcode funct3 funct7 | xor opcode funct3 funct7
      | srl opcode funct3 funct7 | sra opcode funct3 funct7 | or opcode funct3 funct7 | and opcode funct3 funct7 =>
    simpa only [encode, opcode, funct3, funct7] using encodeR_fields w
  case jalrFunct3 | branchFunct3 | loadFunct3 | storeFunct3 | opImmFunct7 | opFunct7 | opcode => rfl

theorem wellFormed_decode (w : Word) : (decode w).wellFormed = true := wellFormed_of_decodes (decode_spec w)

theorem encode_decode (w : Word) : encode (decode w) = w := encode_of_decodes (decode_spec w)

/-- Settles O2: in each case of the decoder, the fixed fields of the row and the operands are the whole word. -/
theorem decodeThenEncode : Obligations.DecodeThenEncode := fun w => ⟨wellFormed_decode w, encode_decode w⟩

/-! ## The rows of the opcode table -/

theorem ownRow (i : Instr) : OwnRow.Statement i := by
  cases i
  case lui => exact OwnRow.lui _ _
  case auipc => exact OwnRow.auipc _ _
  case addi => exact OwnRow.addi _ _ _
  case slti => exact OwnRow.slti _ _ _
  case sltiu => exact OwnRow.sltiu _ _ _
  case xori => exact OwnRow.xori _ _ _
  case ori => exact OwnRow.ori _ _ _
  case andi => exact OwnRow.andi _ _ _
  case slli => exact OwnRow.slli _ _ _ _
  case srli => exact OwnRow.srli _ _ _
  case srai => exact OwnRow.srai _ _ _
  case add => exact OwnRow.add _ _ _
  case sub => exact OwnRow.sub _ _ _
  case sll => exact OwnRow.sll _ _ _
  case slt => exact OwnRow.slt _ _ _
  case sltu => exact OwnRow.sltu _ _ _
  case xor => exact OwnRow.xor _ _ _
  case srl => exact OwnRow.srl _ _ _
  case sra => exact OwnRow.sra _ _ _
  case or => exact OwnRow.or _ _ _
  case and => exact OwnRow.and _ _ _
  case jal => exact OwnRow.jal _ _
  case jalr => exact OwnRow.jalr _ _ _
  case beq => exact OwnRow.beq _ _ _
  case bne => exact OwnRow.bne _ _ _
  case blt => exact OwnRow.blt _ _ _
  case bge => exact OwnRow.bge _ _ _
  case bltu => exact OwnRow.bltu _ _ _
  case bgeu => exact OwnRow.bgeu _ _ _
  case lw => exact OwnRow.lw _ _ _
  case sw => exact OwnRow.sw _ _ _
  case unrecognized => exact OwnRow.unrecognized _

/-- A row covers a word exactly when it is the row of the instruction that the word decodes to. -/
theorem row_match_iff {r : OpcodeRow} (row : r ∈ opcodeTable) (w : Word) :
    w &&& r.mask = r.pattern ↔ r.mnemonic = (decode w).mnemonic := by
  have covers := ownRow (decode w) (wellFormed_decode w) r row
  rw [encode_decode, OpcodeRow.covers, beq_eq_decide] at covers
  exact decide_eq_decide.mp covers

theorem mnemonic_eq_unrecognized_iff (w : Word) :
    (decode w).mnemonic = .UNRECOGNIZED ↔ decode w = .unrecognized w := by
  have decodes := decode_spec w
  constructor
  · intro h
    generalize decode w = i at decodes h ⊢
    cases i <;> cases h
    rw [decodes_unrecognized_word decodes]
  · intro h
    rw [h, Instr.mnemonic]

/-- Every name but UNRECOGNIZED has a row, and UNRECOGNIZED has none. -/
theorem exists_row_iff (m : Mnemonic) : (∃ r ∈ opcodeTable, r.mnemonic = m) ↔ m ≠ .UNRECOGNIZED := by
  cases m <;> decide

theorem no_row_match_iff (w : Word) :
    (∀ r ∈ opcodeTable, w &&& r.mask ≠ r.pattern) ↔ decode w = .unrecognized w := by
  have rows : (∃ r ∈ opcodeTable, w &&& r.mask = r.pattern) ↔ ∃ r ∈ opcodeTable, r.mnemonic = (decode w).mnemonic :=
    exists_congr fun r => and_congr_right fun row => row_match_iff row w
  rw [← mnemonic_eq_unrecognized_iff, ← not_iff_not, ← ne_eq, ← exists_row_iff, ← rows]
  simp only [ne_eq, not_forall, not_not, exists_prop]

/-- Settles O3: the word is the encoding of what it decodes to, and each encoding lies in its own row alone. -/
theorem decoderFollowsOpcodeTable : Obligations.DecoderFollowsOpcodeTable := fun w =>
  ⟨fun _ row covers => ((row_match_iff row w).mp covers).symm, no_row_match_iff w⟩

theorem eq_of_mnemonic_eq : ∀ r₁ ∈ opcodeTable, ∀ r₂ ∈ opcodeTable, r₁.mnemonic = r₂.mnemonic → r₁ = r₂ := by
  decide

/-- Settles O4: both rows have the name of the decoded instruction, and no two rows share a name. -/
theorem opcodeRowsDoNotOverlap : Obligations.OpcodeRowsDoNotOverlap := by
  intro w r₁ r₂ row₁ row₂ covers₁ covers₂
  have names : r₁.mnemonic = r₂.mnemonic :=
    ((row_match_iff row₁ w).mp covers₁).trans ((row_match_iff row₂ w).mp covers₂).symm
  exact eq_of_mnemonic_eq r₁ row₁ r₂ row₂ names

/-! ## The groups of unrecognized words (49_unrecognized.md R651) -/

/-- The opcodes that some row names. -/
def rowOpcodes : List (BitVec 7) :=
  [0b0110111#7, 0b0010111#7, 0b1101111#7, 0b1100111#7, 0b1100011#7, 0b0000011#7, 0b0100011#7, 0b0010011#7, 0b0110011#7]

/-- The six groups, on the fields that the decoder reads. -/
def Unmatched (opcode : BitVec 7) (funct3 : BitVec 3) (funct7 : BitVec 7) : Prop :=
  opcode ∉ rowOpcodes ∨
  (opcode = 0b0110011#7 ∧ ¬ (funct7 = 0b0000000#7 ∨ funct7 = 0b0100000#7 ∧ (funct3 = 0b000#3 ∨ funct3 = 0b101#3))) ∨
  (opcode = 0b0010011#7 ∧ funct3 = 0b101#3 ∧ funct7 ≠ 0b0000000#7 ∧ funct7 ≠ 0b0100000#7) ∨
  (opcode = 0b1100011#7 ∧ (funct3 = 0b010#3 ∨ funct3 = 0b011#3)) ∨
  ((opcode = 0b0000011#7 ∨ opcode = 0b0100011#7) ∧ funct3 ≠ 0b010#3) ∨
  (opcode = 0b1100111#7 ∧ funct3 ≠ 0b000#3)

theorem decode_eq_unrecognized_iff_unmatched (w : Word) :
    decode w = .unrecognized w ↔ Unmatched (w.extractLsb' 0 7) (w.extractLsb' 12 3) (w.extractLsb' 25 7) := by
  have decodes := decode_spec w
  generalize decode w = i at decodes ⊢
  unfold Unmatched rowOpcodes
  cases decodes
  case lui opcode | auipc opcode | jal opcode => simp [opcode]
  case jalr opcode funct3 | lw opcode funct3 | sw opcode funct3 | beq opcode funct3 | bne opcode funct3 | blt opcode funct3
      | bge opcode funct3 | bltu opcode funct3 | bgeu opcode funct3 | addi opcode funct3 | slti opcode funct3
      | sltiu opcode funct3 | xori opcode funct3 | ori opcode funct3 | andi opcode funct3 | slli opcode funct3
      | jalrFunct3 opcode funct3 | loadFunct3 opcode funct3 | storeFunct3 opcode funct3 | branchFunct3 opcode funct3 =>
    simp [opcode, funct3]
  case srli opcode funct3 funct7 | srai opcode funct3 funct7 | add opcode funct3 funct7 | sub opcode funct3 funct7
      | sll opcode funct3 funct7 | slt opcode funct3 funct7 | sltu opcode funct3 funct7 | xor opcode funct3 funct7
      | srl opcode funct3 funct7 | sra opcode funct3 funct7 | or opcode funct3 funct7 | and opcode funct3 funct7 =>
    simp [opcode, funct3, funct7]
  case opImmFunct7 opcode funct3 zero alternate => simp [opcode, funct3, zero, alternate]
  case opFunct7 opcode zero alternate => simp [opcode, zero, alternate]
  case opcode lui auipc jal jalr branch load store opImm op =>
    simp [lui, auipc, jal, jalr, branch, load, store, opImm, op]

/-- Settles O5: the groups of R651 are the decoder's seven ways out, load and store being one group. -/
theorem unrecognizedWordsCharacterised : Obligations.UnrecognizedWordsCharacterised := by
  intro w opcode funct3 funct7
  have opcode_eq : opcode = (w.extractLsb' 0 7).toNat := by rw [BitVec.extractLsb'_toNat, Nat.shiftRight_zero]
  have funct3_eq : funct3 = (w.extractLsb' 12 3).toNat := by
    rw [BitVec.extractLsb'_toNat, Nat.shiftRight_eq_div_pow]
  have funct7_eq : funct7 = (w.extractLsb' 25 7).toNat := by
    have bound : w.toNat < 2 ^ 32 := w.isLt
    rw [BitVec.extractLsb'_toNat, Nat.shiftRight_eq_div_pow]
    omega
  rw [decode_eq_unrecognized_iff_unmatched, opcode_eq, funct3_eq, funct7_eq]
  generalize w.extractLsb' 0 7 = opcode, w.extractLsb' 12 3 = funct3, w.extractLsb' 25 7 = funct7
  simp [Unmatched, rowOpcodes, BitVec.toNat_eq_nat]

/-! ## The spec's own words -/

/-- Settles O7: the decoder is run on the twelve words. -/
theorem knownWordsDecode : Obligations.KnownWordsDecode := by
  unfold Obligations.KnownWordsDecode
  decide

/-! ## From an instruction to its word and back -/

theorem decode_encodeI_jalr (rd rs1 : RegIdx) (imm : BitVec 12) :
    decode (encodeI imm rs1 0b000#3 rd 0b1100111#7) = .jalr rd rs1 imm := by
  rw [encodeI_eq]
  simp [decode, append_parts_12]

theorem decode_encodeI_lw (rd rs1 : RegIdx) (imm : BitVec 12) :
    decode (encodeI imm rs1 0b010#3 rd 0b0000011#7) = .lw rd rs1 imm := by
  rw [encodeI_eq]
  simp [decode, append_parts_12]

theorem decode_encodeS_sw (rs2 rs1 : RegIdx) (imm : BitVec 12) :
    decode (encodeS imm rs2 rs1 0b010#3 0b0100011#7) = .sw rs2 rs1 imm := by
  have parts := decode_wordS_sw (imm.extractLsb' 5 7) rs2 rs1 (imm.extractLsb' 0 5)
  rwa [append_parts_12] at parts

theorem decode_of_not_recognized {w : Word} (h : recognized w = false) : decode w = .unrecognized w := by
  rw [← no_row_match_iff]
  intro r row covers
  exact List.any_eq_false.mp h r row (beq_iff_eq.mpr covers)

/-- Settles O1: each format gives its fields and its immediate back, an odd offset and a word of some row being refused. -/
theorem encodeThenDecode : Obligations.EncodeThenDecode := by
  intro i wf
  cases i
  case lui rd imm20 => exact decode_encodeU_lui imm20 rd
  case auipc rd imm20 => exact decode_encodeU_auipc imm20 rd
  case jal rd offset => exact decode_encodeJ_jal rd ((Bool.not_eq_true' _).mp wf)
  case jalr rd rs1 imm => exact decode_encodeI_jalr rd rs1 imm
  case lw rd rs1 imm => exact decode_encodeI_lw rd rs1 imm
  case sw rs2 rs1 imm => exact decode_encodeS_sw rs2 rs1 imm
  case unrecognized word => exact decode_of_not_recognized ((Bool.not_eq_true' _).mp wf)
  case beq rs1 rs2 offset | bne rs1 rs2 offset | blt rs1 rs2 offset | bge rs1 rs2 offset | bltu rs1 rs2 offset
      | bgeu rs1 rs2 offset =>
    refine decode_encodeB_branch (fun d funct3 => ?_) rs1 rs2 ((Bool.not_eq_true' _).mp wf)
    simp [decodeBranch, funct3]
  case addi rd rs1 imm | slti rd rs1 imm | sltiu rd rs1 imm | xori rd rs1 imm | ori rd rs1 imm | andi rd rs1 imm =>
    refine decode_wordI_opImm (fun d funct3 => ?_) imm rs1 rd
    simp [decodeOpImm, funct3]
  case slli rd rs1 funct7 shamt => exact decode_wordR_opImm funct7 shamt rs1 0b001 rd
  case srli rd rs1 shamt | srai rd rs1 shamt => exact decode_wordR_opImm _ shamt rs1 0b101 rd
  case add rd rs1 rs2 | sub rd rs1 rs2 | sll rd rs1 rs2 | slt rd rs1 rs2 | sltu rd rs1 rs2 | xor rd rs1 rs2
      | srl rd rs1 rs2 | sra rd rs1 rs2 | or rd rs1 rs2 | and rd rs1 rs2 =>
    exact decode_wordR_op _ rs2 rs1 _ rd

end Sys2Proof.Proofs.Encoding
end

section
/-! The memory interface (20_memory.md sections 3 to 8): what each kind of address is answered, a load after a store, and the load
of a program. -/

namespace Sys2Proof.Proofs.MemoryInterface

open Sys2Proof.Machine Sys2Proof.Laws

/-! ## The checks of an access -/

section
variable {words : Nat} {x : Access} {a : Word}

theorem checkAccess_of_misaligned (misaligned : a.toNat % 4 ≠ 0) :
    checkAccess words x a = .error (.alignmentFault x a) :=
  if_pos misaligned

theorem checkAccess_of_beyond (aligned : a.toNat % 4 = 0) (beyond : words ≤ a.toNat / 4) :
    checkAccess words x a = .error (.outOfRangeFault x a) :=
  (if_neg (not_not.mpr aligned)).trans (if_pos beyond)

theorem checkAccess_of_allowed (h : allowed words a) : checkAccess words x a = .ok () :=
  (if_neg (not_not.mpr h.1)).trans (if_neg (Nat.not_le.mpr h.2))

variable {m : Memory} {v : Word}

theorem loadWord_of_check_error {f : Fault} (h : checkAccess words x a = .error f) : loadWord words m x a = .error f := by
  rw [loadWord, h]

theorem storeWord_of_check_error {f : Fault} (h : checkAccess words x a = .error f) :
    storeWord words m x a v = .error f := by
  rw [storeWord, h]

theorem loadWord_of_allowed (h : allowed words a) : loadWord words m x a = .ok (Memory.readWord m a.toNat) := by
  rw [loadWord, checkAccess_of_allowed h]

theorem storeWord_of_allowed (h : allowed words a) :
    storeWord words m x a v = .ok (Memory.writeWord m a.toNat v) := by
  rw [storeWord, checkAccess_of_allowed h]

end

/-- Settles O38: loads and stores share one check. -/
theorem accessChecks : Obligations.AccessChecks := by
  intro words m x a v
  refine ⟨fun misaligned => ?_, fun aligned beyond => ?_, fun h => ?_⟩
  · have check := checkAccess_of_misaligned (words := words) (x := x) misaligned
    exact ⟨loadWord_of_check_error check, storeWord_of_check_error check⟩
  · have check := checkAccess_of_beyond (x := x) aligned beyond
    exact ⟨loadWord_of_check_error check, storeWord_of_check_error check⟩
  · exact ⟨⟨_, loadWord_of_allowed h⟩, ⟨_, storeWord_of_allowed h⟩⟩

/-! ## A load after a store -/

/-- Two memories that agree on an allowed word answer a load there alike; the check looks at neither. -/
theorem loadWord_congr {words : Nat} {m m' : Memory} {x : Access} {a : Word}
    (same : a.toNat % 4 = 0 → Memory.readWord m a.toNat = Memory.readWord m' a.toNat) :
    loadWord words m x a = loadWord words m' x a := by
  obtain ⟨h, load⟩ | ⟨aligned, h, load⟩ | ⟨aligned, h, load⟩ := loadWord_cases words m x a <;> rw [load]
  · rw [loadWord_of_check_error (checkAccess_of_misaligned h)]
  · rw [loadWord_of_check_error (checkAccess_of_beyond aligned h)]
  · rw [loadWord_of_allowed ⟨aligned, h⟩, same aligned]

/-- Settles O37: two different aligned addresses name words that share no byte. -/
theorem loadAfterStore : Obligations.LoadAfterStore := by
  intro s t a v canonical store
  obtain ⟨aligned, inside, rfl⟩ := dmemWrite_ok store
  constructor
  · rw [State.dmemRead, loadWord_of_allowed ⟨aligned, inside⟩, readWord_writeWord_self a.toNat v canonical]
  · intro b different
    have apart : b.toNat ≠ a.toNat := fun h => different (BitVec.eq_of_toNat_eq h)
    exact loadWord_congr fun b_aligned => readWord_writeWord_ne a.toNat b.toNat v canonical (by omega)

/-! ## The load of a program -/

section
variable {words : Nat} {m : Memory} {ws : List Word} {base : Word}

theorem loadProgram_of_misaligned (misaligned : base.toNat % 4 ≠ 0) :
    loadProgram words m ws base = .error (.alignmentFault .programLoad base) :=
  if_pos misaligned

theorem loadProgram_of_beyond (aligned : base.toNat % 4 = 0) (beyond : words < base.toNat / 4 + ws.length) :
    loadProgram words m ws base = .error (.outOfRangeFault .programLoad base) :=
  (if_neg (not_not.mpr aligned)).trans (if_pos beyond)

theorem loadProgram_of_fits (aligned : base.toNat % 4 = 0) (fits : base.toNat / 4 + ws.length ≤ words) :
    loadProgram words m ws base = .ok (Memory.writeWords m base.toNat ws) :=
  (if_neg (not_not.mpr aligned)).trans (if_neg (Nat.not_lt.mpr fits))

theorem fills_writeWords (canonical : m.wf) (a : Nat) (ws : List Word) : Fills m (Memory.writeWords m a ws) a ws :=
  ⟨readWord_writeWords a ws canonical, readByte_writeWords a ws canonical⟩

variable {s : State}

theorem serve_loadProgram_of_error {f : Fault} (h : loadProgram s.instrWords s.instrMemory ws base = .error f) :
    serve (.loadProgram ws base) s = (.fault f, s) := by
  rw [serve, loadProgramPort, h]

theorem serve_loadProgram_of_ok (h : loadProgram s.instrWords s.instrMemory ws base = .ok m) :
    serve (.loadProgram ws base) s = (.ok, s.withInstrMemory m) := by
  rw [serve, loadProgramPort, h]

theorem serve_loadData_of_error {f : Fault} (h : loadProgram s.cfg.dmemWords s.dmem ws base = .error f) :
    serve (.loadData ws base) s = (.fault f, s) := by
  rw [serve, loadDataPort, h]

theorem serve_loadData_of_ok (h : loadProgram s.cfg.dmemWords s.dmem ws base = .ok m) :
    serve (.loadData ws base) s = (.ok, { s with dmem := m }) := by
  rw [serve, loadDataPort, h]

end

theorem withInstrMemory_dmem_of_separate {s : State} (separate : s.cfg.unified = false) (m : Memory) :
    (s.withInstrMemory m).dmem = s.dmem := by
  rw [State.withInstrMemory, separate]
  rfl

theorem withInstrMemory_imem_of_unified {s : State} (one : s.cfg.unified = true) (m : Memory) :
    (s.withInstrMemory m).imem = s.imem := by
  rw [State.withInstrMemory, one]
  rfl

/-- Settles O39: both ports run `load_program`, which checks the base and the run before it writes. -/
theorem loadProgramFillsCells : Obligations.LoadProgramFillsCells := by
  intro s ws base
  constructor
  · refine ⟨fun misaligned => serve_loadProgram_of_error (loadProgram_of_misaligned misaligned),
      fun aligned beyond => serve_loadProgram_of_error (loadProgram_of_beyond aligned beyond), ?_⟩
    intro canonical aligned fits
    refine ⟨_, serve_loadProgram_of_ok (loadProgram_of_fits aligned fits), withInstrMemory_pc s _,
      withInstrMemory_regs s _, withInstrMemory_steps s _, withInstrMemory_cfg s _, ?_,
      fun separate => withInstrMemory_dmem_of_separate separate _, fun one => withInstrMemory_imem_of_unified one _⟩
    rw [withInstrMemory_instrMemory]
    exact fills_writeWords canonical base.toNat ws
  · refine ⟨fun misaligned => serve_loadData_of_error (loadProgram_of_misaligned misaligned),
      fun aligned beyond => serve_loadData_of_error (loadProgram_of_beyond aligned beyond), ?_⟩
    intro canonical aligned fits
    exact ⟨_, serve_loadData_of_ok (loadProgram_of_fits aligned fits), rfl, rfl, rfl, rfl,
      fills_writeWords canonical base.toNat ws, rfl⟩

end Sys2Proof.Proofs.MemoryInterface
end

section
/-! The reset port and the register port (10_state.md sections 1, 8 and 9). -/

namespace Sys2Proof.Proofs.CallerPorts

open Sys2Proof.Machine Sys2Proof.Laws

/-! ## The reset port -/

@[simp] theorem serve_reset (s : State) : serve .reset s = (.ok, State.resetWith s.cfg) := rfl

theorem readReg_resetWith (c : Config) (i : RegIdx) : (State.resetWith c).readReg i = 0#32 := by
  rw [State.readReg, resetWith_regs, Vector.getElem_replicate, ite_self]

/-- Settles O40: the port gives the reset state of the machine's own parameters. -/
theorem resetValues : Obligations.ResetValues := by
  intro s
  rw [serve_reset]
  exact ⟨rfl, resetWith_pc s.cfg, readReg_resetWith s.cfg, resetWith_steps s.cfg,
    fun a => ⟨readByte_nil a, readByte_nil a⟩, resetWith_cfg s.cfg⟩

/-! ## The register port -/

theorem checkRegister_of_lt {index : Word} (h : index.toNat < 32) : checkRegister index = .ok (index.setWidth 5) := by
  have low_bits : index.extractLsb' 0 5 = index.setWidth 5 := (BitVec.setWidth_eq_extractLsb' (by decide)).symm
  rw [checkRegister, if_pos h, low_bits]

theorem checkRegister_of_le {index : Word} (h : 32 ≤ index.toNat) :
    checkRegister index = .error (.outOfRangeFault .register index) :=
  if_neg (Nat.not_lt.mpr h)

/-- Settles O36: reading and writing go through one check of the index. -/
theorem registerPortChecksIndex : Obligations.RegisterPortChecksIndex := by
  intro s index v
  constructor
  · intro inside
    have check := checkRegister_of_lt inside
    exact ⟨by rw [serve, readRegisterPort, check], by rw [serve, writeRegisterPort, check]⟩
  · intro outside
    have check := checkRegister_of_le outside
    exact ⟨by rw [serve, readRegisterPort, check], by rw [serve, writeRegisterPort, check]⟩

end Sys2Proof.Proofs.CallerPorts
end

section
/-! One step, taken apart: its fetch, the instruction that runs, and which steps fault (45_sequencer.md R451 to R454,
60_exceptions.md R701 to R707). -/

namespace Sys2Proof.Proofs.Step

open Sys2Proof.Machine Sys2Proof.Laws Sys2Proof.Proofs.Faults Sys2Proof.Proofs.MemoryInterface

/-! ## The fetch and the instruction -/

section
variable {s : State}

theorem step_of_fetch_error {f : Fault} (h : s.fetch = .error f) : step s = .fault f := by
  rw [step, h]
  rfl

theorem step_of_fetch_ok {w : Word} (h : s.fetch = .ok w) : step s = exec (decode w) s := by
  rw [step, h]

theorem fetch_of_fetchable (h : s.fetchable) : s.fetch = .ok (Memory.readWord s.instrMemory s.pc.toNat) :=
  loadWord_of_allowed h

theorem step_of_misaligned_pc (misaligned : s.pc.toNat % 4 ≠ 0) : step s = .fault (.alignmentFault .fetch s.pc) :=
  step_of_fetch_error (loadWord_of_check_error (checkAccess_of_misaligned misaligned))

/-- A step that completes has fetched a word and run its instruction. -/
theorem step_eq_next {t : State} (h : step s = .next t) : ∃ w, s.fetch = .ok w ∧ exec (decode w) s = .next t := by
  cases fetched : s.fetch with
  | error f => rw [step_of_fetch_error fetched] at h; cases h
  | ok w => exact ⟨w, rfl, step_of_fetch_ok fetched ▸ h⟩

end

/-- Settles O8: the fetch reads those four bytes, and nothing stands between it and `exec`. -/
theorem stepRunsDecodedInstruction : Obligations.StepRunsDecodedInstruction := by
  intro s i fetchable decoded
  cases decoded
  exact step_of_fetch_ok (fetch_of_fetchable fetchable)

/-- Settles O9: the fetch checks alignment, then range, and its fault is the step's. -/
theorem fetchFaultsStopTheStep : Obligations.FetchFaultsStopTheStep := fun _ =>
  ⟨step_of_misaligned_pc, fun aligned beyond =>
    step_of_fetch_error (loadWord_of_check_error (checkAccess_of_beyond aligned beyond))⟩

/-! ## A word placed for the fetch -/

theorem withFetchWord_of_fetchable {s : State} (fetchable : s.fetchable) (w : Word) :
    s.withFetchWord 32 w.toNat = s.withInstrMemory (Memory.writeWord s.instrMemory s.pc.toNat w) := by
  have word : BitVec.ofNat 32 (w.toNat % 2 ^ 32) = w := by
    rw [Nat.mod_eq_of_lt w.isLt, BitVec.ofNat_toNat, BitVec.setWidth_eq]
  rw [State.withFetchWord, word, storeWord_of_allowed fetchable]

/-- Settles O11: the fetch address is the stored one, and a memory reads back what was stored. -/
theorem placedWordRunsNext : Obligations.PlacedWordRunsNext := by
  intro s w fetchable canonical
  rw [withFetchWord_of_fetchable fetchable]
  have fetchable_after : (s.withInstrMemory (Memory.writeWord s.instrMemory s.pc.toNat w)).fetchable := by
    rwa [State.fetchable, withInstrMemory_instrWords, withInstrMemory_pc]
  have fetched := fetch_of_fetchable fetchable_after
  rw [withInstrMemory_instrMemory, withInstrMemory_pc, readWord_writeWord_self _ _ canonical] at fetched
  exact ⟨step_of_fetch_ok fetched, withInstrMemory_pc s _, withInstrMemory_regs s _, withInstrMemory_steps s _,
    withInstrMemory_cfg s _⟩

/-! ## The load and the store, by what their access answers -/

section
variable {s : State} {rd rs1 : RegIdx} {imm : BitVec 12}

theorem exec_lw_of_dmemRead_error {f : Fault}
    (h : s.dmemRead (effectiveAddress (s.readReg rs1) (immI imm)) = .error f) : exec (.lw rd rs1 imm) s = .fault f := by
  simp only [exec, execLw, h]
  rfl

theorem exec_lw_of_dmemRead_ok {v : Word} (h : s.dmemRead (effectiveAddress (s.readReg rs1) (immI imm)) = .ok v) :
    exec (.lw rd rs1 imm) s = writeAndGo rd v (s.pc + 4) s := by
  simp only [exec, execLw, h]
  rfl

end

/-- A completed SW by the address and the value of its operands. -/
theorem exec_sw_eq_next {s t : State} {rs2 rs1 : RegIdx} {imm : BitVec 12} (h : exec (.sw rs2 rs1 imm) s = .next t) :
    allowed s.cfg.dmemWords (s.readReg rs1 + imm.signExtend 32) ∧
    t = State.commit { s with dmem := Memory.writeWord s.dmem (s.readReg rs1 + imm.signExtend 32).toNat (s.readReg rs2) }
      (s.pc + 4) := by
  rw [exec, execSw, immS_eq, effectiveAddress] at h
  split at h
  next => cases h
  next u stored =>
    obtain ⟨aligned, inside, rfl⟩ := dmemWrite_ok stored
    cases h
    exact ⟨⟨aligned, inside⟩, rfl⟩

/-! ## Which steps fault -/

/-- An instruction that faults is LW or SW, with the fault of its data access; none is refused. -/
theorem exec_cases (i : Instr) (s : State) :
    (∃ t, exec i s = .next t) ∨
    (∃ rd rs1 imm f, i = .lw rd rs1 imm ∧ s.dmemRead (effectiveAddress (s.readReg rs1) (immI imm)) = .error f ∧
      exec i s = .fault f) ∨
    (∃ rs2 rs1 imm f, i = .sw rs2 rs1 imm ∧
      s.dmemWrite (effectiveAddress (s.readReg rs1) (immS imm)) (s.readReg rs2) = .error f ∧ exec i s = .fault f) := by
  cases i
  case lw rd rs1 imm =>
    cases read : s.dmemRead (effectiveAddress (s.readReg rs1) (immI imm)) with
    | error f => exact .inr (.inl ⟨rd, rs1, imm, f, rfl, read, exec_lw_of_dmemRead_error read⟩)
    | ok m => exact .inl ⟨_, exec_lw_of_dmemRead_ok read⟩
  case sw rs2 rs1 imm =>
    cases write : s.dmemWrite (effectiveAddress (s.readReg rs1) (immS imm)) (s.readReg rs2) with
    | error f => exact .inr (.inr ⟨rs2, rs1, imm, f, rfl, write, LoadStore.exec_sw_of_dmemWrite_error write⟩)
    | ok t => exact .inl ⟨_, LoadStore.exec_sw_of_dmemWrite_ok write⟩
  all_goals exact .inl ⟨_, rfl⟩

theorem step_ne_refused (s : State) (r : Refusal) : step s ≠ .refused r := by
  intro h
  cases fetched : s.fetch with
  | error f => rw [step_of_fetch_error fetched] at h; cases h
  | ok w =>
    rw [step_of_fetch_ok fetched] at h
    obtain ⟨t, e⟩ | ⟨_, _, _, f, _, _, e⟩ | ⟨_, _, _, f, _, _, e⟩ := exec_cases (decode w) s <;> cases e.symm.trans h

/-- Settles O18: a step faults with its fetch or with the data access of LW or SW. -/
theorem onlyFetchLoadAndStoreFault : Obligations.OnlyFetchLoadAndStoreFault := by
  refine ⟨fun s f fault => ?_, step_ne_refused⟩
  cases fetched : s.fetch with
  | error g =>
    cases (step_of_fetch_error fetched).symm.trans fault
    exact .inl ⟨rfl, fetch_error fetched⟩
  | ok w =>
    refine .inr ⟨w, rfl, ?_⟩
    rw [step_of_fetch_ok fetched] at fault
    obtain ⟨t, e⟩ | ⟨rd, rs1, imm, g, row, access, e⟩ | ⟨rs2, rs1, imm, g, row, access, e⟩ := exec_cases (decode w) s
    · cases e.symm.trans fault
    · cases e.symm.trans fault
      rw [immI_eq] at access
      exact .inl ⟨rd, rs1, imm, row, dmemRead_error access⟩
    · cases e.symm.trans fault
      rw [immS_eq] at access
      exact .inr ⟨rs2, rs1, imm, row, dmemWrite_error access⟩

/-- Settles O17: each request meets the state the last one left, which is the faulting state itself. -/
theorem faultedCoreStaysStuck : Obligations.FaultedCoreStaysStuck := by
  intro s f n fault
  have answer : serve .step s = (.fault f, s) := stepPort_of_fault fault
  induction n with
  | zero => rfl
  | succ n ih => simp only [List.replicate_succ, serveAll, answer, ih]

/-! ## The step counter -/

theorem step_steps {s t : State} (h : step s = .next t) : t.steps = s.steps + 1 := by
  obtain ⟨w, -, run⟩ := step_eq_next h
  obtain ⟨rd, v, next, rfl⟩ | ⟨rs2, rs1, imm, ea, -, -, -, -, rfl⟩ := exec_next_cases run
  · rw [commit_steps, writeReg_steps]
  · rfl

/-- A run goes on only from a step that completes. -/
theorem run_succ_eq_next {M : Host.Core} {n : Nat} {s t : M.State} (h : M.run (n + 1) s = .next t) :
    ∃ u, M.step s = .next u ∧ M.run n u = .next t := by
  rw [Host.Core.run] at h
  cases first : M.step s with
  | next u => exact ⟨u, rfl, by rwa [first] at h⟩
  | fault f => rw [first] at h; cases h
  | refused r => rw [first] at h; cases h

theorem run_steps (n : Nat) (s t : State) (h : Host.Core.run Sys2Proof.core n s = .next t) : t.steps = s.steps + n := by
  induction n generalizing s with
  | zero => cases h; rfl
  | succ n ih =>
    obtain ⟨u, first, rest⟩ := run_succ_eq_next h
    rw [ih u rest, step_steps first, Nat.add_assoc, Nat.add_comm 1]

/-- Settles O15: every end of a step commits once, and a fault answer leaves the state it began in. -/
theorem stepCounterCountsCommittedSteps : Obligations.StepCounterCountsCommittedSteps :=
  ⟨fun _ _ => step_steps, run_steps, fun s t f answer => congrArg State.steps ((stepPort_eq_fault_iff s t f).mp answer).2⟩

end Sys2Proof.Proofs.Step
end

section
/-! The invariant of the machine: kept by each update of a state, hence by every step and every request of the caller
(10_state.md, 20_memory.md R101, R120). -/

namespace Sys2Proof.Proofs.Invariant

open Sys2Proof.Machine Sys2Proof.Laws Sys2Proof.Proofs.Step

/-! ## The updates of a state -/

theorem inv_resetWith {c : Config} (legal : c.legal) : (State.resetWith c).Inv :=
  ⟨rfl, rfl, rfl, rfl, rfl, by rw [resetWith_pc, BitVec.getLsbD_zero], legal, fun _ => rfl⟩

section
variable {s : State} (inv : s.Inv)
include inv

theorem inv_writeReg (i : RegIdx) (v : Word) : (s.writeReg i v).Inv := by
  have slot : (s.writeReg i v).regs[0] = s.regs[0] := writeReg_slot_zero s i v
  simpa only [State.Inv, slot, writeReg_imem, writeReg_dmem, writeReg_cfg, writeReg_pc] using inv

theorem inv_commit {next : Word} (even : next.getLsbD 0 = false) : (s.commit next).Inv := by
  obtain ⟨slot, imem_wf, dmem_wf, imem_within, dmem_within, -, legal, unified⟩ := inv
  exact ⟨slot, imem_wf, dmem_wf, imem_within, dmem_within, even, legal, unified⟩

theorem inv_withDmem {m : Memory} (wf : m.wf) (within : m.within s.cfg.dmemWords) : State.Inv { s with dmem := m } := by
  obtain ⟨slot, imem_wf, -, imem_within, -, even, legal, unified⟩ := inv
  exact ⟨slot, imem_wf, wf, imem_within, within, even, legal, unified⟩

theorem inv_withInstrMemory {m : Memory} (wf : m.wf) (within : m.within s.instrWords) : (s.withInstrMemory m).Inv := by
  obtain ⟨slot, imem_wf, dmem_wf, imem_within, dmem_within, even, legal, unified⟩ := inv
  by_cases one : s.cfg.unified = true
  · rw [State.instrWords, if_pos one] at within
    rw [State.withInstrMemory, if_pos one]
    exact ⟨slot, imem_wf, wf, imem_within, within, even, legal, unified⟩
  · rw [State.instrWords, if_neg one] at within
    rw [State.withInstrMemory, if_neg one]
    exact ⟨slot, wf, dmem_wf, within, dmem_within, even, legal, fun h => absurd h one⟩

theorem inv_dmem : s.dmem.wf ∧ s.dmem.within s.cfg.dmemWords := by
  obtain ⟨-, -, wf, -, within, -⟩ := inv
  exact ⟨wf, within⟩

theorem inv_instrMemory : s.instrMemory.wf ∧ s.instrMemory.within s.instrWords := by
  obtain ⟨-, imem_wf, dmem_wf, imem_within, dmem_within, -⟩ := inv
  by_cases one : s.cfg.unified = true
  · simp only [State.instrMemory, State.instrWords, if_pos one]
    exact ⟨dmem_wf, dmem_within⟩
  · simp only [State.instrMemory, State.instrWords, if_neg one]
    exact ⟨imem_wf, imem_within⟩

end

/-- Settles O12: the open capacities are brought into the legal range, and an empty memory is canonical. -/
theorem resetMeetsInvariant : Obligations.ResetMeetsInvariant := by
  have legal : Config.machine.legal := by
    have imem : Config.openImemWords % 2 ^ 30 < 2 ^ 30 := Nat.mod_lt _ (by decide)
    have dmem : Config.openDmemWords % 2 ^ 30 < 2 ^ 30 := Nat.mod_lt _ (by decide)
    exact ⟨Nat.le_add_left _ _, imem, Nat.le_add_left _ _, dmem, Nat.le_add_left _ _⟩
  exact ⟨inv_resetWith legal, fun _ => inv_resetWith⟩

/-! ## The committed program counter is even -/

theorem getLsbD_zero_iff (a : Word) : a.getLsbD 0 = false ↔ a.toNat % 2 = 0 := by
  rw [BitVec.getLsbD, Nat.testBit_zero, decide_eq_false_iff_not]
  omega

theorem getLsbD_zero_add {a b : Word} (ha : a.getLsbD 0 = false) (hb : b.getLsbD 0 = false) :
    (a + b).getLsbD 0 = false := by
  rw [BitVec.getLsbD_add (by decide), BitVec.carry_zero, ha, hb]
  rfl

theorem getLsbD_zero_signExtend {n : Nat} (hn : 0 < n) {x : BitVec n} (even : x.getLsbD 0 = false) :
    (x.signExtend 32).getLsbD 0 = false := by
  rw [BitVec.getLsbD_signExtend, if_pos hn, even, Bool.and_false]

theorem sequentialPc_even {pc : Word} (even : pc.getLsbD 0 = false) : (sequentialPc pc).getLsbD 0 = false :=
  getLsbD_zero_add even rfl

theorem indirectTarget_even (base offset : Word) : (indirectTarget base offset).getLsbD 0 = false := by
  rw [indirectTarget, BitVec.getLsbD_and]
  exact Bool.and_false _

/-- An instruction that stands for a word goes from an even pc to an even one. -/
theorem exec_pc_even {i : Instr} {s t : State} (wf : i.wellFormed = true) (even : s.pc.getLsbD 0 = false)
    (h : exec i s = .next t) : t.pc.getLsbD 0 = false := by
  have sequential := sequentialPc_even even
  cases i
  case jal rd offset =>
    cases h
    rw [commit_pc, relativeTarget, immJ_eq]
    exact getLsbD_zero_add even (getLsbD_zero_signExtend (by decide) ((Bool.not_eq_true' _).mp wf))
  case jalr rd rs1 imm =>
    cases h
    exact indirectTarget_even _ _
  case beq rs1 rs2 offset | bne rs1 rs2 offset | blt rs1 rs2 offset | bge rs1 rs2 offset | bltu rs1 rs2 offset
      | bgeu rs1 rs2 offset =>
    have target : (relativeTarget s.pc (immB offset)).getLsbD 0 = false := by
      rw [relativeTarget, immB_eq]
      exact getLsbD_zero_add even (getLsbD_zero_signExtend (by decide) ((Bool.not_eq_true' _).mp wf))
    cases h
    rw [commit_pc]
    split
    · exact target
    · exact sequential
  case lw rd rs1 imm =>
    cases read : s.dmemRead (effectiveAddress (s.readReg rs1) (immI imm)) with
    | error f => cases (exec_lw_of_dmemRead_error read).symm.trans h
    | ok v =>
      cases (exec_lw_of_dmemRead_ok read).symm.trans h
      exact sequential
  case sw rs2 rs1 imm =>
    obtain ⟨-, rfl⟩ := exec_sw_eq_next h
    exact sequential
  all_goals
    cases h
    exact sequential

/-- From whatever state: a step that completes began with a fetch, which wants an aligned pc. -/
theorem step_pc_even {s t : State} (h : step s = .next t) : t.pc.getLsbD 0 = false := by
  obtain ⟨w, fetched, run⟩ := step_eq_next h
  obtain ⟨aligned, -⟩ := fetch_ok fetched
  have even : s.pc.getLsbD 0 = false := by
    rw [getLsbD_zero_iff]
    omega
  exact exec_pc_even (Encoding.wellFormed_decode w) even run

/-- Settles O13: a step is a register write or a store inside the capacity, and then the commit of an even pc. -/
theorem stepKeepsInvariant : Obligations.StepKeepsInvariant := by
  intro s t inv h
  have even : t.pc.getLsbD 0 = false := step_pc_even h
  obtain ⟨w, -, run⟩ := step_eq_next h
  obtain ⟨rd, v, next, rfl⟩ | ⟨rs2, rs1, imm, ea, -, -, aligned, inside, rfl⟩ := exec_next_cases run
  · exact inv_commit (inv_writeReg inv rd v) even
  · obtain ⟨dmem_wf, dmem_within⟩ := inv_dmem inv
    have stored := inv_withDmem inv (writeWord_wf ea.toNat (s.readReg rs2) dmem_wf)
      (writeWord_within ea.toNat (s.readReg rs2) (by omega) dmem_within)
    exact inv_commit stored even

/-! ## The requests of the caller -/

theorem loadProgram_wf_within {words : Nat} {m m' : Memory} {ws : List Word} {base : Word} (wf : m.wf) (within : m.within words)
    (loaded : loadProgram words m ws base = .ok m') : m'.wf ∧ m'.within words := by
  obtain ⟨-, h⟩ | ⟨-, -, h⟩ | ⟨aligned, fits, h⟩ := loadProgram_cases words m ws base
  · cases h.symm.trans loaded
  · cases h.symm.trans loaded
  · cases h.symm.trans loaded
    exact ⟨writeWords_wf _ ws wf, writeWords_within _ ws (by omega) within⟩

/-- Settles O14: each port changes the state by updates that keep the invariant, or not at all. -/
theorem portsKeepInvariant : Obligations.PortsKeepInvariant := by
  intro r s inv
  cases r with
  | step =>
    rw [serve, stepPort]
    cases h : step s with
    | next t => exact stepKeepsInvariant s t inv h
    | fault f => exact inv
    | refused r => exact inv
  | reset =>
    obtain ⟨-, -, -, -, -, -, legal, -⟩ := inv
    exact inv_resetWith legal
  | snapshot => exact inv
  | loadProgram ws base =>
    obtain ⟨wf, within⟩ := inv_instrMemory inv
    rw [serve, loadProgramPort]
    cases loaded : loadProgram s.instrWords s.instrMemory ws base with
    | error f => exact inv
    | ok m =>
      obtain ⟨wf', within'⟩ := loadProgram_wf_within wf within loaded
      exact inv_withInstrMemory inv wf' within'
  | loadData ws base =>
    obtain ⟨wf, within⟩ := inv_dmem inv
    rw [serve, loadDataPort]
    cases loaded : loadProgram s.cfg.dmemWords s.dmem ws base with
    | error f => exact inv
    | ok m =>
      obtain ⟨wf', within'⟩ := loadProgram_wf_within wf within loaded
      exact inv_withDmem inv wf' within'
  | readRegister index =>
    rw [serve, readRegisterPort]
    cases checkRegister index with
    | error f => exact inv
    | ok i => exact inv
  | writeRegister index value =>
    rw [serve, writeRegisterPort]
    cases checkRegister index with
    | error f => exact inv
    | ok i => exact inv_writeReg inv i value

end Sys2Proof.Proofs.Invariant
end

section
/-! What a completed step leaves unchanged: memory in every step but SW's (20_memory.md R134), every register but rd
(45_sequencer.md R462), and the evenness of the pc (47_control_transfer.md R559). -/

namespace Sys2Proof.Proofs.StepFrame

open Sys2Proof.Machine Sys2Proof.Laws Sys2Proof.Proofs.MemoryInterface Sys2Proof.Proofs.Step

/-! ## Memory -/

theorem instrMemory_of_separate {s : State} (separate : s.cfg.unified = false) : s.instrMemory = s.imem := by
  rw [State.instrMemory, separate]
  rfl

/-- Everything a completed step does to the parameters and the memories. -/
theorem step_memories {s t : State} (h : step s = .next t) :
    t.cfg = s.cfg ∧ t.imem = s.imem ∧ (t.dmem = s.dmem ∨ ∃ w, s.fetch = .ok w ∧ (decode w).mnemonic = .SW) := by
  obtain ⟨w, fetched, run⟩ := step_eq_next h
  obtain ⟨rd, v, next, rfl⟩ | ⟨rs2, rs1, imm, ea, store, -, -, -, rfl⟩ := exec_next_cases run
  · simp
  · exact ⟨rfl, rfl, .inr ⟨w, fetched, by rw [store, Instr.mnemonic]⟩⟩

/-- Settles O19: a register write touches no memory, and a store touches the data memory only. -/
theorem onlyStoresChangeMemory : Obligations.OnlyStoresChangeMemory := by
  intro s t h
  obtain ⟨cfg, imem, dmem⟩ := step_memories h
  refine ⟨cfg, imem, fun separate => ?_, fun a changed => ?_⟩
  · rw [instrMemory_of_separate separate, instrMemory_of_separate (cfg ▸ separate), imem]
  · obtain same | store := dmem
    · exact absurd (congrArg (Memory.readByte · a) same) changed
    · exact store

/-- Settles O22: the fetch reads the data memory when there is one memory, and the instruction memory, which no store
reaches, when there are two. -/
theorem storesAndFetches : Obligations.StoresAndFetches := by
  intro s t rs2 rs1 imm canonical run
  obtain ⟨inside, rfl⟩ := exec_sw_eq_next run
  constructor
  · intro one
    have fetched : loadWord s.cfg.dmemWords (Memory.writeWord s.dmem (s.readReg rs1 + imm.signExtend 32).toNat (s.readReg rs2))
        .fetch (s.readReg rs1 + imm.signExtend 32) = .ok (s.readReg rs2) := by
      rw [loadWord_of_allowed inside, readWord_writeWord_self _ _ canonical]
    simpa [State.fetch, State.imemRead, State.instrWords, State.instrMemory, one] using fetched
  · intro separate a
    simp [State.imemRead, State.instrWords, State.instrMemory, separate]

/-! ## Registers -/

theorem readReg_datapathWriteback (c : ControlSignals) (rd i : RegIdx) (v : Word) (s : State)
    (other : ¬ (i = rd ∧ rd ≠ 0#5 ∧ c.regWrite = true)) : (datapathWriteback c rd v s).readReg i = s.readReg i := by
  rw [datapathWriteback]
  split
  next enabled => exact readReg_writeReg_ne s rd i v fun same => other ⟨same, enabled.2, enabled.1⟩
  next => rfl

theorem readReg_datapathWrite {c : ControlSignals} {a v : Word} {s t : State} (h : datapathWrite c a v s = .ok t) (i : RegIdx) :
    t.readReg i = s.readReg i := by
  rw [datapathWrite] at h
  split at h
  next =>
    obtain ⟨-, -, rfl⟩ := dmemWrite_ok h
    rfl
  next =>
    cases h
    rfl

/-- The datapath has one place where a register is written, after a data write that leaves the registers alone. -/
theorem readReg_datapath {w : Word} {s t : State} (h : datapath w s = .next t) (i : RegIdx)
    (other : ¬ (i = (decodeFields w).rd ∧ (decodeFields w).rd ≠ 0#5 ∧ (controlOf (decodeFields w)).regWrite = true)) :
    t.readReg i = s.readReg i := by
  rw [datapath] at h
  split at h
  next => cases h
  next =>
    split at h
    next => cases h
    next u written =>
      cases h
      rw [commit_readReg, readReg_datapathWriteback _ _ _ _ _ other, readReg_datapathWrite written]

/-- Settles O20: the step is the datapath's, whose one register write is under the enable signal and the test of rd. -/
theorem onlyRdChanges : Obligations.OnlyRdChanges := by
  intro s t w i h fetched changed
  rw [step_of_fetch_ok fetched, ← Datapath.datapath_eq_exec_decode] at h
  by_contra other
  refine changed (readReg_datapath h i fun ⟨same, nonzero, enabled⟩ => other ⟨same, ?_, enabled⟩)
  rwa [same]

/-! ## The program counter -/

/-- Settles O21: every target of a well-formed instruction is even, and the next fetch wants a multiple of 4. -/
theorem committedPcIsEven : Obligations.CommittedPcIsEven := by
  intro s t h
  have even : t.pc.toNat % 2 = 0 := (Invariant.getLsbD_zero_iff t.pc).mp (Invariant.step_pc_even h)
  exact ⟨even, fun two => step_of_misaligned_pc (by omega)⟩

end Sys2Proof.Proofs.StepFrame
end

section
/-! The comparisons and the right shifts by an immediate (46_alu_instructions.md sections 2 and 3), the indirect jump
(47_control_transfer.md R552) and the load (48_load_store.md R600): encoding, result and frame of each. -/

namespace Sys2Proof.Proofs.InstructionResults

open Sys2Proof.Machine Sys2Proof.Laws Sys2Proof.Proofs.AluInstructions Sys2Proof.Proofs.MemoryInterface
  Sys2Proof.Proofs.Step

/-! ## The comparisons -/

theorem alu_slt_eq_ite (a b : Word) : (alu .slt a b).result = if a.toInt < b.toInt then 1 else 0 := by
  simp [wordOfBool, lessSigned]

theorem alu_sltu_eq_ite (a b : Word) : (alu .sltu a b).result = if a.toNat < b.toNat then 1 else 0 := by
  simp [wordOfBool, lessUnsigned]

/-- Settles O24: the immediate forms compare with the sign-extended immediate, SLTIU too. -/
theorem setLessThanResults : Obligations.SetLessThanResults := by
  intro rd rs1 rs2 imm s
  refine ⟨⟨decode_wordR_op 0b0000000 rs2 rs1 0b010 rd, writes_aluToReg rd s (alu_slt_eq_ite _ _)⟩,
    ⟨decode_wordR_op 0b0000000 rs2 rs1 0b011 rd, writes_aluToReg rd s (alu_sltu_eq_ite _ _)⟩,
    ⟨decode_wordI_opImm ?slti imm rs1 rd, writes_aluToReg_immI rd s (alu_slt_eq_ite _ _)⟩,
    ⟨decode_wordI_opImm ?sltiu imm rs1 rd, writes_aluToReg_immI rd s (alu_sltu_eq_ite _ _)⟩⟩
  all_goals
    intro d funct3
    simp [decodeOpImm, funct3]

/-! ## The right shifts by an immediate -/

theorem alu_srl_immI (a : Word) (funct7 : BitVec 7) (shamt : BitVec 5) :
    (alu .srl a (immI (funct7 ++ shamt))).result = BitVec.ofNat 32 (a.toNat / 2 ^ shamt.toNat) := by
  rw [alu_srl_eq_ofNat, shiftAmount_immI]

theorem alu_sra_immI (a : Word) (funct7 : BitVec 7) (shamt : BitVec 5) :
    (alu .sra a (immI (funct7 ++ shamt))).result = BitVec.ofInt 32 (a.toInt / 2 ^ shamt.toNat) := by
  rw [alu_sra_eq_ofInt, shiftAmount_immI]

/-- Settles O26: funct7 picks between the two shifts and falls outside the shift amount; any other picks nothing. -/
theorem shiftRightImmediateResults : Obligations.ShiftRightImmediateResults := by
  intro rd rs1 shamt s
  refine ⟨⟨decode_wordR_opImm 0b0000000 shamt rs1 0b101 rd, writes_aluToReg rd s (alu_srl_immI _ _ shamt)⟩,
    ⟨decode_wordR_opImm 0b0100000 shamt rs1 0b101 rd, writes_aluToReg rd s (alu_sra_immI _ _ shamt)⟩, ?_⟩
  intro funct7 zero alternate
  exact (decode_wordR_opImm funct7 shamt rs1 0b101 rd).trans ((if_neg zero).trans (if_neg alternate))

/-! ## The indirect jump -/

theorem decode_wordI_jalr (imm : BitVec 12) (rs1 : RegIdx) (funct3 : BitVec 3) (rd : RegIdx) :
    decode (wordI imm rs1 funct3 rd 0b1100111#7) =
      if funct3 = 0b000#3 then .jalr rd rs1 imm else .unrecognized (wordI imm rs1 funct3 rd 0b1100111#7) := by
  rw [wordI_eq_encodeR]
  simp [decode, append_parts_12]

/-- Clearing bit 0 takes away the remainder modulo 2. -/
theorem and_clear_bit_zero (x : Word) : x &&& 0xFFFFFFFE#32 = BitVec.ofNat 32 (x.toNat - x.toNat % 2) := by
  have bound : x.toNat < 2 ^ 32 := x.isLt
  have parts : x = x.extractLsb' 1 31 ++ x.extractLsb' 0 1 := (BitVec.extractLsb'_append_extractLsb' (w := 31) (len := 1)).symm
  have mask : 0xFFFFFFFE#32 = BitVec.allOnes 31 ++ 0#1 := by decide
  have cleared : x &&& 0xFFFFFFFE#32 = x.extractLsb' 1 31 ++ 0#1 := by
    conv_lhs => rw [parts, mask, BitVec.and_append, BitVec.and_allOnes, BitVec.and_zero]
  apply BitVec.eq_of_toNat_eq
  rw [cleared, FloatingPoint.append_toNat, BitVec.extractLsb'_toNat, BitVec.toNat_ofNat, BitVec.toNat_ofNat,
    Nat.shiftRight_eq_div_pow]
  omega

theorem writes_jalr (rd rs1 : RegIdx) (imm : BitVec 12) (s : State) :
    Writes s rd (s.pc + 4) ((s.readReg rs1 + imm.signExtend 32) &&& 0xFFFFFFFE#32) (exec (.jalr rd rs1 imm) s) := by
  rw [← immI_eq]
  exact writes_writeAndGo s rd (s.pc + 4) (indirectTarget (s.readReg rs1) (immI imm))

/-- Settles O29: the target is computed from the state before the link is written. -/
theorem jumpAndLinkRegisterResult : Obligations.JumpAndLinkRegisterResult := by
  intro rd rs1 imm funct3 s sum
  rw [← and_clear_bit_zero]
  refine ⟨⟨decode_wordI_jalr imm rs1 0b000 rd, writes_jalr rd rs1 imm s⟩, fun other => ?_⟩
  exact (decode_wordI_jalr imm rs1 funct3 rd).trans (if_neg other)

/-! ## The load -/

/-- Settles O31: the step answers what the data read answers. -/
theorem loadWordResult : Obligations.LoadWordResult := by
  intro rd rs1 imm s ea word
  have address : ea = s.readReg rs1 + imm.signExtend 32 := congrArg (s.readReg rs1 + ·) (immI_eq imm)
  refine ⟨Encoding.decode_encodeI_lw rd rs1 imm, address, fun aligned inside => ?_, fun misaligned => ?_,
    fun aligned beyond => ?_⟩
  · have read : s.dmemRead ea = .ok word := loadWord_of_allowed ⟨aligned, inside⟩
    rw [exec_lw_of_dmemRead_ok read]
    exact writes_writeAndGo s rd word (s.pc + 4)
  · exact exec_lw_of_dmemRead_error (loadWord_of_check_error (checkAccess_of_misaligned misaligned))
  · exact exec_lw_of_dmemRead_error (loadWord_of_check_error (checkAccess_of_beyond aligned beyond))

end Sys2Proof.Proofs.InstructionResults
end

section
/-! The unrecognized class (49_unrecognized.md): a no-op, and the groups of encodings that it takes in. -/

namespace Sys2Proof.Proofs.UnrecognizedClass

open Sys2Proof.Machine Sys2Proof.Laws Sys2Proof.Proofs.ControlTransfer Sys2Proof.Proofs.Encoding Sys2Proof.Proofs.Step

theorem moves_unrecognized (w : Word) (s : State) : Moves s (s.pc + 4) (exec (.unrecognized w) s) :=
  moves_go s (s.pc + 4)

/-- Settles O33: both commit pc + 4, and a write to x0 is no write. -/
theorem unrecognizedIsNoOp : Obligations.UnrecognizedIsNoOp := fun w s => ⟨moves_unrecognized w s, rfl⟩

/-! ## The named groups (R652 to R663) -/

/-- The groups that the opcode alone names: F, SYSTEM, MISC-MEM, AMO, the words shorter or longer than 32 bits, and the custom
and reserved opcodes. -/
theorem not_mem_rowOpcodes : ∀ opcode : BitVec 7,
    opcode ∈ [0b0000111, 0b0100111, 0b1010011, 0b1000011, 0b1000111, 0b1001011, 0b1001111] ∨
      opcode = 0b1110011 ∨ opcode = 0b0001111 ∨ opcode = 0b0101111 ∨ opcode.extractLsb' 0 2 ≠ 0b11 ∨
      opcode ∈ [0b0001011, 0b0101011, 0b1011011, 0b1111011, 0b0111111] ∨ opcode.extractLsb' 0 6 = 0b011111 →
    opcode ∉ rowOpcodes := by
  decide

theorem extract_low_of_opcode (w : Word) {len : Nat} (h : len ≤ 7) :
    w.extractLsb' 0 len = (w.extractLsb' 0 7).extractLsb' 0 len := by
  rw [BitVec.extractLsb'_extractLsb'_of_le (by omega)]

/-- Settles O34: each group has an opcode of no row, or funct fields of no row. -/
theorem namedGroupsAreNoOps : Obligations.NamedGroupsAreNoOps := by
  intro s w fetched group
  rw [extract_low_of_opcode w (len := 2) (by decide), extract_low_of_opcode w (len := 6) (by decide)] at group
  have unmatched : Unmatched (w.extractLsb' 0 7) (w.extractLsb' 12 3) (w.extractLsb' 25 7) := by
    obtain ⟨op, mulDiv⟩ | float | system | miscMem | amo | subWord | others := group
    · exact .inr (.inl ⟨op, by simp [mulDiv]⟩)
    · exact .inl (not_mem_rowOpcodes _ (.inl float))
    · exact .inl (not_mem_rowOpcodes _ (.inr (.inl system)))
    · exact .inl (not_mem_rowOpcodes _ (.inr (.inr (.inl miscMem))))
    · exact .inl (not_mem_rowOpcodes _ (.inr (.inr (.inr (.inl amo)))))
    · exact .inr (.inr (.inr (.inr (.inl subWord))))
    · exact .inl (not_mem_rowOpcodes _ (.inr (.inr (.inr (.inr others)))))
  rw [step_of_fetch_ok fetched, (decode_eq_unrecognized_iff_unmatched w).mpr unmatched]
  exact moves_unrecognized w s

end Sys2Proof.Proofs.UnrecognizedClass
end

section
/-! The control unit (40_control_unit.md): the signal set of every word, and what the sequencer relies on (R204). -/

namespace Sys2Proof.Proofs.ControlSignalTable

open Sys2Proof.Machine Sys2Proof.Laws Sys2Proof.Proofs.Datapath

theorem controlUnit_eq_signalsOf (w : Word) :
    controlUnit (w.extractLsb' 0 7) (w.extractLsb' 12 3) (w.extractLsb' 25 7) = signalsOf (decode w).mnemonic := by
  have decodes := decode_spec w
  generalize decode w = i at decodes ⊢
  cases decodes
  case lui opcode | auipc opcode | jal opcode =>
    rw [opcode]
    rfl
  case jalr opcode funct3 | lw opcode funct3 | sw opcode funct3 | beq opcode funct3 | bne opcode funct3 | blt opcode funct3
      | bge opcode funct3 | bltu opcode funct3 | bgeu opcode funct3 | addi opcode funct3 | slti opcode funct3
      | sltiu opcode funct3 | xori opcode funct3 | ori opcode funct3 | andi opcode funct3 | slli opcode funct3 =>
    rw [opcode, funct3]
    rfl
  case srli opcode funct3 funct7 | srai opcode funct3 funct7 | add opcode funct3 funct7 | sub opcode funct3 funct7
      | sll opcode funct3 funct7 | slt opcode funct3 funct7 | sltu opcode funct3 funct7 | xor opcode funct3 funct7
      | srl opcode funct3 funct7 | sra opcode funct3 funct7 | or opcode funct3 funct7 | and opcode funct3 funct7 =>
    rw [opcode, funct3, funct7]
    rfl
  case jalrFunct3 opcode funct3 | loadFunct3 opcode funct3 | storeFunct3 opcode funct3 =>
    rw [opcode]
    exact if_neg fun h => funct3 (BitVec.eq_of_toNat_eq h)
  case branchFunct3 opcode funct3 =>
    rw [opcode]
    obtain funct3 | funct3 := funct3 <;>
      · rw [funct3]
        rfl
  case opImmFunct7 opcode funct3 zero alternate =>
    rw [opcode, funct3]
    exact controlOpImm_of_other_funct7 zero alternate
  case opFunct7 opcode zero alternate =>
    rw [opcode]
    exact controlOp_of_other_funct7 zero alternate
  case opcode lui auipc jal jalr branch load store opImm op =>
    exact controlUnit_of_other_opcode lui auipc jal jalr branch load store opImm op _ _

/-- Settles O42: the control unit and the decoder are keyed by the same fields. -/
theorem controlFollowsTable : Obligations.ControlFollowsTable := controlUnit_eq_signalsOf

/-! ## What the sequencer relies on -/

/-- Every key is that of some word. -/
theorem exists_word_of_key (opcode : BitVec 7) (funct3 : BitVec 3) (funct7 : BitVec 7) :
    ∃ w : Word, w.extractLsb' 0 7 = opcode ∧ w.extractLsb' 12 3 = funct3 ∧ w.extractLsb' 25 7 = funct7 :=
  ⟨encodeR funct7 0 0 funct3 0 opcode, extract_encodeR_opcode _ _ _ _ _ _, extract_encodeR_funct3 _ _ _ _ _ _,
    extract_encodeR_funct7 _ _ _ _ _ _⟩

/-- What each row of the signal table keeps apart. -/
theorem signalsOf_exclusive (m : Mnemonic) :
    ¬ ((signalsOf m).memRead = true ∧ (signalsOf m).memWrite = true) ∧
    ¬ ((signalsOf m).jump = true ∧ (signalsOf m).jalr = true) ∧
    ((signalsOf m).branch ≠ .none →
      (signalsOf m).jump = false ∧ (signalsOf m).jalr = false ∧ (signalsOf m).regWrite = false) ∧
    ((signalsOf m).memRead = true → (signalsOf m).wbSrc = .mem) := by
  cases m <;> decide

theorem branch_signalsOf_iff (m : Mnemonic) :
    (signalsOf m).branch ≠ .none ↔ m = .BEQ ∨ m = .BNE ∨ m = .BLT ∨ m = .BGE ∨ m = .BLTU ∨ m = .BGEU := by
  cases m <;> decide

theorem memRead_signalsOf_iff (m : Mnemonic) : (signalsOf m).memRead = true ↔ m = .LW := by
  cases m <;> decide

theorem link_signalsOf_iff (m : Mnemonic) : (signalsOf m).wbSrc = .link ↔ m = .JAL ∨ m = .JALR := by
  cases m <;> decide

/-! ### The fields of a row's words -/

section
variable {m : Mnemonic} {p : Word} (w : Word)

theorem mnemonic_eq_iff_opcode (row : ⟨m, 0x0000007F#32, p⟩ ∈ opcodeTable) (pattern : p &&& 0xFFFFFF80#32 = 0#32) :
    (decode w).mnemonic = m ↔ w.extractLsb' 0 7 = p.extractLsb' 0 7 :=
  eq_comm.trans ((Encoding.row_match_iff row w).symm.trans (and_mask_opcode w p pattern))

theorem mnemonic_eq_iff_funct3 (row : ⟨m, 0x0000707F#32, p⟩ ∈ opcodeTable) (pattern : p &&& 0xFFFF8F80#32 = 0#32) :
    (decode w).mnemonic = m ↔ w.extractLsb' 0 7 = p.extractLsb' 0 7 ∧ w.extractLsb' 12 3 = p.extractLsb' 12 3 :=
  eq_comm.trans ((Encoding.row_match_iff row w).symm.trans (and_mask_funct3 w p pattern))

end

theorem lw_iff (w : Word) :
    (decode w).mnemonic = .LW ↔ w.extractLsb' 0 7 = 0b0000011#7 ∧ w.extractLsb' 12 3 = 0b010#3 :=
  mnemonic_eq_iff_funct3 (p := 0x00002003#32) w (by decide) rfl

theorem jal_or_jalr_iff (w : Word) :
    (decode w).mnemonic = .JAL ∨ (decode w).mnemonic = .JALR ↔
      w.extractLsb' 0 7 = 0b1101111#7 ∨ w.extractLsb' 0 7 = 0b1100111#7 ∧ w.extractLsb' 12 3 = 0b000#3 :=
  or_congr (mnemonic_eq_iff_opcode (p := 0x0000006F#32) w (by decide) rfl)
    (mnemonic_eq_iff_funct3 (p := 0x00000067#32) w (by decide) rfl)

theorem fields_of_branch {w : Word}
    (h : (decode w).mnemonic = .BEQ ∨ (decode w).mnemonic = .BNE ∨ (decode w).mnemonic = .BLT ∨
      (decode w).mnemonic = .BGE ∨ (decode w).mnemonic = .BLTU ∨ (decode w).mnemonic = .BGEU) :
    w.extractLsb' 0 7 = 0b1100011#7 ∧ w.extractLsb' 12 3 ≠ 0b010#3 ∧ w.extractLsb' 12 3 ≠ 0b011#3 := by
  have decodes := decode_spec w
  generalize decode w = i at decodes h
  cases decodes
  case beq opcode funct3 | bne opcode funct3 | blt opcode funct3 | bge opcode funct3 | bltu opcode funct3
      | bgeu opcode funct3 =>
    rw [opcode, funct3]
    decide
  all_goals simp [Instr.mnemonic] at h

/-- Settles O43: the key is that of a word, whose signals are a row of the table, and the row's fields are in the opcode
table. -/
theorem controlTableInvariants : Obligations.ControlTableInvariants := by
  intro opcode funct3 funct7 c
  obtain ⟨w, rfl, rfl, rfl⟩ := exists_word_of_key opcode funct3 funct7
  have signals : c = signalsOf (decode w).mnemonic := controlUnit_eq_signalsOf w
  obtain ⟨access, jumps, branch, load⟩ := signalsOf_exclusive (decode w).mnemonic
  rw [signals]
  refine ⟨access, jumps, fun taken => ?_, (memRead_signalsOf_iff _).trans (lw_iff w), load,
    (link_signalsOf_iff _).trans (jal_or_jalr_iff w)⟩
  obtain ⟨opcode, not_two, not_three⟩ := fields_of_branch ((branch_signalsOf_iff _).mp taken)
  exact ⟨opcode, not_two, not_three, branch taken⟩

end Sys2Proof.Proofs.ControlSignalTable
end

section
/-! The ALU port (41_alu.md section 2): the flags of ADD and SUB on the adder's operands, and the operations without flags. -/

namespace Sys2Proof.Proofs.AluPort

open Sys2Proof.Machine Sys2Proof.Laws Sys2Proof.Proofs.AluInstructions Sys2Proof.Proofs.BitPrimitives
open Sys2Proof.Proofs.InstructionResults (alu_slt_eq_ite alu_sltu_eq_ite)

/-! ## The flags of the adder -/

section
variable (p q : Word)

theorem aluAdditive_result : (aluAdditive p q).result = p + q := rippleAdd_fst p q

theorem aluAdditive_flagsValid : (aluAdditive p q).flagsValid = true := rfl

theorem aluAdditive_n_iff : (aluAdditive p q).flags.n = true ↔ 2 ^ 31 ≤ (aluAdditive p q).result.toNat :=
  FloatingPoint.top_bit_iff (aluAdditive p q).result

theorem aluAdditive_z_iff : (aluAdditive p q).flags.z = true ↔ (aluAdditive p q).result = 0 := beq_iff_eq

theorem aluAdditive_c_iff : (aluAdditive p q).flags.c = true ↔ 2 ^ 32 ≤ p.toNat + q.toNat := rippleAdd_snd_iff p q

/-- R265 on the signs of the operands and of the wrapped sum. -/
theorem aluAdditive_v : (aluAdditive p q).flags.v = (p.msb == q.msb && (p + q).msb != p.msb) := by
  have msb (x : Word) : x.msb = x.getLsbD 31 := BitVec.msb_eq_getLsbD_last x
  rw [msb, msb, msb, ← aluAdditive_result]
  rfl

/-- The signed sum leaves the range exactly when two operands of one sign have a wrapped sum of the other. -/
theorem aluAdditive_v_iff :
    (aluAdditive p q).flags.v = true ↔ p.toInt + q.toInt ≠ (aluAdditive p q).result.toInt := by
  have p_lt : p.toNat < 2 ^ 32 := p.isLt
  have q_lt : q.toNat < 2 ^ 32 := q.isLt
  rw [aluAdditive_v, aluAdditive_result]
  simp only [BitVec.msb_eq_decide, BitVec.toInt_eq_toNat_cond, BitVec.toNat_add, Bool.and_eq_true, beq_iff_eq, bne_iff_ne,
    decide_eq_decide, ne_eq]
  omega

end

/-- Settles O47: each flag is the adder's on the two operands. -/
theorem aluAdditionFlags : Obligations.AluAdditionFlags := fun a b =>
  ⟨aluAdditive_result a b, aluAdditive_flagsValid a b, aluAdditive_n_iff a b, aluAdditive_z_iff a b,
    aluAdditive_c_iff a b, aluAdditive_v_iff a b⟩

/-! ## Subtraction as an addition of -b -/

/-- Only -0 = 0 does not carry where a is at least b. -/
theorem carry_negate_iff (a b : Word) : 2 ^ 32 ≤ a.toNat + (negate b).toNat ↔ b ≠ 0 ∧ b.toNat ≤ a.toNat := by
  have a_lt : a.toNat < 2 ^ 32 := a.isLt
  have b_lt : b.toNat < 2 ^ 32 := b.isLt
  have zero : b = 0 ↔ b.toNat = 0 := BitVec.toNat_eq
  rw [negate_toNat, ne_eq, zero]
  omega

theorem toInt_negate {b : Word} (h : b ≠ 0x80000000) : (negate b).toInt = -b.toInt := by
  have smallest : BitVec.intMin 32 = 0x80000000 := by decide
  rw [negate_eq_neg, BitVec.toInt_neg_of_ne_intMin (smallest ▸ h)]

theorem msb_add_smallest_word (a : Word) : (a + 0x80000000#32).msb = !a.msb := by
  have a_lt : a.toNat < 2 ^ 32 := a.isLt
  have sum : (a + 0x80000000#32).toNat = (a.toNat + 2 ^ 31) % 2 ^ 32 := BitVec.toNat_add a 0x80000000#32
  rw [BitVec.msb_eq_decide, BitVec.msb_eq_decide, sum, ← decide_not, decide_eq_decide]
  omega

/-- 0x80000000 is its own negation, so the sum always has the other sign. -/
theorem aluAdditive_v_smallest_word (a : Word) : (aluAdditive a (negate 0x80000000)).flags.v = a.msb := by
  have q : negate 0x80000000 = 0x80000000#32 := negate_smallest_word
  rw [q, aluAdditive_v, msb_add_smallest_word]
  cases a.msb <;> rfl

/-- Settles O48: the flags are those of adding -b, and 0x80000000 is the one word whose negation has its own sign. -/
theorem aluSubtractionFlags : Obligations.AluSubtractionFlags := by
  intro a b
  refine ⟨alu_sub_result a b, aluAdditive_flagsValid a _, aluAdditive_n_iff a _, aluAdditive_z_iff a _,
    (aluAdditive_c_iff a _).trans (carry_negate_iff a b), fun ordinary => ?_, ?_⟩
  · have overflow := aluAdditive_v_iff a (negate b)
    rwa [toInt_negate ordinary, ← sub_eq_add_neg] at overflow
  · rintro rfl
    exact aluAdditive_v_smallest_word a

/-! ## The other operations -/

theorem alu_flagsValid_iff (op : AluOp) (a b : Word) : (alu op a b).flagsValid = true ↔ op = .add ∨ op = .sub := by
  cases op
  case add | sub => simp [alu, aluAdditive_flagsValid]
  all_goals simp [alu, aluPlain]

/-- Settles O49: the comparisons give 1 and 0, the shifts take the low five bits, and only the adder has valid flags. -/
theorem aluLogicShiftCopy : Obligations.AluLogicShiftCopy := fun a b =>
  ⟨alu_and_result a b, alu_or_result a b, alu_xor_result a b, alu_sll_eq_ofNat a b, alu_srl_eq_ofNat a b,
    alu_sra_eq_ofInt a b, alu_copyB_result a b, alu_slt_eq_ite a b, alu_sltu_eq_ite a b,
    fun op => alu_flagsValid_iff op a b⟩

end Sys2Proof.Proofs.AluPort
end

section
/-! The codec's integer port (44_codec.md R400 to R403) and its refusal (R406). -/

namespace Sys2Proof.Proofs.CodecPort

open Sys2Proof.Machine Sys2Proof.Laws Sys2Proof.Proofs.Codec

theorem codecEncode_fst (v : Int) : (codecEncode v).1 = BitVec.ofInt 32 v := rfl

theorem codecEncode_overflow_iff (v : Int) : (codecEncode v).2 = true ↔ v < -2147483648 ∨ 2147483647 < v := by
  simp [codecEncode]

theorem codecDecode_codecEncode {v : Int} (lower : -2147483648 ≤ v) (upper : v ≤ 2147483647) :
    codecDecode (codecEncode v).1 = v := by
  rw [codecDecode_eq_toInt, codecEncode_fst, BitVec.toInt_ofInt, Int.bmod_eq_of_le]
  · omega
  · omega

/-- Settles O58: within its input width the port is `encode`, and every legal width takes more than the 32-bit range. -/
theorem codecRoundTrip : Obligations.CodecRoundTrip := by
  refine ⟨fun v => ⟨codecEncode_fst v, codecEncode_overflow_iff v⟩, fun n x => codecDecode_eq_toInt x,
    fun v => codecDecode_codecEncode, fun c legal => ⟨fun v takes => ?_, fun v lower upper => ?_⟩⟩
  · rw [codecEncodePort_ofInt legal takes]
    exact ⟨codecEncode_fst v, codecEncode_overflow_iff v⟩
  · exact codecTakes_of_lt legal (by omega) (by omega)

/-- Settles O60: both requests compare the two widths before they look at the vector. -/
theorem codecNarrowingRefused : Obligations.CodecNarrowingRefused := fun _ _ _ narrower => ⟨if_pos narrower, if_pos narrower⟩

end Sys2Proof.Proofs.CodecPort
end

section
/-! Signed multiplication and division (42_mdu.md R302, R305 to R307): the unsigned operation on the magnitudes, with the sign put
back. -/

namespace Sys2Proof.Proofs.SignedMultiplyDivide

open Sys2Proof.Machine Sys2Proof.Laws Sys2Proof.Proofs.BitPrimitives Sys2Proof.Proofs.MultiplyDivide

/-! ## The sign and the magnitude of an operand -/

theorem getLsbD_31_eq_msb (a : Word) : a.getLsbD 31 = a.msb := (BitVec.msb_eq_getLsbD_last a).symm

theorem magnitude_of_negative {a : Word} (negative : a.msb = true) : magnitude a = -a := by
  rw [magnitude, getLsbD_31_eq_msb, if_pos negative, negate_eq_neg]

theorem magnitude_of_nonnegative {a : Word} (nonnegative : a.msb = false) : magnitude a = a := by
  rw [magnitude, getLsbD_31_eq_msb, nonnegative]
  rfl

theorem toInt_of_negative {a : Word} (negative : a.msb = true) : a.toInt = -((magnitude a).toNat : Int) := by
  rw [magnitude_of_negative negative, BitVec.toInt_eq_neg_toNat_neg_of_msb_true negative]

theorem toInt_of_nonnegative {a : Word} (nonnegative : a.msb = false) : a.toInt = (magnitude a).toNat := by
  rw [magnitude_of_nonnegative nonnegative, BitVec.toInt_eq_toNat_of_msb nonnegative]

/-! ## Multiplication (R302, R312) -/

theorem muluProduct_eq_ofInt (a b : Word) : muluProduct a b = BitVec.ofInt 64 (a.toNat * b.toNat) := by
  rw [← Nat.cast_mul, ← muluProduct_toNat, BitVec.ofInt_natCast, BitVec.ofNat_toNat, BitVec.setWidth_eq]

theorem splitWords_append (p : BitVec 64) : ((splitWords p).1 ++ (splitWords p).2 : BitVec 64) = p :=
  BitVec.extractLsb'_append_extractLsb' (w := 32) (len := 32)

/-- The 64-bit vector that MULS splits. -/
def mulsProduct (a b : Word) : BitVec 64 :=
  if a.msb != b.msb then negate (muluProduct (magnitude a) (magnitude b)) else muluProduct (magnitude a) (magnitude b)

theorem muls_eq_splitWords (a b : Word) : muls a b = splitWords (mulsProduct a b) := by
  rw [mulsProduct, ← splitWords_append (muluProduct (magnitude a) (magnitude b)), ← getLsbD_31_eq_msb, ← getLsbD_31_eq_msb]
  rfl

/-- The product of the magnitudes with the sign of the operands' product is the operands' product. -/
theorem mulsProduct_eq_ofInt (a b : Word) : mulsProduct a b = BitVec.ofInt 64 (a.toInt * b.toInt) := by
  rw [mulsProduct, muluProduct_eq_ofInt, negate_eq_neg, ← BitVec.ofInt_neg]
  cases sign_a : a.msb <;> cases sign_b : b.msb
  · rw [toInt_of_nonnegative sign_a, toInt_of_nonnegative sign_b]
    rfl
  · rw [toInt_of_nonnegative sign_a, toInt_of_negative sign_b, Int.mul_neg]
    rfl
  · rw [toInt_of_negative sign_a, toInt_of_nonnegative sign_b, Int.neg_mul]
    rfl
  · rw [toInt_of_negative sign_a, toInt_of_negative sign_b, Int.neg_mul_neg]
    rfl

/-- The product of two signed words fits in 64 signed bits. -/
theorem mulsProduct_toInt (a b : Word) : (mulsProduct a b).toInt = a.toInt * b.toInt := by
  have upper : a.toInt * b.toInt ≤ 2 ^ 62 := BitVec.toInt_mul_toInt_le
  have lower : -2 ^ 62 ≤ a.toInt * b.toInt := BitVec.le_toInt_mul_toInt
  rw [mulsProduct_eq_ofInt]
  exact BitVec.toInt_ofInt_eq_self (by decide) (Int.le_trans (by decide) lower) (Int.lt_of_le_of_lt upper (by decide))

theorem low_word_ofInt (v : Int) : (splitWords (BitVec.ofInt 64 v)).2 = BitVec.ofInt 32 v := by
  apply BitVec.eq_of_toNat_eq
  simp only [splitWords, BitVec.extractLsb'_toNat, BitVec.toNat_ofInt, Nat.shiftRight_zero]
  omega

theorem mulu_low_word (a b : Word) : (mulu a b).2 = a * b := by
  rw [mulu, muluProduct_eq_ofInt, low_word_ofInt, BitVec.ofInt_mul, BitVec.ofInt_natCast, BitVec.ofInt_natCast]
  simp

theorem muls_low_word (a b : Word) : (muls a b).2 = a * b := by
  rw [muls_eq_splitWords, mulsProduct_eq_ofInt, low_word_ofInt, BitVec.ofInt_mul, BitVec.ofInt_toInt, BitVec.ofInt_toInt]

/-- Settles O51: both low words are the product modulo 2^32, whatever the operands' reading. -/
theorem signedMultiplyExact : Obligations.SignedMultiplyExact := by
  intro a b
  rw [mdu, mdu, muls_low_word, mulu_low_word, ← muls_low_word, muls_eq_splitWords, splitWords_append]
  exact ⟨mulsProduct_toInt a b, rfl⟩

/-! ## Division (R305 to R307) -/

theorem divu_eq_div_mod (a b : Word) (hb : b ≠ 0#32) : divu a b = (a / b, a % b) := by
  have positive : 0 < b.toNat := Nat.pos_of_ne_zero fun h => hb (BitVec.eq_of_toNat_eq h)
  obtain ⟨quotient, remainder⟩ := divuLoop_toNat a b positive
  rw [divu_of_ne_zero a b hb]
  exact Prod.ext (BitVec.eq_of_toNat_eq quotient) (BitVec.eq_of_toNat_eq remainder)

theorem magnitude_ne_zero {b : Word} (hb : b ≠ 0#32) : magnitude b ≠ 0#32 := by
  cases sign : b.msb with
  | false => rwa [magnitude_of_nonnegative sign]
  | true =>
    rw [magnitude_of_negative sign]
    exact fun h => hb (BitVec.neg_eq_zero_iff.mp h)

/-- Outside the fixed results DIVS is the library's signed division, which also works on magnitudes. -/
theorem divs_eq_sdiv_srem (a b : Word) (hb : b ≠ 0#32) (no_overflow : ¬ (a = 0x80000000#32 ∧ b = 0xFFFFFFFF#32)) :
    divs a b = (a.sdiv b, a.srem b) := by
  rw [divs, if_neg hb, if_neg no_overflow, divu_eq_div_mod _ _ (magnitude_ne_zero hb)]
  simp only [getLsbD_31_eq_msb, negate_eq_neg, BitVec.sdiv_eq, BitVec.srem_eq]
  cases sign_a : a.msb <;> cases sign_b : b.msb <;>
    simp [magnitude_of_negative, magnitude_of_nonnegative, sign_a, sign_b]

theorem divs_zero_divisor (a : Word) : divs a 0#32 = (0xFFFFFFFF#32, a) := if_pos rfl

theorem divs_overflow : divs 0x80000000#32 0xFFFFFFFF#32 = (0x80000000#32, 0#32) :=
  (if_neg (by decide)).trans (if_pos (by decide))

/-- Settles O53: a quotient of magnitudes with the sign put back is rounded toward zero. -/
theorem signedDivision : Obligations.SignedDivision := by
  intro a b
  refine ⟨fun hb no_overflow => ?_, divs_zero_divisor a, divs_overflow⟩
  have in_range : a ≠ BitVec.intMin 32 ∨ b ≠ -1#32 := by
    have smallest : BitVec.intMin 32 = 0x80000000#32 := by decide
    have all_ones : -1#32 = 0xFFFFFFFF#32 := by decide
    rw [smallest, all_ones]
    exact not_and_or.mp no_overflow
  rw [mdu, divs_eq_sdiv_srem a b hb no_overflow]
  exact ⟨BitVec.toInt_sdiv_of_ne_or_ne a b in_range, BitVec.toInt_srem a b⟩

end Sys2Proof.Proofs.SignedMultiplyDivide
end

section
/-! The floating-point sum in closed form (43_fpu.md R355 to R360): alignment, combination, and the two loops of the
renormalisation. -/

namespace Sys2Proof.Proofs.FloatSum

open Sys2Proof.Machine Sys2Proof.Proofs.BitPrimitives

/-! ## Alignment and combination (R355, R356) -/

/-- Both significands are shifted to the greater exponent, one of them by 0. -/
theorem faddAlign_eq (x y : Unpacked) :
    faddAlign x y = (x.sig.toNat / 2 ^ (max x.exp.toNat y.exp.toNat - x.exp.toNat),
      y.sig.toNat / 2 ^ (max x.exp.toNat y.exp.toNat - y.exp.toNat), max x.exp.toNat y.exp.toNat) := by
  rw [faddAlign]
  split
  next less =>
    rw [shiftRightLogical_toNat, Nat.max_eq_right (Nat.le_of_lt less), Nat.sub_self, Nat.pow_zero, Nat.div_one]
  next not_less =>
    rw [shiftRightLogical_toNat, Nat.max_eq_left (Nat.le_of_not_lt not_less), Nat.sub_self, Nat.pow_zero, Nat.div_one]

theorem faddCombine_eq (s1 s2 : Bool) (m1 m2 : Nat) :
    faddCombine s1 s2 m1 m2 =
      (if s1 = s2 ∨ m2 ≤ m1 then s1 else s2, if s1 = s2 then m1 + m2 else max m1 m2 - min m1 m2) := by
  rw [faddCombine]
  by_cases same : s1 = s2
  · simp [same]
  · by_cases le : m2 ≤ m1
    · simp [same, le]
    · have less : m1 ≤ m2 := Nat.le_of_not_le le
      simp [same, le, less]

theorem div_two_pow_lt (m : BitVec 24) (k : Nat) : m.toNat / 2 ^ k < 2 ^ 24 :=
  Nat.lt_of_le_of_lt (Nat.div_le_self _ _) m.isLt

/-- A sum of aligned significands carries at most once (R354). -/
theorem faddCombine_lt {m1 m2 : Nat} (lt1 : m1 < 2 ^ 24) (lt2 : m2 < 2 ^ 24) (same : Prop) [Decidable same] :
    (if same then m1 + m2 else max m1 m2 - min m1 m2) < 2 ^ 25 := by
  split
  next => omega
  next => omega

/-! ## Renormalisation (R358) -/

theorem renormLeft_of_normal {m : Nat} (normal : 2 ^ 23 ≤ m) (e : Nat) : renormLeft m e = (m, e) := by
  cases e with
  | zero => rfl
  | succ e => rw [renormLeft, if_neg (Nat.not_lt.mpr normal)]

/-- The left loop stops at bit 23 or at exponent 0, whichever comes first. -/
theorem renormLeft_eq {m : Nat} (positive : m ≠ 0) (e : Nat) :
    renormLeft m e = (m * 2 ^ min e (23 - m.log2), e - min e (23 - m.log2)) := by
  induction e generalizing m with
  | zero => simp [renormLeft]
  | succ e ih =>
    by_cases normal : 2 ^ 23 ≤ m
    · have high : 23 ≤ m.log2 := (Nat.le_log2 positive).mpr normal
      rw [renormLeft_of_normal normal, Nat.sub_eq_zero_of_le high]
      simp
    · have low : m.log2 < 23 := (Nat.log2_lt positive).mpr (Nat.lt_of_not_le normal)
      have one_less : min (e + 1) (23 - m.log2) = min e (23 - (2 * m).log2) + 1 := by
        rw [Nat.log2_two_mul positive]
        omega
      rw [renormLeft, if_pos (Nat.lt_of_not_le normal), ih (by omega), one_less, Nat.pow_succ]
      congr 1
      · ring
      · omega

theorem renormalise_of_no_carry {m : Nat} (positive : m ≠ 0) (no_carry : m < 2 ^ 24) (e : Nat) :
    renormalise m e = (m * 2 ^ min e (23 - m.log2), e - min e (23 - m.log2)) := by
  have right : renormRight 25 m e = (m, e) := if_neg (Nat.not_le.mpr no_carry)
  rw [renormalise, right]
  exact renormLeft_eq positive e

theorem renormalise_of_carry {m : Nat} (carry : 2 ^ 24 ≤ m) (once : m < 2 ^ 25) (e : Nat) :
    renormalise m e = (m / 2, e + 1) := by
  have right : renormRight 25 m e = (m / 2, e + 1) := by
    rw [renormRight, if_pos carry, renormRight, if_neg (by omega)]
  rw [renormalise, right]
  exact renormLeft_of_normal (by omega) (e + 1)

/-! ## The sum -/

/-- The end of FADD, from the sign, the combined significand and the working exponent. -/
def faddFinish (a b : Word) (s : Bool) (m e : Nat) : Word :=
  if m = 0 then 0#32
  else if (renormalise m e).2 > 255 then Config.faddExpOverflow a b
  else fpuPack s.toNat (renormalise m e).2 ((renormalise m e).1 % 2 ^ 23)

theorem fadd_eq_faddFinish (a b : Word) {m1 m2 e m : Nat} {s : Bool}
    (align : faddAlign (fpuUnpack a) (fpuUnpack b) = (m1, m2, e))
    (combine : faddCombine (fpuUnpack a).sign (fpuUnpack b).sign m1 m2 = (s, m)) : fadd a b = faddFinish a b s m e := by
  simp only [fadd, align, combine, faddFinish]

theorem faddFinish_eq (a b : Word) (s : Bool) {m e : Nat} (once : m < 2 ^ 25) (exponent : e ≤ 255) :
    faddFinish a b s m e =
      if m = 0 then 0
      else if 2 ^ 24 ≤ m then
        if e = 255 then Config.faddExpOverflow a b else fpuPack s.toNat (e + 1) (m / 2 % 2 ^ 23)
      else fpuPack s.toNat (e - min e (23 - m.log2)) (m * 2 ^ min e (23 - m.log2) % 2 ^ 23) := by
  rw [faddFinish]
  refine ite_congr rfl (fun _ => rfl) fun positive => ?_
  by_cases carry : 2 ^ 24 ≤ m
  · have overflow : e + 1 > 255 ↔ e = 255 := by omega
    simp only [renormalise_of_carry carry once, overflow, carry, if_true]
  · have in_range : ¬ e - min e (23 - m.log2) > 255 := by omega
    simp only [renormalise_of_no_carry positive (Nat.lt_of_not_le carry), in_range, carry, if_false]

/-- Settles O55: the right loop runs at most once, and the left loop's length is the distance of the top bit from bit 23. -/
theorem floatAddClosedForm : Obligations.FloatAddClosedForm := by
  intro a b x y e m1 m2 s m shift
  have exponent : e ≤ 255 := Nat.max_le.mpr ⟨Nat.le_of_lt_succ x.exp.isLt, Nat.le_of_lt_succ y.exp.isLt⟩
  have once : m < 2 ^ 25 := faddCombine_lt (div_two_pow_lt _ _) (div_two_pow_lt _ _) (x.sign = y.sign)
  rw [fadd_eq_faddFinish a b (faddAlign_eq x y) (faddCombine_eq x.sign y.sign m1 m2)]
  exact faddFinish_eq a b s once exponent

end Sys2Proof.Proofs.FloatSum
end
